-- ==== Sys2Proof/Word.lean ====
section
/-! DEFINITION. The word types of the block: every register of the window and every command is 32 bits
wide (R13, R60), the two buffers hold bytes (R41). -/

namespace Sys2Proof

/-- A register of the window, a command word, a binary32 bit pattern (R9, R13, R60). -/
abbrev Word := BitVec 32

/-- An element of the input or the output buffer (R41). -/
abbrev Byte := BitVec 8

end Sys2Proof
end

