-- ==== Sys2Proof/Syntax.lean ====
section
/-! DEFINITION. The commands of the block, one constructor per row of the opcode table (R63), and the
pseudo-instructions that are other spellings of them (R69). -/

namespace Sys2Proof

/-- A command with its operands as the unsigned integers R62 assembles: `n` and `m` are the 6-bit
fields, `c` the 24-bit field, `x` the 8-bit field. Whether an operand fits its field is
`Instr.wellFormed`; whether it lies in the command's legal range is checked when the command runs (R66). -/
inductive Instr where
  /-- Do nothing (R117). -/
  | nop
  /-- Read `n` bits into RES (R73). -/
  | read (n : Nat)
  /-- Read `n` bits into RES without moving the cursor (R74). -/
  | peek (n : Nat)
  /-- Read one bit into RES (R75). -/
  | readbit
  /-- Advance the cursor by `c` bits (R76). -/
  | skip (c : Nat)
  /-- Copy `c` bytes from the stream to OBUF (R77). -/
  | readbytes (c : Nat)
  /-- Read one EMDF variable-length integer of granularity `n` (R79). -/
  | varlen (n : Nat)
  /-- Read an `n`-bit field with a fixed `m`-bit escape extension (R80). -/
  | escf (n m : Nat)
  /-- Read an `n`-bit field with a variable-length escape extension of granularity `m` (R81). -/
  | escv (n m : Nat)
  /-- Decode one matrix symbol in mode `x` (R90). -/
  | hmat (x : Nat)
  /-- Decode one vector symbol in mode `x` (R91). -/
  | hvec (x : Nat)
  /-- Decode one index symbol for `x` channels (R92). -/
  | hidx (x : Nat)
  /-- Map a band-count index to a band count (R98). -/
  | lutbands (x : Nat)
  /-- Map a downmix configuration to a channel count (R99). -/
  | lutchan (x : Nat)
  /-- Forward transform of instance `x` (R105). -/
  | qfwd (x : Nat)
  /-- Inverse transform of instance `x` (R106). -/
  | qinv (x : Nat)
  /-- Clear the state of instance `x` (R107). -/
  | qclr (x : Nat)
deriving DecidableEq, Repr

/-- The pseudo-instructions of R69. -/
inductive Pseudo where
  | peekbit | hmatC | hmatF | hvecC | hvecF | hidx5 | hidx7 | skipbytes (k : Nat)
deriving DecidableEq, Repr

/-- The one command each pseudo-instruction stands for (R69). -/
def Pseudo.expand : Pseudo → Instr
  | .peekbit => .peek 1
  | .hmatC => .hmat 0
  | .hmatF => .hmat 1
  | .hvecC => .hvec 0
  | .hvecF => .hvec 1
  | .hidx5 => .hidx 5
  | .hidx7 => .hidx 7
  | .skipbytes k => .skip (8 * k)

end Sys2Proof
end

