-- ==== Sys2Proof/Config.lean ====
section
/-! DEFINITION. What a build of the block fixes (R7): its geometry, its read-only tables (R28) and its
identification, gathered in the plain record `Build`; the OPEN parameters as constants without a
value; and the free values the spec leaves unspecified (R11, R33, R104, R26). -/

namespace Sys2Proof

/-- One entry of a Huffman tree: the pair `[left, right]`, each a 16-bit two's-complement number (R87). -/
structure Entry where
  left : BitVec 16
  right : BitVec 16
deriving DecidableEq, Repr, Inhabited

/-- A Huffman tree: entry 0 is the root, and there is at least one entry (R87). -/
structure Tree where
  root : Entry
  rest : List Entry
deriving DecidableEq, Repr, Inhabited

/-- `HT_LEN[t]`, the number of entries of the tree (R87). -/
def Tree.len (t : Tree) : Nat := t.rest.length + 1

/-- All entries, entry 0 first (R87). -/
def Tree.entries (t : Tree) : List Entry := t.root :: t.rest

/-- The names of the six trees (R87). -/
inductive TreeName where
  | matC | matF | vecC | vecF | idx5 | idx7
deriving DecidableEq, Repr

/-- The build parameters of R7 with the read-only tables of R28. The tables are state that never
changes (R28), so a `Build` is a field of the machine's state, and every claim holds for every build. -/
structure Build where
  /-- `ID_VALUE` (R16). -/
  idValue : Word
  /-- `BASE`, the host address of offset 0 of the window (R13, R53). -/
  base : Nat
  /-- `QMF_INST`, the number of filter-bank instances, 1..256 (R7). -/
  qmfInst : Nat
  /-- `QMF_J`, the prototype length in blocks of 128, 1..255 (R7, R17). -/
  qmfJ : Nat
  /-- `BUF_BYTES`, 1..65536 (R7). -/
  bufBytes : Nat
  /-- `OBUF_BYTES`, 1..65536 (R7). -/
  obufBytes : Nat
  /-- `PROTO[0..QMF_L-1]` (R101). -/
  proto : List Word
  /-- `RF_RE[k][n]`, 64 rows of 128 (R101). -/
  rfRe : List (List Word)
  /-- `RF_IM[k][n]`, 64 rows of 128 (R101). -/
  rfIm : List (List Word)
  /-- `RI_RE[k][n]`, 64 rows of 128 (R101). -/
  riRe : List (List Word)
  /-- `RI_IM[k][n]`, 64 rows of 128 (R101). -/
  riIm : List (List Word)
  /-- `HT[MAT_C]` (R87). -/
  matC : Tree
  /-- `HT[MAT_F]` (R87). -/
  matF : Tree
  /-- `HT[VEC_C]` (R87). -/
  vecC : Tree
  /-- `HT[VEC_F]` (R87). -/
  vecF : Tree
  /-- `HT[IDX5]` (R87). -/
  idx5 : Tree
  /-- `HT[IDX7]` (R87). -/
  idx7 : Tree
deriving DecidableEq, Repr

/-- `QMF_L = 128·QMF_J`, the length of the prototype and of each analysis window (R7, R102). -/
def Build.qmfL (b : Build) : Nat := 128 * b.qmfJ

/-- `QMF_H = 2·QMF_L`, the length of each synthesis history (R7, R102). -/
def Build.qmfH (b : Build) : Nat := 2 * b.qmfL

/-- A binary32 pattern is finite when its exponent field is not all ones (R101 asks it of every table entry). -/
def finiteWord (w : Word) : Bool := w.toNat / 2 ^ 23 % 256 != 255

/-- A rotation table of R101: 64 rows of 128 finite entries. -/
abbrev rotationTable (t : List (List Word)) : Prop :=
  t.length = 64 ∧ ∀ row ∈ t, row.length = 128 ∧ ∀ w ∈ row, finiteWord w = true

/-- The legal values of the build parameters (R7, R87, R101 and the collected table of 92_eei_decisions.md). -/
abbrev Build.Legal (b : Build) : Prop :=
  (1 ≤ b.qmfInst ∧ b.qmfInst ≤ 256) ∧ (1 ≤ b.qmfJ ∧ b.qmfJ ≤ 255) ∧
  (1 ≤ b.bufBytes ∧ b.bufBytes ≤ 65536) ∧ (1 ≤ b.obufBytes ∧ b.obufBytes ≤ 65536) ∧
  (b.proto.length = b.qmfL ∧ ∀ w ∈ b.proto, finiteWord w = true) ∧
  (rotationTable b.rfRe ∧ rotationTable b.rfIm ∧ rotationTable b.riRe ∧ rotationTable b.riIm) ∧
  (b.matC.len ≤ 65535 ∧ b.matF.len ≤ 65535 ∧ b.vecC.len ≤ 65535 ∧ b.vecF.len ≤ 65535 ∧
    b.idx5.len ≤ 65535 ∧ b.idx7.len ≤ 65535)

/-- A finite binary32 number by its fields: the exponent field is at most 254 (R101). -/
structure FiniteBits where
  neg : Bool
  exponent : Fin 255
  fraction : BitVec 23
deriving DecidableEq, Repr, Inhabited

/-- The bit pattern of a finite number (R9). -/
def FiniteBits.word (f : FiniteBits) : Word :=
  BitVec.ofNat 32 ((if f.neg then 2 ^ 31 else 0) + f.exponent.val * 2 ^ 23 + f.fraction.toNat)

/-- The three binary32 operations of R9. -/
inductive FloatOp where
  | add | sub | mul
deriving DecidableEq, Repr

/-- The three data-port files (R26). -/
inductive PortFile where
  | ts | xr | xi
deriving DecidableEq, Repr

/-- OPEN: `ID_VALUE` (R16, log entry 1). -/
opaque Config.idValue : Word

/-- OPEN: `BASE` (R13, log entry 1). -/
opaque Config.base : Nat

/-- OPEN: `QMF_J - 1`, so that `QMF_J` is 1..255 (R7, C9, log entry 1). -/
opaque Config.qmfBlocksLessOne : Fin 255

/-- OPEN: `PROTO` (R101, log entry 1). -/
opaque Config.proto : Nat → FiniteBits

/-- OPEN: `RF_RE[k][n]` (R101, log entry 1). -/
opaque Config.rfRe : Nat → Nat → FiniteBits

/-- OPEN: `RF_IM[k][n]` (R101, log entry 1). -/
opaque Config.rfIm : Nat → Nat → FiniteBits

/-- OPEN: `RI_RE[k][n]` (R101, log entry 1). -/
opaque Config.riRe : Nat → Nat → FiniteBits

/-- OPEN: `RI_IM[k][n]` (R101, log entry 1). -/
opaque Config.riIm : Nat → Nat → FiniteBits

/-- OPEN: `HT_LEN[t] - 1`, so that `HT_LEN[t]` is 1..65535 (R87, log entry 1). -/
opaque Config.treeLenLessOne : TreeName → Fin 65535

/-- OPEN: the entries of the six trees (R87, log entry 1). -/
opaque Config.treeEntry : TreeName → Nat → Entry

/-- FREE VALUE: the word a host read of a result returns while BUSY = 1 (R33, U2); applied to the
counter `draws` of the state (log entry 4). -/
opaque Config.freeWord : Nat → Word

/-- FREE VALUE: what element `k` of a data-port file holds after the `r`-th hardware reset, before
anything has written it (R26, R32, U1; log entry 2). -/
opaque Config.powerUpPort : Nat → PortFile → Nat → Word

/-- FREE VALUE: the sign and payload of the NaN an operation gives on its operands (R104, U5; log entry 5). -/
opaque Config.freeNan : FloatOp → Word → Word → Word

/-- One OPEN tree as data: its length is `HT_LEN` (R87). -/
def Config.tree (t : TreeName) : Tree :=
  { root := Config.treeEntry t 0
    rest := (List.range (Config.treeLenLessOne t).val).map fun e => Config.treeEntry t (e + 1) }

/-- One OPEN rotation table as 64 rows of 128 (R101). -/
def Config.rotation (f : Nat → Nat → FiniteBits) : List (List Word) :=
  (List.range 64).map fun k => (List.range 128).map fun n => (f k n).word

/-- The build behind `State.reset`: the OPEN parameters are the constants above, the build choices
have the decided values of R7 (`QMF_INST` = 71, `BUF_BYTES` = `OBUF_BYTES` = 65536). -/
def Config.build : Build :=
  { idValue := Config.idValue
    base := Config.base
    qmfInst := 71
    qmfJ := Config.qmfBlocksLessOne.val + 1
    bufBytes := 65536
    obufBytes := 65536
    proto := (List.range (128 * (Config.qmfBlocksLessOne.val + 1))).map fun n => (Config.proto n).word
    rfRe := Config.rotation Config.rfRe
    rfIm := Config.rotation Config.rfIm
    riRe := Config.rotation Config.riRe
    riIm := Config.rotation Config.riIm
    matC := Config.tree .matC
    matF := Config.tree .matF
    vecC := Config.tree .vecC
    vecF := Config.tree .vecF
    idx5 := Config.tree .idx5
    idx7 := Config.tree .idx7 }

end Sys2Proof
end

