-- ==== Sys2Proof/WellFormed.lean ====
section
/-! DEFINITION. When a command has an encoding (every operand fits its field, R61, R68), and when a
Huffman tree is well-formed (R93). -/

namespace Sys2Proof

/-- Every operand fits the field of its format (R61): the assembler refuses `n` or `m` above 63, `c`
above 2^24 - 1 and `x` above 255 (R68). An operand that fits but is out of the legal range is
well-formed and faults when it runs. -/
def Instr.wellFormed : Instr → Bool
  | .nop | .readbit => true
  | .read n | .peek n | .varlen n => decide (n < 2 ^ 6)
  | .skip c | .readbytes c => decide (c < 2 ^ 24)
  | .escf n m | .escv n m => decide (n < 2 ^ 6) && decide (m < 2 ^ 6)
  | .hmat x | .hvec x | .hidx x | .lutbands x | .lutchan x | .qfwd x | .qinv x | .qclr x =>
    decide (x < 2 ^ 8)

/-- The two children of entry `e` as the signed numbers the entry stores (R87). -/
def Tree.children (t : Tree) (e : Nat) : List Int :=
  match t.entries[e]? with
  | some p => [p.left.toInt, p.right.toInt]
  | none => []

/-- No walk of at most `fuel` further entries from entry `e` meets an entry of `seen` (R93 "no walk from
entry 0 revisits an entry"). -/
def Tree.noRevisit (t : Tree) : (fuel : Nat) → (seen : List Nat) → (e : Nat) → Bool
  | 0, seen, e => decide (e ∉ seen)
  | fuel + 1, seen, e =>
    decide (e ∉ seen) &&
      (t.children e).all fun c => decide (c < 0) || t.noRevisit fuel (e :: seen) c.toNat

/-- Every nonnegative child value is below `HT_LEN` (R93). -/
def Tree.childrenInRange (t : Tree) : Bool :=
  t.entries.all fun p =>
    (decide (p.left.toInt < 0) || decide (p.left.toInt < t.len)) &&
      (decide (p.right.toInt < 0) || decide (p.right.toInt < t.len))

/-- A well-formed tree (R93). A walk of `HT_LEN` entries that revisits none has seen them all, so
`HT_LEN` steps of search decide the second half. -/
def Tree.wellFormed (t : Tree) : Bool := t.childrenInRange && t.noRevisit t.len [] 0

end Sys2Proof
end

