-- ==== Sys2Proof/Decode.lean ====
section
/-! DEFINITION. Decoding a command word as a total function that rejects by name (R64, R65), and the
encoder written from the same formats (R61). A command is one 32-bit word written to CMD and not a
word of memory (R58, R60), so no byte order enters. -/

namespace Sys2Proof

/-- `w[hi:lo]`, the field from bit `hi` down to bit `lo` inclusive, as an unsigned integer (R8, R62). -/
def bits (w : Word) (hi lo : Nat) : Nat := w.toNat / 2 ^ lo % 2 ^ (hi - lo + 1)

/-- Why a word spells no command (R65): its opcode is not in the map, or a reserved-zero bit is set. -/
inductive DecodeReject where
  | unknownOpcode (op : Nat)
  | reservedBits (op : Nat)
deriving DecidableEq, Repr

/-- Format FZ: bits[23:0] are reserved zero (R61). -/
def decodeFZ (w : Word) (i : Instr) : Except DecodeReject Instr :=
  if bits w 23 0 = 0 then .ok i else .error (.reservedBits (bits w 31 24))

/-- Format FN: n = bits[5:0], bits[23:6] are reserved zero (R61). -/
def decodeFN (w : Word) (mk : Nat → Instr) : Except DecodeReject Instr :=
  if bits w 23 6 = 0 then .ok (mk (bits w 5 0)) else .error (.reservedBits (bits w 31 24))

/-- Format FNM: n = bits[5:0], m = bits[11:6], bits[23:12] are reserved zero (R61). -/
def decodeFNM (w : Word) (mk : Nat → Nat → Instr) : Except DecodeReject Instr :=
  if bits w 23 12 = 0 then .ok (mk (bits w 5 0) (bits w 11 6))
  else .error (.reservedBits (bits w 31 24))

/-- Format FC: c = bits[23:0], no reserved bit (R61). -/
def decodeFC (w : Word) (mk : Nat → Instr) : Except DecodeReject Instr := .ok (mk (bits w 23 0))

/-- Format FI: x = bits[7:0], bits[23:8] are reserved zero (R61). -/
def decodeFI (w : Word) (mk : Nat → Instr) : Except DecodeReject Instr :=
  if bits w 23 8 = 0 then .ok (mk (bits w 7 0)) else .error (.reservedBits (bits w 31 24))

/-- The command a word spells, or why it spells none (R63, R64). -/
def decode (w : Word) : Except DecodeReject Instr :=
  match bits w 31 24 with
  | 0x00 => decodeFZ w .nop
  | 0x10 => decodeFN w .read
  | 0x11 => decodeFN w .peek
  | 0x12 => decodeFZ w .readbit
  | 0x13 => decodeFC w .skip
  | 0x14 => decodeFC w .readbytes
  | 0x15 => decodeFN w .varlen
  | 0x16 => decodeFNM w .escf
  | 0x17 => decodeFNM w .escv
  | 0x20 => decodeFI w .hmat
  | 0x21 => decodeFI w .hvec
  | 0x22 => decodeFI w .hidx
  | 0x28 => decodeFI w .lutbands
  | 0x29 => decodeFI w .lutchan
  | 0x30 => decodeFI w .qfwd
  | 0x31 => decodeFI w .qinv
  | 0x32 => decodeFI w .qclr
  | op => .error (.unknownOpcode op)

/-- The opcode of a command (R63). -/
def opcodeOf : Instr → Nat
  | .nop => 0x00
  | .read _ => 0x10
  | .peek _ => 0x11
  | .readbit => 0x12
  | .skip _ => 0x13
  | .readbytes _ => 0x14
  | .varlen _ => 0x15
  | .escf _ _ => 0x16
  | .escv _ _ => 0x17
  | .hmat _ => 0x20
  | .hvec _ => 0x21
  | .hidx _ => 0x22
  | .lutbands _ => 0x28
  | .lutchan _ => 0x29
  | .qfwd _ => 0x30
  | .qinv _ => 0x31
  | .qclr _ => 0x32

/-- bits[23:0] of a command: the operand fields at the places R61 gives them. -/
def operandBits : Instr → Nat
  | .nop | .readbit => 0
  | .read n | .peek n | .varlen n => n
  | .escf n m | .escv n m => m * 2 ^ 6 + n
  | .skip c | .readbytes c => c
  | .hmat x | .hvec x | .hidx x | .lutbands x | .lutchan x | .qfwd x | .qinv x | .qclr x => x

/-- The word of a command: the opcode in bits[31:24], the operand fields below it (R60, R61). -/
def encode (i : Instr) : Word := BitVec.ofNat 32 (opcodeOf i * 2 ^ 24 + operandBits i)

/-- The assembler's encoding of a command: it refuses an operand that does not fit its field (R68). -/
def assemble (i : Instr) : Option Word := if i.wellFormed then some (encode i) else none

/-- What the decoder reads from an instruction of `nbits` bits numbered as the opcode table numbers
them: the one word of R60, with every bit above `nbits` zero. -/
def decodeTableWord (nbits w : Nat) : Option Instr :=
  if nbits ≤ 32 then (decode (BitVec.ofNat 32 (w % 2 ^ nbits))).toOption else none

end Sys2Proof
end

