-- ==== Sys2Proof/Machine/State.lean ====
section
/-! DEFINITION. The state of the block as plain data: every register, buffer, mark, filter-bank array and
hidden flag the spec names (R13 to R33), the read-only tables (R28), and the model's own inputs and
counters; the reasons a step can stop; and the state after reset (R144). -/

namespace Sys2Proof.Machine

/-- The recorded faults of R123. They are register contents (STATUS.FCODE), never a stop of the model. -/
inductive FaultCode where
  | illegalCmd | badOperand | bitUnderrun | varlenOverflow | huffBadIndex | huffNoLeaf
  | unsupported | cmdOverrun | busyWrite
deriving DecidableEq, Repr

/-- The model faults: a step reads a byte that has no value. -/
inductive Fault where
  /-- Raised by a command or a host read that needs byte `b` of BUF when nothing has written it since the
  last hardware reset (R32, R43). Safe: hardware returns some value and goes on. -/
  | bufUnwritten (b : Nat)
  /-- Raised by a host read of an OBUF word with lane byte `b` that nothing has written since the last
  hardware reset (R32, R45). Safe: hardware returns some value and goes on. -/
  | obufUnwritten (b : Nat)
deriving DecidableEq, Repr

/-- The refusals: events to which the spec gives no meaning. -/
inductive Refusal where
  /-- Raised by `exec` for a command without a meaning in this model (none is left). Safe. -/
  | notModelled (mnemonic : String)
  /-- Raised by a host access that is not 4 bytes wide, not 4-byte aligned or outside offsets
  0x00000..0x2FFFF (R42, U3). Safe: the spec gives it no meaning. -/
  | accessShape (offset bytes : Nat)
  /-- Raised by a hardware reset while a command is pending (R145, U4). Safe: the spec does not model it. -/
  | resetWhilePending
deriving DecidableEq, Repr

/-- One filter-bank instance (R27): the analysis window `aw` and the synthesis history `sh`, index 0 the
newest value. An array is held without its trailing +0.0 elements: an index past the list reads +0.0. -/
structure Instance where
  aw : List Word
  sh : List Word
deriving DecidableEq, Repr

/-- An instance whose every element is +0.0: after reset and after QCLR (R27, R107). -/
def Instance.fresh : Instance := { aw := [], sh := [] }

/-- One turn of the model: which agent moves, and what the host does (R6, R121; log entry 6). Offsets are
relative to BASE (R13); `bytes` is the width of the access. -/
inductive Turn where
  /-- The host reads at an offset. -/
  | hostRead (offset bytes : Nat)
  /-- The host writes a value at an offset. -/
  | hostWrite (offset bytes : Nat) (value : Word)
  /-- The engine moves. -/
  | engine
  /-- A hardware reset arrives (R144). -/
  | hardReset
deriving DecidableEq, Repr

/-- The state of the block. An element of `buf`, `obuf`, `ts`, `xr` or `xi` has been written since the last
hardware reset exactly when its index is listed (the marks of R32). -/
structure State where
  /-- POS, the bit cursor (R21). -/
  pos : Word
  /-- END, the number of valid bits (R22). -/
  bitEnd : Word
  /-- RES, the result register (R23). -/
  res : Word
  /-- STATUS.FAULT (R19). -/
  fault : Bool
  /-- STATUS.DROP (R19). -/
  drop : Bool
  /-- STATUS.FCODE (R19, R124). -/
  fcode : BitVec 8
  /-- FCMD (R24). -/
  fcmd : Word
  /-- FINFO (R25). -/
  finfo : Word
  /-- PENDING (R29); STATUS.BUSY is 1 exactly when it is not none. -/
  pending : Option Word
  /-- SRST_REQ (R29). -/
  srstReq : Bool
  /-- BUF, the input buffer (R41, R43). -/
  buf : List Host.Cell
  /-- OBUF, the output buffer (R41, R45). -/
  obuf : List Host.Cell
  /-- TS[0..63], the written elements (R26, R32). -/
  ts : List (Nat × Word)
  /-- XR[0..63], the written elements (R26, R32). -/
  xr : List (Nat × Word)
  /-- XI[0..63], the written elements (R26, R32). -/
  xi : List (Nat × Word)
  /-- The filter-bank instances 0..QMF_INST-1 (R27). -/
  inst : List Instance
  /-- ID, CFG, the geometry and the read-only tables (R7, R16, R17, R28): no step changes them. -/
  build : Build
  /-- The model's own: the turns still to come (log entry 6). -/
  script : List Turn
  /-- The model's own: what the last host read returned (R141, log entry 7). -/
  rdata : Word
  /-- The model's own: how many free words host reads have drawn (R33, log entry 4). -/
  draws : Nat
  /-- The model's own: how many hardware resets have arrived (R26, log entry 2). -/
  resets : Nat
deriving DecidableEq, Repr

/-- The block of build `b` right after a hardware reset (R144, R145): registers at the values of R16 to
R25, hidden state at that of R29, every instance +0.0, buffers and data ports never written. -/
def State.resetOf (b : Build) : State :=
  { pos := 0, bitEnd := 0, res := 0
    fault := false, drop := false, fcode := 0, fcmd := 0, finfo := 0
    pending := none, srstReq := false
    buf := [], obuf := [], ts := [], xr := [], xi := []
    inst := List.replicate b.qmfInst Instance.fresh
    build := b
    script := [], rdata := 0, draws := 0, resets := 0 }

/-- The machine right after reset (R144), with the OPEN build of the configuration (log entry 1). -/
def State.reset : State := State.resetOf Config.build

end Sys2Proof.Machine
end

