-- ==== Sys2Proof/Machine/Ops.lean ====
section
/-! DEFINITION. The named operations over the state: the element stores, the buffers and bit reads
(R43 to R46, R71, R72, R78), the data ports (R26), the instances (R27), the recording of a fault, which
is the block's only exception entry (R125, R130), completion (R120), and the two resets (R144, R146). -/

namespace Sys2Proof.Machine

/-! ### Element stores

BUF, OBUF and the data ports are lists of (index, value) with strictly rising indexes; an index that is
not listed has not been written since reset (R32). -/

/-- The value at index `a`, or none when nothing has written it. -/
def storeGet {α : Type} : List (Nat × α) → Nat → Option α
  | [], _ => none
  | (k, v) :: rest, a => if k = a then some v else storeGet rest a

/-- Write `v` at index `a`, keeping the indexes strictly rising. -/
def storePut {α : Type} : List (Nat × α) → Nat → α → List (Nat × α)
  | [], a, v => [(a, v)]
  | (k, w) :: rest, a, v =>
    if a < k then (a, v) :: (k, w) :: rest
    else if a = k then (a, v) :: rest
    else (k, w) :: storePut rest a v

/-- Write a list of values at consecutive indexes from `a` on. -/
def storePutAll {α : Type} : List (Nat × α) → Nat → List α → List (Nat × α)
  | m, _, [] => m
  | m, a, v :: vs => storePutAll (storePut m a v) (a + 1) vs

/-- The canonical form: indexes strictly rising and below `limit`. -/
abbrev storeWf {α : Type} (limit : Nat) (m : List (Nat × α)) : Prop :=
  m.Pairwise (fun p q => p.1 < q.1) ∧ ∀ p ∈ m, p.1 < limit

/-- The canonical form of a byte memory of `limit` bytes: addresses strictly rising, all inside. An
unlisted address has no value, so no listed byte equals one. -/
abbrev Memory.wf (limit : Nat) (m : List Host.Cell) : Prop := storeWf limit m

/-! ### The outcome of a command's body -/

/-- How a body ends: with a result, by raising a recorded fault (R10 `raise`), or at a byte without a
value (R32). -/
inductive Run (α : Type) where
  | ok (a : α)
  | raise (code : FaultCode) (info : Word)
  | stop (f : Fault)
deriving DecidableEq, Repr

/-- Go on with the result of a body; a raise or a stop ends the whole body (R10). -/
def Run.bind {α β : Type} : Run α → (α → Run β) → Run β
  | .ok a, k => k a
  | .raise c i, _ => .raise c i
  | .stop f, _ => .stop f

/-! ### Reading the bit stream -/

/-- `BufByte(b)` (R44): byte `b` of BUF; a byte never written has no value (R32). -/
def bufByte (s : State) (b : Nat) : Run Byte :=
  match storeGet s.buf b with
  | some v => .ok v
  | none => .stop (.bufUnwritten b)

/-- `BitAt(p)` (R46): bit address 8·b is the most significant bit of byte b. -/
def bitAt (s : State) (p : Nat) : Run Nat :=
  (bufByte s (p / 8)).bind fun v => .ok (v.toNat / 2 ^ (7 - p % 8) % 2)

/-- The loop of `ReadBits` (R71): `n` more bits from address `p` shifted into `v`, the first-read bit the
most significant. -/
def bitsFrom (s : State) : (n p v : Nat) → Run Nat
  | 0, _, v => .ok v
  | n + 1, p, v => (bitAt s p).bind fun b => bitsFrom s n (p + 1) (2 * v + b)

/-- The first bit address outside the data that a read at cursor `p` needed (R71): `max(cursor, END)`. -/
def underrunInfo (s : State) (p : Nat) : Word := BitVec.ofNat 32 (max p s.bitEnd.toNat)

/-- `ReadBits(n)` at cursor `p` (R71): the value; the caller moves the cursor to `p + n`. -/
def readBits (s : State) (p n : Nat) : Run Nat :=
  if s.bitEnd.toNat < p + n then .raise .bitUnderrun (underrunInfo s p)
  else bitsFrom s n p 0

/-- The loop of `VarBits(n)` (R78) from cursor `p` with accumulator `v`: the value and the cursor after it.
Every turn of the loop reads at least one bit, so `fuel` need only be the number of bits left; with none
left the next read faults. -/
def varBitsFrom (s : State) (n : Nat) : (fuel p v : Nat) → Run (Nat × Nat)
  | 0, p, _ => .raise .bitUnderrun (underrunInfo s p)
  | fuel + 1, p, v =>
    (readBits s p n).bind fun g =>
    (readBits s (p + n) 1).bind fun more =>
      if more = 0 then .ok (v + g, p + n + 1)
      else if 2 ^ 32 ≤ (v + g) * 2 ^ n + 2 ^ n then
        .raise .varlenOverflow (BitVec.ofNat 32 (p + n + 1))
      else varBitsFrom s n fuel (p + n + 1) ((v + g) * 2 ^ n + 2 ^ n)

/-- `VarBits(n)` at cursor `p` (R78): the value and the cursor after it. -/
def varBits (s : State) (p n : Nat) : Run (Nat × Nat) :=
  varBitsFrom s n (s.bitEnd.toNat - p) p 0

/-- `c` times `ReadBits(8)` from cursor `p`: the bytes READBYTES copies (R77). -/
def bytesFrom (s : State) : (c p : Nat) → Run (List Byte)
  | 0, _ => .ok []
  | c + 1, p =>
    (readBits s p 8).bind fun v =>
    (bytesFrom s c (p + 8)).bind fun vs => .ok (BitVec.ofNat 8 v :: vs)

/-! ### Writing registers and buffers -/

/-- Move the bit cursor to `p` (R21). -/
def setPos (s : State) (p : Nat) : State := { s with pos := BitVec.ofNat 32 p }

/-- Write the result register (R23). Every result a rule stores is below 2^32. -/
def setRes (s : State) (v : Nat) : State := { s with res := BitVec.ofNat 32 v }

/-- Write bytes to OBUF from index 0 on: `OBufWrite` of R45 for each. -/
def setObuf (s : State) (vs : List Byte) : State := { s with obuf := storePutAll s.obuf 0 vs }

/-! ### Data ports and instances -/

/-- The written elements of a data-port file (R26, R32). -/
def portStore (s : State) : PortFile → List (Nat × Word)
  | .ts => s.ts
  | .xr => s.xr
  | .xi => s.xi

/-- Replace the written elements of a data-port file (R26). -/
def setPortStore (s : State) (f : PortFile) (m : List (Nat × Word)) : State :=
  match f with
  | .ts => { s with ts := m }
  | .xr => { s with xr := m }
  | .xi => { s with xi := m }

/-- Element `k` of a data-port file (R26). An element nothing has written since the last hardware reset
holds an unspecified value: a free value (DESIGN CHOICE, log entry 2). -/
def readPort (s : State) (f : PortFile) (k : Nat) : Word :=
  (storeGet (portStore s f) k).getD (Config.powerUpPort s.resets f k)

/-- All 64 elements of a data-port file in index order (R26). -/
def readPorts (s : State) (f : PortFile) : List Word := (List.range 64).map (readPort s f)

/-- Write element `k` of a data-port file (R26). -/
def writePort (s : State) (f : PortFile) (k : Nat) (v : Word) : State :=
  setPortStore s f (storePut (portStore s f) k v)

/-- Write the elements of a data-port file from index 0 on; a transform writes all 64 (R105, R106). -/
def writePorts (s : State) (f : PortFile) (vs : List Word) : State :=
  setPortStore s f (storePutAll (portStore s f) 0 vs)

/-- Instance `x` (R27). -/
def instanceAt (s : State) (x : Nat) : Instance := s.inst.getD x Instance.fresh

/-- Replace instance `x` (R27). -/
def setInstance (s : State) (x : Nat) (q : Instance) : State := { s with inst := s.inst.set x q }

/-- Drop the trailing +0.0 elements of an array, which read the same unlisted (R27, log entry 13). -/
def trimZeros : List Word → List Word
  | [] => []
  | w :: ws =>
    match trimZeros ws with
    | [] => if w = 0 then [] else [w]
    | v :: vs => w :: v :: vs

/-- Slide new values, newest first, into an array of `len` elements; the oldest fall out (R105, R106). -/
def slideIn (len : Nat) (newest old : List Word) : List Word :=
  trimZeros ((newest ++ old).take len)

/-- Element `n` of an instance array: +0.0 where the list has ended (R27). -/
def elementAt (a : List Word) (n : Nat) : Word := a.getD n 0

/-! ### Faults: entry, and the end of a command -/

/-- The value of STATUS.FCODE for each recorded fault (R123). -/
def faultCodeBits : FaultCode → BitVec 8
  | .illegalCmd => 0x01
  | .badOperand => 0x02
  | .bitUnderrun => 0x03
  | .varlenOverflow => 0x04
  | .huffBadIndex => 0x05
  | .huffNoLeaf => 0x06
  | .unsupported => 0x07
  | .cmdOverrun => 0x08
  | .busyWrite => 0x09

/-- `Record(code, word, info)` (R125): the entry to a fault. The first fault stands (R124), and nothing
else is saved or changed (R130). -/
def record (code : FaultCode) (word info : Word) (s : State) : State :=
  if s.fault then s
  else { s with fault := true, fcode := faultCodeBits code, fcmd := word, finfo := info }

/-- The end of a command's execution with word `word` started in state `s` (R121): a body that returns
gives its state; a body that raises leaves `s` but for `Record` (R128), since `s` is the snapshot; a body
that meets a byte without a value stops the model (R32). -/
def commitCommand (word : Word) (s : State) : Run State → Host.Outcome State Fault Refusal
  | .ok t => .next t
  | .raise code info => .next (record code word info s)
  | .stop f => .fault f

/-- `SoftReset()` (R146): registers and instances back to their reset values; BUF, OBUF and the data
ports keep their contents and marks. -/
def softReset (s : State) : State :=
  { s with
    pos := 0, bitEnd := 0, res := 0, fcmd := 0, finfo := 0
    fault := false, drop := false, fcode := 0
    pending := none, srstReq := false
    inst := List.replicate s.build.qmfInst Instance.fresh }

/-- Completion of a command (R120, R121): PENDING <- none, so BUSY <- 0, then the soft reset that was
requested meanwhile. -/
def complete (s : State) : State :=
  if s.srstReq then softReset { s with pending := none } else { s with pending := none }

/-- A hardware reset (R144) of a block that is idle (R145): every register and mark at its reset value,
the build kept, and the model's own fields as they were but for the count of resets. -/
def hardReset (s : State) : State :=
  { State.resetOf s.build with
    script := s.script, rdata := s.rdata, draws := s.draws, resets := s.resets + 1 }

end Sys2Proof.Machine
end

