-- ==== Sys2Proof/Machine/Operands.lean ====
section
/-! DEFINITION. Operand ranges and the information words of operand faults (R63, R119, R127), the
selection of a tree by mode or channel count (R88), and the two lookup tables (R97). -/

namespace Sys2Proof.Machine

/-- The operand fields as FINFO numbers them (R119). -/
inductive OperandField where
  | n | m | c | x
deriving DecidableEq, Repr

/-- 0x01 for n, 0x02 for m, 0x03 for c, 0x04 for x (R119). -/
def operandFieldCode : OperandField → Nat
  | .n => 0x01
  | .m => 0x02
  | .c => 0x03
  | .x => 0x04

/-- `{field, value}`: field in bits[31:24], value in bits[23:0] (R127). -/
def fieldInfo (field value : Nat) : Word := BitVec.ofNat 32 (field * 2 ^ 24 + value)

/-- The check of one operand against its legal range (R119 step 2): outside it the command faults
BAD_OPERAND with `{field, value}`. -/
def checkOperand (f : OperandField) (legal : Bool) (value : Nat) : Run Unit :=
  if legal then .ok () else .raise .badOperand (fieldInfo (operandFieldCode f) value)

/-- The check of an instance number: 0..QMF_INST-1 (R63). -/
def checkInstance (s : State) (x : Nat) : Run Unit :=
  checkOperand .x (decide (x < s.build.qmfInst)) x

/-- `Select(MATRIX, x)` (R88): mode 1 is the fine tree, every other mode the coarse one. -/
def matrixTree (b : Build) (x : Nat) : Tree := if x = 1 then b.matF else b.matC

/-- `Select(VECTOR, x)` (R88): mode 1 is the fine tree, every other mode the coarse one. -/
def vectorTree (b : Build) (x : Nat) : Tree := if x = 1 then b.vecF else b.vecC

/-- `Select(INDEX, x)` for a channel count that passed its check, 5 or 7 (R88). -/
def indexTree (b : Build) (x : Nat) : Tree := if x = 7 then b.idx7 else b.idx5

/-- `BAND_LUT[0..7]` (R97). -/
def bandLut : List Nat := [1, 3, 5, 7, 9, 12, 15, 23]

/-- `CHAN_LUT[0..4]` (R97). -/
def chanLut : List Nat := [5, 7, 7, 5, 7]

end Sys2Proof.Machine
end

