-- ==== Sys2Proof/Machine/BitParser.lean ====
section
/-! DEFINITION. The bit parser commands (40_bitparser.md). Each body checks its operands, then reads at the
cursor POS; `commitCommand` records a raised fault over the state the command started in (R121, R128). -/

namespace Sys2Proof.Machine

/-- READ n (R73). -/
def execRead (n : Nat) (s : State) : Host.Outcome State Fault Refusal :=
  commitCommand (encode (.read n)) s <|
    (checkOperand .n (decide (n ≤ 32)) n).bind fun _ =>
    (readBits s s.pos.toNat n).bind fun v =>
      .ok (setPos (setRes s v) (s.pos.toNat + n))

/-- PEEK n (R72, R74): the cursor stays. -/
def execPeek (n : Nat) (s : State) : Host.Outcome State Fault Refusal :=
  commitCommand (encode (.peek n)) s <|
    (checkOperand .n (decide (n ≤ 32)) n).bind fun _ =>
    (readBits s s.pos.toNat n).bind fun v => .ok (setRes s v)

/-- READBIT (R75). -/
def execReadbit (s : State) : Host.Outcome State Fault Refusal :=
  commitCommand (encode .readbit) s <|
    (readBits s s.pos.toNat 1).bind fun v =>
      .ok (setPos (setRes s v) (s.pos.toNat + 1))

/-- SKIP c (R76): no bit is read, so no byte of BUF need have a value. -/
def execSkip (c : Nat) (s : State) : Host.Outcome State Fault Refusal :=
  commitCommand (encode (.skip c)) s <|
    if s.bitEnd.toNat < s.pos.toNat + c then .raise .bitUnderrun (underrunInfo s s.pos.toNat)
    else .ok (setPos s (s.pos.toNat + c))

/-- READBYTES c (R77): the underrun is checked before any byte is written. -/
def execReadbytes (c : Nat) (s : State) : Host.Outcome State Fault Refusal :=
  commitCommand (encode (.readbytes c)) s <|
    (checkOperand .c (decide (c ≤ s.build.obufBytes)) c).bind fun _ =>
    if s.bitEnd.toNat < s.pos.toNat + 8 * c then .raise .bitUnderrun (underrunInfo s s.pos.toNat)
    else
      (bytesFrom s c s.pos.toNat).bind fun vs =>
        .ok (setPos (setObuf s vs) (s.pos.toNat + 8 * c))

/-- VARLEN n (R79). -/
def execVarlen (n : Nat) (s : State) : Host.Outcome State Fault Refusal :=
  commitCommand (encode (.varlen n)) s <|
    (checkOperand .n (decide (n ≤ 32)) n).bind fun _ =>
    (varBits s s.pos.toNat n).bind fun r => .ok (setPos (setRes s r.1) r.2)

/-- The end of an escape command (R80, R81): the field and its extension are added, and a sum that would
reach 2^32 faults with the cursor after the extension. -/
def escapeSum (s : State) (v : Nat) (ext : Nat × Nat) : Run State :=
  if 2 ^ 32 ≤ v + ext.1 then .raise .varlenOverflow (BitVec.ofNat 32 ext.2)
  else .ok (setPos (setRes s (v + ext.1)) ext.2)

/-- ESCF n, m (R80): the extension is m bits, read only after an all-ones field. -/
def execEscf (n m : Nat) (s : State) : Host.Outcome State Fault Refusal :=
  commitCommand (encode (.escf n m)) s <|
    (checkOperand .n (decide (1 ≤ n ∧ n ≤ 32)) n).bind fun _ =>
    (checkOperand .m (decide (m ≤ 32)) m).bind fun _ =>
    (readBits s s.pos.toNat n).bind fun v =>
      if v = 2 ^ n - 1 then
        (readBits s (s.pos.toNat + n) m).bind fun e => escapeSum s v (e, s.pos.toNat + n + m)
      else .ok (setPos (setRes s v) (s.pos.toNat + n))

/-- ESCV n, m (R81): the extension is a variable-length integer of granularity m. -/
def execEscv (n m : Nat) (s : State) : Host.Outcome State Fault Refusal :=
  commitCommand (encode (.escv n m)) s <|
    (checkOperand .n (decide (1 ≤ n ∧ n ≤ 32)) n).bind fun _ =>
    (checkOperand .m (decide (m ≤ 32)) m).bind fun _ =>
    (readBits s s.pos.toNat n).bind fun v =>
      if v = 2 ^ n - 1 then
        (varBits s (s.pos.toNat + n) m).bind fun ext => escapeSum s v ext
      else .ok (setPos (setRes s v) (s.pos.toNat + n))

end Sys2Proof.Machine
end

