-- ==== Sys2Proof/Machine/Control.lean ====
section
/-! DEFINITION. NOP, the one command that is not a data operation (R117). -/

namespace Sys2Proof.Machine

/-- NOP (R117): no state changes; completion is the engine step's. -/
def execNop (s : State) : Host.Outcome State Fault Refusal :=
  commitCommand (encode .nop) s (.ok s)

end Sys2Proof.Machine
end

