-- ==== Sys2Proof/Machine/Huffman.lean ====
section
/-! DEFINITION. The Huffman decoder and the lookup-table commands (41_huffman.md). -/

namespace Sys2Proof.Machine

/-- The child of an entry for a bit read: 0 chooses left, 1 chooses right (R89). -/
def entryChild (e : Entry) (bit : Nat) : BitVec 16 := if bit = 0 then e.left else e.right

/-- A child value below 0 is a leaf (R87, R94 `IsLeaf`). -/
def isLeaf (c : BitVec 16) : Bool := decide (c.toInt < 0)

/-- The symbol of a leaf: the bitwise complement of its value (R87, R94). -/
def leafSymbol (c : BitVec 16) : Nat := (~~~c).toNat

/-- The loop of `HuffDecode(T)` (R89) at entry `node` and cursor `p`, with `left` of the HT_LEN steps
still allowed: the symbol and the cursor after it. An index at or beyond HT_LEN is reported before the
step limit, and both before a bit is read. -/
def huffFrom (s : State) (t : Tree) : (left node p : Nat) → Run (Nat × Nat)
  | 0, node, _ =>
    .raise (if t.len ≤ node then .huffBadIndex else .huffNoLeaf) (BitVec.ofNat 32 node)
  | left + 1, node, p =>
    match t.entries[node]? with
    | none => .raise .huffBadIndex (BitVec.ofNat 32 node)
    | some e =>
      (readBits s p 1).bind fun b =>
        if isLeaf (entryChild e b) then .ok (leafSymbol (entryChild e b), p + 1)
        else huffFrom s t left (entryChild e b).toNat (p + 1)

/-- `HuffDecode(T)` at cursor `p` (R89). -/
def huffDecode (s : State) (t : Tree) (p : Nat) : Run (Nat × Nat) := huffFrom s t t.len 0 p

/-- Decode one symbol of tree `t` at the cursor into RES (R90 to R92). -/
def huffCommand (s : State) (t : Tree) : Run State :=
  (huffDecode s t s.pos.toNat).bind fun r => .ok (setPos (setRes s r.1) r.2)

/-- HMAT x (R90). -/
def execHmat (x : Nat) (s : State) : Host.Outcome State Fault Refusal :=
  commitCommand (encode (.hmat x)) s (huffCommand s (matrixTree s.build x))

/-- HVEC x (R91). -/
def execHvec (x : Nat) (s : State) : Host.Outcome State Fault Refusal :=
  commitCommand (encode (.hvec x)) s (huffCommand s (vectorTree s.build x))

/-- HIDX x (R92): x is checked before any bit is read (R119). -/
def execHidx (x : Nat) (s : State) : Host.Outcome State Fault Refusal :=
  commitCommand (encode (.hidx x)) s <|
    (checkOperand .x (decide (x = 5 ∨ x = 7)) x).bind fun _ => huffCommand s (indexTree s.build x)

/-- LUTBANDS x (R98). -/
def execLutbands (x : Nat) (s : State) : Host.Outcome State Fault Refusal :=
  commitCommand (encode (.lutbands x)) s <|
    (checkOperand .x (decide (x ≤ 7)) x).bind fun _ => .ok (setRes s (bandLut.getD x 0))

/-- LUTCHAN x (R99): 5, 6 and 7 are well-formed but unsupported, reported under field 0x01. -/
def execLutchan (x : Nat) (s : State) : Host.Outcome State Fault Refusal :=
  commitCommand (encode (.lutchan x)) s <|
    (checkOperand .x (decide (x ≤ 7)) x).bind fun _ =>
      if 4 < x then .raise .unsupported (fieldInfo 0x01 x)
      else .ok (setRes s (chanLut.getD x 0))

end Sys2Proof.Machine
end

