-- ==== Sys2Proof/Machine/Float.lean ====
section
/-! DEFINITION. The binary32 operations `fadd`, `fsub` and `fmul` of R9 and R104: the exact result, rounded
once to nearest even; subnormals kept; infinities and NaNs as IEEE 754 says; the sign and payload of a
NaN result free (U5). A finite binary32 number is an integer multiple of 2^-149, so the exact sum is an
integer at scale 149 and the exact product an integer at scale 298. -/

namespace Sys2Proof.Machine

/-- The sign bit of a binary32 pattern. -/
def floatNeg (w : Word) : Bool := w.getLsbD 31

/-- The exponent field, bits[30:23]. -/
def floatExp (w : Word) : Nat := w.toNat / 2 ^ 23 % 2 ^ 8

/-- The fraction field, bits[22:0]. -/
def floatFrac (w : Word) : Nat := w.toNat % 2 ^ 23

/-- A NaN: exponent all ones and a nonzero fraction. -/
def floatIsNan (w : Word) : Bool := decide (floatExp w = 255 ∧ floatFrac w ≠ 0)

/-- An infinity: exponent all ones and a zero fraction. -/
def floatIsInf (w : Word) : Bool := decide (floatExp w = 255 ∧ floatFrac w = 0)

/-- The magnitude of a finite number in units of 2^-149. -/
def floatMag (w : Word) : Nat :=
  if floatExp w = 0 then floatFrac w else (2 ^ 23 + floatFrac w) * 2 ^ (floatExp w - 1)

/-- The value of a finite number in units of 2^-149. -/
def floatInt (w : Word) : Int := if floatNeg w then -(floatMag w : Int) else (floatMag w : Int)

/-- The pattern with a given sign and the given bits[30:0]. -/
def floatSigned (neg : Bool) (magnitude : Nat) : Word :=
  BitVec.ofNat 32 ((if neg then 2 ^ 31 else 0) + magnitude)

/-- Negation: the sign bit flipped. -/
def floatNegate (w : Word) : Word := w ^^^ BitVec.ofNat 32 (2 ^ 31)

/-- `mag / 2^shift` rounded to the nearest integer, ties to even (R9). -/
def roundShift (mag shift : Nat) : Nat :=
  let q := mag / 2 ^ shift
  let r := mag % 2 ^ shift
  if 2 ^ shift < 2 * r ∨ (2 * r = 2 ^ shift ∧ q % 2 = 1) then q + 1 else q

/-- How many low bits of a magnitude at scale 2^-scale the nearest binary32 drops: it keeps 24
significant bits, and no bit below 2^-149. -/
def roundingShift (mag scale : Nat) : Nat := max (Nat.log2 mag - 23) (scale - 149)

/-- The binary32 nearest to ±mag·2^-scale (ties to even, overflow to infinity; R9, R104), for a scale of
at least 149. The exponent field counts the dropped bits, and a rounding that carries into the 25th bit
carries into it. -/
def roundFloat (neg : Bool) (mag scale : Nat) : Word :=
  let shift := roundingShift mag scale
  floatSigned neg (min ((shift - (scale - 149)) * 2 ^ 23 + roundShift mag shift) (255 * 2 ^ 23))

/-- A NaN result: the sign and the nonzero fraction are those of a free value (U5, log entry 5). -/
def nanResult (op : FloatOp) (a b : Word) : Word :=
  let f := Config.freeNan op a b
  floatSigned (f.getLsbD 31) (255 * 2 ^ 23 + (1 + f.toNat % (2 ^ 23 - 1)))

/-- The sum of two numbers that are not NaN, and not infinities of opposite signs. -/
def addNumbers (a b : Word) : Word :=
  if floatIsInf a then a
  else if floatIsInf b then b
  else
    let z := floatInt a + floatInt b
    if z = 0 then floatSigned (floatNeg a && floatNeg b) 0
    else roundFloat (decide (z < 0)) z.natAbs 149

/-- `fadd(a, b)` (R9, R104). -/
def fadd (a b : Word) : Word :=
  if floatIsNan a || floatIsNan b || (floatIsInf a && floatIsInf b && (floatNeg a != floatNeg b)) then
    nanResult .add a b
  else addNumbers a b

/-- `fsub(a, b)` (R9, R104). -/
def fsub (a b : Word) : Word :=
  if floatIsNan a || floatIsNan b || (floatIsInf a && floatIsInf b && (floatNeg a == floatNeg b)) then
    nanResult .sub a b
  else addNumbers a (floatNegate b)

/-- `fmul(a, b)` (R9, R104). -/
def fmul (a b : Word) : Word :=
  let neg := floatNeg a != floatNeg b
  if floatIsNan a || floatIsNan b || (floatIsInf a && decide (floatMag b = 0)) ||
      (floatIsInf b && decide (floatMag a = 0)) then
    nanResult .mul a b
  else if floatIsInf a || floatIsInf b then floatSigned neg (255 * 2 ^ 23)
  else roundFloat neg (floatMag a * floatMag b) 298

end Sys2Proof.Machine
end

