-- ==== Sys2Proof/Machine/Qmf.lean ====
section
/-! DEFINITION. The filter-bank commands (42_qmf.md): every sum is evaluated from +0.0 in the order the
pseudocode writes it (R104). -/

namespace Sys2Proof.Machine

/-- The binary32 sum from +0.0, left to right (R104). -/
def floatSum (l : List Word) : Word := l.foldl fadd 0

/-- The grouping `u[n]` of an analysis window (R105 step 2). -/
def grouping (b : Build) (aw : List Word) (n : Nat) : Word :=
  floatSum <| (List.range b.qmfJ).map fun j =>
    fmul (elementAt aw (n + 128 * j)) (elementAt b.proto (n + 128 * j))

/-- The correlation of the grouping with row `k` of a rotation table (R105 step 3). -/
def correlate (rotation : List (List Word)) (u : List Word) (k : Nat) : Word :=
  floatSum <| (List.range 128).map fun n =>
    fmul (elementAt u n) (elementAt (rotation.getD k []) n)

/-- The analysis window after a block of samples, `ts[0]` the oldest (R105 step 1). -/
def slideWindow (b : Build) (ts aw : List Word) : List Word := slideIn b.qmfL ts.reverse aw

/-- The 128 grouping values of a window. -/
def groupingAll (b : Build) (aw : List Word) : List Word := (List.range 128).map (grouping b aw)

/-- The 64 values QFWD writes to XR or XI, for a rotation table (R105 step 3). -/
def forwardBands (b : Build) (rotation : List (List Word)) (aw : List Word) : List Word :=
  (List.range 64).map (correlate rotation (groupingAll b aw))

/-- QFWD x (R105). -/
def execQfwd (x : Nat) (s : State) : Host.Outcome State Fault Refusal :=
  commitCommand (encode (.qfwd x)) s <|
    (checkInstance s x).bind fun _ =>
      let aw := slideWindow s.build (readPorts s .ts) (instanceAt s x).aw
      let s' := setInstance s x { instanceAt s x with aw := aw }
      .ok (writePorts (writePorts s' .xr (forwardBands s.build s.build.rfRe aw)) .xi
        (forwardBands s.build s.build.rfIm aw))

/-- The newest history entry `n`: the sum over subbands of the real part of the complex product (R106
step 2). -/
def historyEntry (b : Build) (xr xi : List Word) (n : Nat) : Word :=
  floatSum <| (List.range 64).map fun k =>
    fsub (fmul (elementAt xr k) (elementAt (b.riRe.getD k []) n))
      (fmul (elementAt xi k) (elementAt (b.riIm.getD k []) n))

/-- The synthesis history after one timeslot of subband values (R106 steps 1 and 2). -/
def slideHistory (b : Build) (xr xi sh : List Word) : List Word :=
  slideIn b.qmfH ((List.range 128).map (historyEntry b xr xi)) sh

/-- Output sample `m` of a history: history blocks 256·j and 256·j + 192 with prototype blocks 128·j and
128·j + 64 (R106 step 3). -/
def outputSample (b : Build) (sh : List Word) (m : Nat) : Word :=
  floatSum <| (List.range b.qmfJ).flatMap fun j =>
    [fmul (elementAt sh (256 * j + m)) (elementAt b.proto (128 * j + m)),
      fmul (elementAt sh (256 * j + 192 + m)) (elementAt b.proto (128 * j + 64 + m))]

/-- The 64 samples QINV writes to TS (R106 step 3). -/
def inverseSamples (b : Build) (sh : List Word) : List Word :=
  (List.range 64).map (outputSample b sh)

/-- QINV x (R106): it computes whatever the inputs are (R111). -/
def execQinv (x : Nat) (s : State) : Host.Outcome State Fault Refusal :=
  commitCommand (encode (.qinv x)) s <|
    (checkInstance s x).bind fun _ =>
      let sh := slideHistory s.build (readPorts s .xr) (readPorts s .xi) (instanceAt s x).sh
      let s' := setInstance s x { instanceAt s x with sh := sh }
      .ok (writePorts s' .ts (inverseSamples s.build sh))

/-- QCLR x (R107). -/
def execQclr (x : Nat) (s : State) : Host.Outcome State Fault Refusal :=
  commitCommand (encode (.qclr x)) s <|
    (checkInstance s x).bind fun _ => .ok (setInstance s x Instance.fresh)

end Sys2Proof.Machine
end

