-- ==== Sys2Proof/Machine/Dispatch.lean ====
section
/-! DEFINITION. One arm per command: the execution of a decoded command with its fault recorded (R119,
R121), before completion. -/

namespace Sys2Proof.Machine

def exec (i : Instr) (s : State) : Host.Outcome State Fault Refusal :=
  match i with
  | .nop => Sys2Proof.Machine.execNop s
  | .read n => Sys2Proof.Machine.execRead n s
  | .peek n => Sys2Proof.Machine.execPeek n s
  | .readbit => Sys2Proof.Machine.execReadbit s
  | .skip c => Sys2Proof.Machine.execSkip c s
  | .readbytes c => Sys2Proof.Machine.execReadbytes c s
  | .varlen n => Sys2Proof.Machine.execVarlen n s
  | .escf n m => Sys2Proof.Machine.execEscf n m s
  | .escv n m => Sys2Proof.Machine.execEscv n m s
  | .hmat x => Sys2Proof.Machine.execHmat x s
  | .hvec x => Sys2Proof.Machine.execHvec x s
  | .hidx x => Sys2Proof.Machine.execHidx x s
  | .lutbands x => Sys2Proof.Machine.execLutbands x s
  | .lutchan x => Sys2Proof.Machine.execLutchan x s
  | .qfwd x => Sys2Proof.Machine.execQfwd x s
  | .qinv x => Sys2Proof.Machine.execQinv x s
  | .qclr x => Sys2Proof.Machine.execQclr x s

end Sys2Proof.Machine
end

