-- ==== Sys2Proof/Machine/Flags.lean ====
section
/-! DEFINITION. STATUS: the only flags of the block (R19, R30). No command sets one but through `record`. -/

namespace Sys2Proof.Machine

/-- STATUS.BUSY: 1 exactly when PENDING is not none (R29). -/
def busy (s : State) : Bool := s.pending.isSome

/-- STATUS as a host read returns it (R19): BUSY bit 0, FAULT bit 1, DROP bit 2, FCODE bits[15:8], every
other bit 0. -/
def statusWord (s : State) : Word :=
  BitVec.ofNat 32 ((busy s).toNat + 2 * s.fault.toNat + 4 * s.drop.toNat + 2 ^ 8 * s.fcode.toNat)

/-- A write of 1 to STATUS.FAULT, the return from a fault (R19, R132): FAULT <- 0 and FCODE <- 0; FCMD and
FINFO keep their values. -/
def clearFault (s : State) : State := { s with fault := false, fcode := 0 }

/-- A write of 1 to STATUS.DROP (R19). -/
def clearDrop (s : State) : State := { s with drop := false }

/-- A host write of `v` to STATUS (R19): bit 1 clears FAULT and FCODE, bit 2 clears DROP, every other bit
is ignored. -/
def writeStatus (v : Word) (s : State) : State :=
  let s := if v.getLsbD 1 then clearFault s else s
  if v.getLsbD 2 then clearDrop s else s

/-- A command word dropped while FAULT = 1 (R20, R131). -/
def dropCommand (s : State) : State := { s with drop := true }

end Sys2Proof.Machine
end

