-- ==== Sys2Proof/Machine/HostPort.lean ====
section
/-! DEFINITION. The host's side of the block: the register map (R13), host reads and writes with BUSY = 0
and BUSY = 1 (R16 to R26, R31, R33, R43, R45), and the host pseudo-operations (R70). -/

namespace Sys2Proof.Machine

/-- What an aligned offset of the window names (R13). `buf b` and `obuf b` are the words whose lane 0 is
byte `b`. -/
inductive Reg where
  | id | cfg | ctrl | status | cmd | res | pos | bitEnd | fcmd | finfo
  | port (f : PortFile) (k : Nat)
  | buf (b : Nat)
  | obuf (b : Nat)
  | reserved
deriving DecidableEq, Repr

/-- The registers at the low offsets (R13). -/
def registerAt : Nat → Reg
  | 0x00 => .id
  | 0x04 => .cfg
  | 0x08 => .ctrl
  | 0x0C => .status
  | 0x10 => .cmd
  | 0x14 => .res
  | 0x18 => .pos
  | 0x1C => .bitEnd
  | 0x20 => .fcmd
  | 0x24 => .finfo
  | _ => .reserved

/-- The data ports at offsets 0x100..0x3FF (R13, R26). -/
def portAt (off : Nat) : Reg :=
  if off < 0x200 then .port .ts ((off - 0x100) / 4)
  else if off < 0x300 then .port .xr ((off - 0x200) / 4)
  else .port .xi ((off - 0x300) / 4)

/-- The register map (R13): the two buffer windows end at BUF_BYTES and OBUF_BYTES (R41). -/
def regAt (b : Build) (off : Nat) : Reg :=
  if off < 0x100 then registerAt off
  else if off < 0x400 then portAt off
  else if off < 0x10000 then .reserved
  else if off < 0x20000 then
    (if off - 0x10000 < b.bufBytes then .buf (off - 0x10000) else .reserved)
  else if off - 0x20000 < b.obufBytes then .obuf (off - 0x20000) else .reserved

/-- The shape of access the spec gives a meaning: 4 bytes wide, 4-byte aligned, inside the window (R42). -/
def accessOk (off bytes : Nat) : Bool := decide (bytes = 4 ∧ off % 4 = 0 ∧ off < 0x30000)

/-- The offset of a host address, when the address lies in the window at BASE (R13, R53). -/
def offsetOfAddress (b : Build) (addr : Nat) : Option Nat :=
  if b.base ≤ addr ∧ addr < b.base + 0x30000 then some (addr - b.base) else none

/-- CFG (R17): bits[7:0] = QMF_INST - 1, bits[15:8] = QMF_J. -/
def cfgWord (b : Build) : Word := BitVec.ofNat 32 ((b.qmfInst - 1) + 2 ^ 8 * b.qmfJ)

/-- The word with lane L in bits[8L+7:8L], L = 0..3 (R43, R47). -/
def laneWord (b0 b1 b2 b3 : Byte) : Word := b3 ++ b2 ++ b1 ++ b0

/-- Lane `L` of a word: bits[8L+7:8L] (R43, R47). -/
def laneOf (w : Word) (lane : Nat) : Byte := w.extractLsb' (8 * lane) 8

/-- One lane of a read of the BUF window: 0 at or beyond BUF_BYTES (R43); a byte never written has no value
(R32). -/
def bufLane (s : State) (b : Nat) : Except Fault Byte :=
  if b < s.build.bufBytes then
    match storeGet s.buf b with
    | some v => .ok v
    | none => .error (.bufUnwritten b)
  else .ok 0

/-- One lane of a read of the OBUF window: 0 at or beyond OBUF_BYTES (R45); a byte never written has no
value (R32). -/
def obufLane (s : State) (b : Nat) : Except Fault Byte :=
  if b < s.build.obufBytes then
    match storeGet s.obuf b with
    | some v => .ok v
    | none => .error (.obufUnwritten b)
  else .ok 0

/-- The word of the four lanes from byte `b` (R43, R45). -/
def readLanes (lane : Nat → Except Fault Byte) (b : Nat) : Except Fault Word :=
  (lane b).bind fun b0 =>
  (lane (b + 1)).bind fun b1 =>
  (lane (b + 2)).bind fun b2 =>
  (lane (b + 3)).bind fun b3 => .ok (laneWord b0 b1 b2 b3)

/-- The value a host read returns when it is defined (R16 to R26, R31, R43, R45). -/
def regValue (s : State) : Reg → Except Fault Word
  | .id => .ok s.build.idValue
  | .cfg => .ok (cfgWord s.build)
  | .ctrl => .ok 0
  | .status => .ok (statusWord s)
  | .cmd => .ok 0
  | .res => .ok s.res
  | .pos => .ok s.pos
  | .bitEnd => .ok s.bitEnd
  | .fcmd => .ok s.fcmd
  | .finfo => .ok s.finfo
  | .port f k => .ok (readPort s f k)
  | .buf b => readLanes (bufLane s) b
  | .obuf b => readLanes (obufLane s) b
  | .reserved => .ok 0

/-- The registers whose read returns an unspecified value while BUSY = 1 (R33). A BUF read is not among
them (DEDUCED, log entry 9). -/
def unspecifiedWhileBusy : Reg → Bool
  | .res | .pos | .bitEnd | .fcmd | .finfo | .port _ _ | .obuf _ => true
  | .id | .cfg | .ctrl | .status | .cmd | .buf _ | .reserved => false

/-- A host read of a register: no effect on the block (R52); what it returns stands in `rdata`. While
BUSY = 1 a result reads as a free word (R33, U2, log entry 4). -/
def readReg (s : State) (r : Reg) : Host.Outcome State Fault Refusal :=
  if busy s && unspecifiedWhileBusy r then
    .next { s with rdata := Config.freeWord s.draws, draws := s.draws + 1 }
  else
    match regValue s r with
    | .ok v => .next { s with rdata := v }
    | .error f => .fault f

/-- A host write to CMD (R20): CMD_OVERRUN while BUSY = 1, dropped while FAULT = 1 (R131), else accepted. -/
def writeCmd (w : Word) (s : State) : State :=
  match s.pending with
  | some p => record .cmdOverrun w p s
  | none => if s.fault then dropCommand s else { s with pending := some w }

/-- A host write to CTRL (R18, R146): bit 0 requests a soft reset, at once when idle, after the command in
flight when BUSY = 1. -/
def writeCtrl (v : Word) (s : State) : State :=
  if v.getLsbD 0 then (if busy s then { s with srstReq := true } else softReset s) else s

/-- What END stores for a written value: `min(v, 8·BUF_BYTES)` (R22). -/
def clampEnd (b : Build) (v : Word) : Word := BitVec.ofNat 32 (min v.toNat (8 * b.bufBytes))

/-- Store the lanes `lane..lane+count-1` of a word written at byte `b` of the BUF window; lanes at or beyond
BUF_BYTES are ignored (R43). -/
def bufStore (limit : Nat) (w : Word) (b : Nat) : (count lane : Nat) → List Host.Cell → List Host.Cell
  | 0, _, m => m
  | count + 1, lane, m =>
    bufStore limit w b count (lane + 1)
      (if b + lane < limit then storePut m (b + lane) (laneOf w lane) else m)

/-- A host write to an input of the commands while BUSY = 0 (R21, R22, R26, R43); any other register
ignores it. -/
def writeInput (s : State) (v : Word) : Reg → State
  | .pos => { s with pos := v }
  | .bitEnd => { s with bitEnd := clampEnd s.build v }
  | .port f k => writePort s f k v
  | .buf b => { s with buf := bufStore s.build.bufBytes v b 4 0 s.buf }
  | .id | .cfg | .ctrl | .status | .cmd | .res | .fcmd | .finfo | .obuf _ | .reserved => s

/-- The inputs whose write while BUSY = 1 is ignored and faults BUSY_WRITE (R33). -/
def isInput : Reg → Bool
  | .pos | .bitEnd | .port _ _ | .buf _ => true
  | .id | .cfg | .ctrl | .status | .cmd | .res | .fcmd | .finfo | .obuf _ | .reserved => false

/-- A host write of `v` to register `r` at offset `off` (R18 to R22, R26, R31, R33). -/
def writeReg (s : State) (off : Nat) (v : Word) (r : Reg) : State :=
  match r with
  | .cmd => writeCmd v s
  | .status => writeStatus v s
  | .ctrl => writeCtrl v s
  | r =>
    if busy s && isInput r then record .busyWrite v (BitVec.ofNat 32 off) s
    else writeInput s v r

/-- A host read at an offset; another shape of access is refused (R42). -/
def hostRead (off bytes : Nat) (s : State) : Host.Outcome State Fault Refusal :=
  if accessOk off bytes then readReg s (regAt s.build off) else .refused (.accessShape off bytes)

/-- A host write at an offset; another shape of access is refused (R42). -/
def hostWrite (off bytes : Nat) (v : Word) (s : State) : Host.Outcome State Fault Refusal :=
  if accessOk off bytes then .next (writeReg s off v (regAt s.build off))
  else .refused (.accessShape off bytes)

/-- A hardware reset arriving as a turn (R144); while a command is pending it is not modelled (R145). -/
def arriveReset (s : State) : Host.Outcome State Fault Refusal :=
  match s.pending with
  | some _ => .refused .resetWhilePending
  | none => .next (hardReset s)

/-! ### Host pseudo-operations (R70), as turns of the script -/

/-- `w OFF, V` (R70). -/
def opWrite (off : Nat) (v : Word) : Turn := .hostWrite off 4 v

/-- `r OFF` (R70). -/
def opRead (off : Nat) : Turn := .hostRead off 4

/-- `cmd W` (R70). -/
def opCmd (w : Word) : Turn := opWrite 0x010 w

/-- `wait` (R70) for a command that the engine executes after `polls` polls of STATUS: the last poll reads
BUSY = 0. -/
def opWait (polls : Nat) : List Turn := List.replicate polls (opRead 0x00C) ++ [.engine, opRead 0x00C]

/-- `seek P` (R70). -/
def opSeek (p : Word) : Turn := opWrite 0x018 p

/-- `tell` (R70). -/
def opTell : Turn := opRead 0x018

/-- `setend E` (R70). -/
def opSetend (e : Word) : Turn := opWrite 0x01C e

/-- `clrf` (R70, R132). -/
def opClrf : Turn := opWrite 0x00C 0x6

/-- `srst` (R70, R146). -/
def opSrst : Turn := opWrite 0x008 1

end Sys2Proof.Machine
end

