-- ==== Sys2Proof/Machine/Engine.lean ====
section
/-! DEFINITION. The engine step (R121) and the choice of who moves (R6, log entry 6). -/

namespace Sys2Proof.Machine

/-- Completion after a command's execution (R120): a model stop stays a stop. -/
def completeOutcome : Host.Outcome State Fault Refusal → Host.Outcome State Fault Refusal
  | .next t => .next (complete t)
  | .fault f => .fault f
  | .refused r => .refused r

/-- The execution of a command word (R119): a word that spells no command faults ILLEGAL_CMD with
information 0 (R65). -/
def execWord (w : Word) (s : State) : Host.Outcome State Fault Refusal :=
  match decode w with
  | .ok i => exec i s
  | .error _ => commitCommand w s (.raise .illegalCmd 0)

/-- The engine step (R121): it is enabled exactly when PENDING is a word, and an idle engine does nothing
(R145). -/
def engineStep (s : State) : Host.Outcome State Fault Refusal :=
  match s.pending with
  | none => .next s
  | some w => completeOutcome (execWord w s)

/-- One turn (R6): the host reads, the host writes, the engine moves, or a hardware reset arrives. -/
def takeTurn (t : Turn) (s : State) : Host.Outcome State Fault Refusal :=
  match t with
  | .hostRead off bytes => hostRead off bytes s
  | .hostWrite off bytes v => hostWrite off bytes v s
  | .engine => engineStep s
  | .hardReset => arriveReset s

/-- One step: the next turn of the script, or the engine's when the script is empty. -/
def stepTurn (s : State) : Host.Outcome State Fault Refusal :=
  match s.script with
  | [] => engineStep s
  | t :: rest => takeTurn t { s with script := rest }

/-- The state whose very next step runs the command word `w`: `w` is the accepted word in PENDING (R20,
R29), and the engine has the next turn. -/
def placeCommand (s : State) (w : Word) : State :=
  { s with pending := some w, script := .engine :: s.script }

end Sys2Proof.Machine
end

