-- ==== Sys2Proof/Machine/Step.lean ====
section
/-! DEFINITION. One step of the machine (R6, R121), and the placing of a command for the next step. -/

namespace Sys2Proof.Machine

/-- One step of the machine: the next turn of the script, or the engine's (R6, R121). -/
def step (s : State) : Host.Outcome State Fault Refusal := stepTurn s

/-- `s` with the instruction of `nbits` bits `w` where the next step takes it: PENDING, with the engine's
turn next (R20, R29, log entry 8). -/
def State.withFetchWord (s : State) (nbits w : Nat) : State :=
  placeCommand s (BitVec.ofNat 32 (w % 2 ^ nbits))

end Sys2Proof.Machine
end

