-- ==== Sys2Proof/Safety.lean ====
section
/-! DEFINITION. What claims about the machine are stated in: the invariant a run of the block keeps, and
when a run is over and faulted (R143). -/

namespace Sys2Proof.Machine

/-- STATUS holds what R19, R123 and R124 allow: FCODE is 0 exactly when FAULT is 0, and never a reserved
code. -/
abbrev statusOk (s : State) : Prop :=
  (s.fault = false ↔ s.fcode = 0) ∧ s.fcode.toNat ≤ 9

/-- END never exceeds the buffer (R22). -/
abbrev endOk (s : State) : Prop := s.bitEnd.toNat ≤ 8 * s.build.bufBytes

/-- SRST_REQ is set only while a command is pending (R29). -/
abbrev softRequestOk (s : State) : Prop := s.srstReq = true → busy s = true

/-- The buffers and the data ports are in canonical form and inside their sizes (R26, R41). -/
abbrev storesOk (s : State) : Prop :=
  Memory.wf s.build.bufBytes s.buf ∧ Memory.wf s.build.obufBytes s.obuf ∧
  storeWf 64 s.ts ∧ storeWf 64 s.xr ∧ storeWf 64 s.xi

/-- An instance array has at most `len` elements and no trailing +0.0 (R27). -/
abbrev arrayOk (len : Nat) (a : List Word) : Prop := a.length ≤ len ∧ a.getLast? ≠ some 0

/-- There are QMF_INST instances, each with a window of QMF_L and a history of QMF_H elements (R27, R102). -/
abbrev instancesOk (s : State) : Prop :=
  s.inst.length = s.build.qmfInst ∧
  ∀ q ∈ s.inst, arrayOk s.build.qmfL q.aw ∧ arrayOk s.build.qmfH q.sh

/-- The invariant of the block. -/
abbrev Inv (s : State) : Prop :=
  s.build.Legal ∧ statusOk s ∧ endOk s ∧ softRequestOk s ∧ storesOk s ∧ instancesOk s

/-- A run is over when the host's program has finished and no command is pending (R143). -/
abbrev runOver (s : State) : Prop := s.script = [] ∧ s.pending = none

/-- A run that ends with FAULT = 1 or DROP = 1 is a faulted run (R143). -/
abbrev runFaulted (s : State) : Prop := runOver s ∧ (s.fault = true ∨ s.drop = true)

/-- The premise a claim about a run takes: it is over with FAULT = 0 and DROP = 0 (R143). -/
abbrev runClean (s : State) : Prop := runOver s ∧ s.fault = false ∧ s.drop = false

end Sys2Proof.Machine
end

