-- ==== Sys2Proof/Certificates/Slice0/Obligations.lean ====
section
/-! DEFINITION. The statements for the provers, and the words they are said in: the stream as bits, the
walk of a tree, the code of a variable-length integer and the sums of the filter bank, each written from
the spec's text and not from the model's operations. -/

namespace Sys2Proof.Claims

open Sys2Proof.Machine

/-- The outcomes of a step. -/
abbrev Out := Host.Outcome State Fault Refusal

/-! ### Turns -/

/-- `s` once the turn at the head of its script has been taken up. -/
def afterTurn (s : State) (rest : List Turn) : State := { s with script := rest }

/-- The engine has the next turn (R6, R121; log entry 6): no turn is left, or an engine turn comes next. The
engine then moves in state `u`. -/
def engineTurn (s u : State) : Prop :=
  (s.script = [] ∧ u = s) ∨ ∃ rest, s.script = .engine :: rest ∧ u = afterTurn s rest

/-! ### The stream -/

/-- Bit address `a` of BUF, most significant bit first (R46); a byte never written counts as 0 here, and
`streamWritten` says where none is. -/
def streamBit (s : State) (a : Nat) : Bool := ((storeGet s.buf (a / 8)).getD 0).getLsbD (7 - a % 8)

/-- Every byte that holds one of the `n` bits from address `p` has been written (R32). -/
def streamWritten (s : State) (p n : Nat) : Prop :=
  ∀ a, p ≤ a → a < p + n → (storeGet s.buf (a / 8)).isSome = true

/-- The `n` bits from address `p` as an unsigned number, the first bit the most significant (R71). -/
def streamValue (s : State) (p : Nat) : Nat → Nat
  | 0 => 0
  | n + 1 => 2 * streamValue s p n + (streamBit s (p + n)).toNat

/-- Every byte with a bit before END has been written (R32). -/
def dataWritten (s : State) : Prop :=
  ∀ a, a < s.bitEnd.toNat → (storeGet s.buf (a / 8)).isSome = true

/-- The stream holds the bits `bs` from address `p`. -/
def streamHolds (s : State) : Nat → List Bool → Prop
  | _, [] => True
  | p, b :: bs => (storeGet s.buf (p / 8)).isSome = true ∧ streamBit s p = b ∧ streamHolds s (p + 1) bs

/-- POS as a number. -/
abbrev cursor (s : State) : Nat := s.pos.toNat

/-- END as a number. -/
abbrev endOf (s : State) : Nat := s.bitEnd.toNat

/-- `s` with RES and POS as a command writes them. -/
def withResult (s : State) (v p : Nat) : State :=
  { s with res := BitVec.ofNat 32 v, pos := BitVec.ofNat 32 p }

/-- The command ends in fault `code` with information `info`: the start state with the fault recorded
under the command's word (R125, R128). -/
def faults (i : Instr) (s : State) (code : FaultCode) (info : Nat) : Prop :=
  exec i s = .next (record code (encode i) (BitVec.ofNat 32 info) s)

/-- `{field, value}` (R127). -/
abbrev fieldValue (field value : Nat) : Nat := field * 2 ^ 24 + value

/-- The command's word is `w`: it is what the encoder gives, and it decodes to the command (R61, R62). -/
def spelled (i : Instr) (w : Nat) : Prop :=
  encode i = BitVec.ofNat 32 w ∧ decode (BitVec.ofNat 32 w) = .ok i

/-! ### Variable-length integers -/

/-- From cursor `p` the stream holds the groups `gs` of `n` bits, each followed by a continuation bit 1. -/
def groupsContinue (s : State) (n : Nat) : Nat → List Nat → Prop
  | _, [] => True
  | p, g :: gs =>
    streamWritten s p (n + 1) ∧ p + n + 1 ≤ endOf s ∧ streamValue s p n = g ∧
      streamBit s (p + n) = true ∧ groupsContinue s n (p + n + 1) gs

/-- The accumulator of R78 after the groups `gs`, each continued. -/
def accumulate (n : Nat) : Nat → List Nat → Nat
  | v, [] => v
  | v, g :: gs => accumulate n ((v + g) * 2 ^ n + 2 ^ n) gs

/-- The lower end of the values of codes with `k` groups: `S_1 = 0`, `S_(k+1) = S_k + 2^(k·n)` (R82). -/
def codeStart (n : Nat) : Nat → Nat
  | 0 => 0
  | 1 => 0
  | k + 2 => codeStart n (k + 1) + 2 ^ ((k + 1) * n)

/-! ### Trees -/

/-- The child a bit chooses (R89). -/
def childOf (e : Entry) (b : Bool) : BitVec 16 := if b then e.right else e.left

/-- The internal node that the bits lead to, when they meet no leaf. -/
def walkNode (t : Tree) : Nat → List Bool → Option Nat
  | node, [] => some node
  | node, b :: bs =>
    match t.entries[node]? with
    | none => none
    | some e => if (childOf e b).toInt < 0 then none else walkNode t (childOf e b).toInt.toNat bs

/-- The leaf value that the bits lead to, when they end at one. -/
def walkLeaf (t : Tree) : Nat → List Bool → Option Int
  | _, [] => none
  | node, b :: bs =>
    match t.entries[node]? with
    | none => none
    | some e =>
      if (childOf e b).toInt < 0 then (if bs = [] then some (childOf e b).toInt else none)
      else walkLeaf t (childOf e b).toInt.toNat bs

/-- The tree a decoding command uses (R88). -/
def treeOf (b : Build) : Instr → Option Tree
  | .hmat x => some (if x = 1 then b.matF else b.matC)
  | .hvec x => some (if x = 1 then b.vecF else b.vecC)
  | .hidx x => if x = 7 then some b.idx7 else if x = 5 then some b.idx5 else none
  | .nop | .read _ | .peek _ | .readbit | .skip _ | .readbytes _ | .varlen _ | .escf _ _
  | .escv _ _ | .lutbands _ | .lutchan _ | .qfwd _ | .qinv _ | .qclr _ => none

/-- The largest number of entries on a walk from entry `e`, looking `fuel` entries deep (R93 `depth`). -/
def depthFrom (t : Tree) : Nat → Nat → Nat
  | 0, _ => 0
  | fuel + 1, e =>
    1 + ((t.children e).map fun c => if c < 0 then 0 else depthFrom t fuel c.toNat).foldr max 0

/-- `depth(T)` (R93). -/
def treeDepth (t : Tree) : Nat := depthFrom t t.len 0

/-! ### The filter bank -/

/-- `f 0 + f 1 + … + f (n-1)` in binary32, from +0.0 and in that order (R104). -/
def sumTo (f : Nat → Word) : Nat → Word
  | 0 => 0
  | n + 1 => fadd (sumTo f n) (f n)

/-- Element `n` of the analysis window that QFWD computes with (R105 step 1). -/
def windowAfter (s : State) (x n : Nat) : Word :=
  if n < 64 then readPort s .ts (63 - n) else elementAt (instanceAt s x).aw (n - 64)

/-- `u[n]` (R105 step 2). -/
def groupingAfter (s : State) (x n : Nat) : Word :=
  sumTo (fun j => fmul (windowAfter s x (n + 128 * j)) (elementAt s.build.proto (n + 128 * j)))
    s.build.qmfJ

/-- What QFWD writes to subband `k` for one of the two rotation tables (R105 step 3). -/
def bandAfter (s : State) (x : Nat) (rotation : List (List Word)) (k : Nat) : Word :=
  sumTo (fun n => fmul (groupingAfter s x n) (elementAt (rotation.getD k []) n)) 128

/-- Element `n` of the synthesis history that QINV computes with (R106 steps 1 and 2). -/
def historyAfter (s : State) (x n : Nat) : Word :=
  if n < 128 then
    sumTo (fun k => fsub (fmul (readPort s .xr k) (elementAt (s.build.riRe.getD k []) n))
      (fmul (readPort s .xi k) (elementAt (s.build.riIm.getD k []) n))) 64
  else elementAt (instanceAt s x).sh (n - 128)

/-- The accumulator of output sample `m` after `j` blocks (R106 step 3). -/
def sampleAfter (s : State) (x m : Nat) : Nat → Word
  | 0 => 0
  | j + 1 =>
    fadd (fadd (sampleAfter s x m j)
        (fmul (historyAfter s x (256 * j + m)) (elementAt s.build.proto (128 * j + m))))
      (fmul (historyAfter s x (256 * j + 192 + m)) (elementAt s.build.proto (128 * j + 64 + m)))

/-- +0.0 or -0.0. -/
def zeroWord (w : Word) : Prop := w = 0x00000000#32 ∨ w = 0x80000000#32

/-- Instance `x` exists, and there are as many instances as the build says. -/
def hasInstance (s : State) (x : Nat) : Prop := x < s.build.qmfInst ∧ s.inst.length = s.build.qmfInst

/-- The states after a sequence of QFWD x commands, each fed one block of 64 samples through TS. -/
def feedForward (x : Nat) : List (List Word) → State → Option State
  | [], s => some s
  | block :: rest, s =>
    match exec (.qfwd x) (writePorts s .ts block) with
    | .next t => feedForward x rest t
    | .fault _ => none
    | .refused _ => none

/-- The states after a sequence of QINV x commands, each fed 64 complex values through XR and XI. -/
def feedInverse (x : Nat) : List (List Word × List Word) → State → Option State
  | [], s => some s
  | slot :: rest, s =>
    match exec (.qinv x) (writePorts (writePorts s .xr slot.1) .xi slot.2) with
    | .next t => feedInverse x rest t
    | .fault _ => none
    | .refused _ => none

/-- The instance a filter-bank command works on (R105 to R107). -/
def filterInstance : Instr → Option Nat
  | .qfwd x | .qinv x | .qclr x => some x
  | .nop | .read _ | .peek _ | .readbit | .skip _ | .readbytes _ | .varlen _ | .escf _ _
  | .escv _ _ | .hmat _ | .hvec _ | .hidx _ | .lutbands _ | .lutchan _ => none

/-- `s` with the inputs of a filter-bank command loaded: TS from `p` for QFWD, XR from `p` and XI from `q`
for QINV (R114). -/
def loadInputs (i : Instr) (p q : List Word) (s : State) : State :=
  match i with
  | .qfwd _ => writePorts s .ts p
  | .qinv _ => writePorts (writePorts s .xr p) .xi q
  | .nop | .read _ | .peek _ | .readbit | .skip _ | .readbytes _ | .varlen _ | .escf _ _
  | .escv _ _ | .hmat _ | .hvec _ | .hidx _ | .lutbands _ | .lutchan _ | .qclr _ => s

/-- `s` and `t` hold the same results of a filter-bank command: XR and XI for QFWD, TS for QINV (R114). -/
def sameResults (i : Instr) (s t : State) : Prop :=
  match i with
  | .qfwd _ => ∀ k, k < 64 → readPort s .xr k = readPort t .xr k ∧ readPort s .xi k = readPort t .xi k
  | .qinv _ => ∀ k, k < 64 → readPort s .ts k = readPort t .ts k
  | .nop | .read _ | .peek _ | .readbit | .skip _ | .readbytes _ | .varlen _ | .escf _ _
  | .escv _ _ | .hmat _ | .hvec _ | .hidx _ | .lutbands _ | .lutchan _ | .qclr _ => True

/-! ### Frames -/

/-- What no command writes: END, DROP, PENDING, SRST_REQ, the build, every byte of BUF, and the model's own
fields. -/
def commandFrame (s t : State) : Prop :=
  t.bitEnd = s.bitEnd ∧ t.drop = s.drop ∧ t.pending = s.pending ∧ t.srstReq = s.srstReq ∧
  t.build = s.build ∧ (∀ b, storeGet t.buf b = storeGet s.buf b) ∧
  t.script = s.script ∧ t.rdata = s.rdata ∧ t.draws = s.draws ∧ t.resets = s.resets

/-- The fault registers are unchanged, or the whole effect is that one fault was recorded (R128, R130). -/
def faultFrame (i : Instr) (s t : State) : Prop :=
  (t.fault = s.fault ∧ t.fcode = s.fcode ∧ t.fcmd = s.fcmd ∧ t.finfo = s.finfo) ∨
  ∃ code info, t = record code (encode i) info s

/-- Every data port reads as before. -/
def portsFrame (s t : State) : Prop := ∀ f k, readPort t f k = readPort s f k

/-- Every byte of OBUF is as before. -/
def obufFrame (s t : State) : Prop := ∀ b, storeGet t.obuf b = storeGet s.obuf b

/-- The commands whose only destinations are RES and POS (R151, R23). -/
def scalarCommand : Instr → Bool
  | .nop | .read _ | .peek _ | .readbit | .skip _ | .varlen _ | .escf _ _ | .escv _ _ | .hmat _
  | .hvec _ | .hidx _ | .lutbands _ | .lutchan _ => true
  | .readbytes _ | .qfwd _ | .qinv _ | .qclr _ => false

/-- The commands that leave POS alone (R74, R98, R99, R104, R117). -/
def keepsCursor : Instr → Bool
  | .nop | .peek _ | .lutbands _ | .lutchan _ | .qfwd _ | .qinv _ | .qclr _ => true
  | .read _ | .readbit | .skip _ | .readbytes _ | .varlen _ | .escf _ _ | .escv _ _ | .hmat _
  | .hvec _ | .hidx _ => false

/-- The commands that leave RES alone (R23). -/
def keepsResult : Instr → Bool
  | .nop | .skip _ | .readbytes _ | .qfwd _ | .qinv _ | .qclr _ => true
  | .read _ | .peek _ | .readbit | .varlen _ | .escf _ _ | .escv _ _ | .hmat _ | .hvec _
  | .hidx _ | .lutbands _ | .lutchan _ => false

/-! ### The window -/

/-- A 4-byte-aligned offset of the window that R13 calls reserved. -/
def reservedOffset (b : Build) (off : Nat) : Prop :=
  off % 4 = 0 ∧ ((0x28 ≤ off ∧ off < 0x100) ∨ (0x400 ≤ off ∧ off < 0x10000) ∨
    (0x10000 + b.bufBytes ≤ off ∧ off < 0x20000) ∨ (0x20000 + b.obufBytes ≤ off ∧ off < 0x30000))

/-- An offset of a read-only register (R31). -/
def readOnlyOffset (b : Build) (off : Nat) : Prop :=
  off = 0x00 ∨ off = 0x04 ∨ off = 0x14 ∨ off = 0x20 ∨ off = 0x24 ∨
    (off % 4 = 0 ∧ 0x20000 ≤ off ∧ off < 0x20000 + b.obufBytes)

/-- An offset whose read while BUSY = 1 is unspecified (R33). -/
def resultOffset (b : Build) (off : Nat) : Prop :=
  off = 0x14 ∨ off = 0x18 ∨ off = 0x1C ∨ off = 0x20 ∨ off = 0x24 ∨
    (off % 4 = 0 ∧ 0x100 ≤ off ∧ off < 0x400) ∨
    (off % 4 = 0 ∧ 0x20000 ≤ off ∧ off < 0x20000 + b.obufBytes)

/-- An offset whose write while BUSY = 1 faults BUSY_WRITE (R33). -/
def inputOffset (b : Build) (off : Nat) : Prop :=
  off = 0x18 ∨ off = 0x1C ∨ (off % 4 = 0 ∧ 0x100 ≤ off ∧ off < 0x400) ∨
    (off % 4 = 0 ∧ 0x10000 ≤ off ∧ off < 0x10000 + b.bufBytes)

/-- The offset of element `k` of a data-port file (R13). -/
def portOffset (f : PortFile) (k : Nat) : Nat :=
  match f with
  | .ts => 0x100 + 4 * k
  | .xr => 0x200 + 4 * k
  | .xi => 0x300 + 4 * k

/-- Two states agree on every bit of the stream before END, on which of its bytes are written, and on
everything that is not BUF. -/
def sameStream (s t : State) : Prop :=
  { t with buf := s.buf } = s ∧
  ∀ a, a < endOf s → streamBit t a = streamBit s a ∧
    (storeGet t.buf (a / 8)).isSome = (storeGet s.buf (a / 8)).isSome

/-- The outcome with BUF as in another state. -/
def withBufOf (s : State) : Out → Out
  | .next t => .next { t with buf := s.buf }
  | .fault f => .fault f
  | .refused r => .refused r

/-- No finite binary32 number is nearer to `exact / scale`, in units of 2^-149, than `r` (R9). -/
def nearest (r : Word) (exact : Int) (scale : Int) : Prop :=
  ∀ w : Word, finiteWord w = true →
    (floatInt r * scale - exact).natAbs ≤ (floatInt w * scale - exact).natAbs

/-- Where another finite number is as near to `exact / scale` as `r` is, the last bit of `r` is 0: ties go
to even (R9). -/
def tiesToEven (r : Word) (exact : Int) (scale : Int) : Prop :=
  ∀ w : Word, finiteWord w = true → floatInt w ≠ floatInt r →
    (floatInt w * scale - exact).natAbs = (floatInt r * scale - exact).natAbs → r.getLsbD 0 = false

/-- `r` is `exact / scale`, in units of 2^-149, rounded to nearest even (R9): an infinity from half a unit
above the largest finite number on, else finite, nearest, and even on a tie; with the sign of a nonzero
exact value. -/
def roundsTo (r : Word) (exact : Int) (scale : Nat) : Prop :=
  (exact ≠ 0 → r.getLsbD 31 = decide (exact < 0)) ∧
  ((2 ^ 25 - 1) * 2 ^ 252 * scale ≤ exact.natAbs → r = 0x7F800000#32 ∨ r = 0xFF800000#32) ∧
  (exact.natAbs < (2 ^ 25 - 1) * 2 ^ 252 * scale →
    finiteWord r = true ∧ nearest r exact scale ∧ tiesToEven r exact scale)

/-- What a host read of the BUF word at byte 4·j answers (R43): the word of its lanes, 0 in a lane at or
beyond BUF_BYTES; a stop where a lane has never been written. -/
def readsBufWord (s : State) (rest : List Turn) (j : Nat) : Prop :=
  ((∀ b, 4 * j ≤ b → b < 4 * j + 4 → b < s.build.bufBytes → (storeGet s.buf b).isSome = true) →
    ∃ v : Word, step s = .next { afterTurn s rest with rdata := v } ∧
      ∀ lane, lane < 4 → v.extractLsb' (8 * lane) 8 =
        if 4 * j + lane < s.build.bufBytes then (storeGet s.buf (4 * j + lane)).getD 0 else 0) ∧
  ∀ b, 4 * j ≤ b → b < 4 * j + 4 → b < s.build.bufBytes → storeGet s.buf b = none →
    ∃ b', step s = .fault (.bufUnwritten b') ∧ storeGet s.buf b' = none

end Sys2Proof.Claims

open Sys2Proof Sys2Proof.Machine Sys2Proof.Claims

/-! ### Encoding -/

/-- Every command with fitting operands is read back from its word, every operand at every value its field
admits (R60 to R64). -/
def Obligations.DecodeEncodeEveryCommand : Prop :=
  ∀ i : Instr, i.wellFormed = true → decode (encode i) = .ok i

/-- A word that decodes is the encoding of what it decodes to, so the word of a fault record (FCMD) is the
word that was pending (R60 to R64; the model's FCMD word is `encode`, log entry 12). -/
def Obligations.EncodeDecodeEveryWord : Prop :=
  ∀ (w : Word) (i : Instr), decode w = .ok i → i.wellFormed = true ∧ encode i = w

/-- A word spells no command exactly when its opcode is not in the map or a reserved-zero bit of its format
is set (R64, R65). -/
def Obligations.ReservedWordsRejected : Prop :=
  ∀ w : Word, (∃ r, decode w = .error r) ↔
    (bits w 31 24 ∉ [0x00, 0x10, 0x11, 0x12, 0x13, 0x14, 0x15, 0x16, 0x17, 0x20, 0x21, 0x22, 0x28, 0x29,
        0x30, 0x31, 0x32] ∨
      (bits w 31 24 ∈ [0x00, 0x12] ∧ bits w 23 0 ≠ 0) ∨
      (bits w 31 24 ∈ [0x10, 0x11, 0x15] ∧ bits w 23 6 ≠ 0) ∨
      (bits w 31 24 ∈ [0x16, 0x17] ∧ bits w 23 12 ≠ 0) ∨
      (bits w 31 24 ∈ [0x20, 0x21, 0x22, 0x28, 0x29, 0x30, 0x31, 0x32] ∧ bits w 23 8 ≠ 0))

/-- A few words of 95_test_vectors.md decode to the commands they stand for. -/
def Obligations.SampleWordsDecode : Prop :=
  decode 0x10000010#32 = .ok (.read 16) ∧ decode 0x13FFFFFF#32 = .ok (.skip 16777215) ∧
  decode 0x160001C5#32 = .ok (.escf 5 7) ∧ decode 0x22000005#32 = .ok (.hidx 5) ∧
  decode 0x29000003#32 = .ok (.lutchan 3) ∧ decode 0x31000001#32 = .ok (.qinv 1) ∧
  decode 0x16001045#32 = .error (.reservedBits 0x16) ∧ decode 0xFF000000#32 = .error (.unknownOpcode 0xFF)

/-! ### The engine step -/

/-- A step runs the decoded command: with the engine's turn next and a pending word that decodes, the step
is `exec` of that command followed by completion (R119, R120, R121). -/
def Obligations.StepRunsDecodedCommand : Prop :=
  ∀ (s u : State) (w : Word) (i : Instr), engineTurn s u → s.pending = some w → decode w = .ok i →
    step s = completeOutcome (exec i u)

/-- A pending word that spells no command faults ILLEGAL_CMD with information 0, executes nothing and
completes (R65, R119 step 1, R120). -/
def Obligations.IllegalWordFaults : Prop :=
  ∀ (s u : State) (w : Word) (r : DecodeReject), engineTurn s u → s.pending = some w →
    decode w = .error r → step s = .next (complete (record .illegalCmd w 0 u))

/-- The engine step is enabled exactly when PENDING is a word: an idle engine only takes up its turn (R121,
R145). -/
def Obligations.IdleEngineDoesNothing : Prop :=
  ∀ s u : State, engineTurn s u → s.pending = none → step s = .next u

/-- Every command completes (R120, R121): the engine's step is never refused; its next state has PENDING =
none, BUSY = 0 and no soft-reset request; and with every byte before END written there is a next state,
whatever the pending word is. -/
def Obligations.EveryCommandCompletes : Prop :=
  ∀ (s u : State) (w : Word), engineTurn s u → s.pending = some w →
    (∀ r, step s ≠ .refused r) ∧
    (∀ t, step s = .next t → t.pending = none ∧ busy t = false ∧ t.srstReq = false) ∧
    (dataWritten s → ∃ t, step s = .next t)

/-- Completion without and with a soft-reset request (R120, R146): the request resets the registers and the
instances after the command, while OBUF and the data ports keep what the command wrote. -/
def Obligations.CompletionAppliesSoftReset : Prop :=
  ∀ (s u t : State) (i : Instr) (w : Word), engineTurn s u → s.pending = some w → decode w = .ok i →
    exec i u = .next t →
    (s.srstReq = false → step s = .next { t with pending := none }) ∧
    (s.srstReq = true → step s = .next
      { t with
        pos := 0, bitEnd := 0, res := 0, fcmd := 0, finfo := 0
        fault := false, drop := false, fcode := 0, pending := none, srstReq := false
        inst := List.replicate s.build.qmfInst { aw := [], sh := [] } })

/-- A host that waits (R70, R121, D39): with a command pending that the engine executes after `k` polls of
STATUS, the wait ends with a poll that reads BUSY = 0, whatever the command is; or the model stops, and
then some byte before END has never been written. -/
def Obligations.WaitReadsIdle : Prop :=
  ∀ (k : Nat) (s : State) (w : Word) (rest : List Turn), s.pending = some w →
    s.script = opWait k ++ rest →
    (∃ t : State, Host.Core.run Sys2Proof.core (k + 2) s = .next t ∧ t.rdata.getLsbD 0 = false ∧
      t.pending = none ∧ t.script = rest) ∨
    ((∃ f, Host.Core.run Sys2Proof.core (k + 2) s = .fault f) ∧ ¬dataWritten s)

/-! ### Faults -/

/-- `Record` (R124, R125): the first fault stands; and the code each fault records in FCODE (R123). -/
def Obligations.FirstFaultStands : Prop :=
  (∀ (code : FaultCode) (w info : Word) (s : State),
    (s.fault = true → record code w info s = s) ∧
    (s.fault = false →
      record code w info s =
        { s with fault := true, fcode := faultCodeBits code, fcmd := w, finfo := info })) ∧
  faultCodeBits .illegalCmd = 0x01#8 ∧ faultCodeBits .badOperand = 0x02#8 ∧
  faultCodeBits .bitUnderrun = 0x03#8 ∧ faultCodeBits .varlenOverflow = 0x04#8 ∧
  faultCodeBits .huffBadIndex = 0x05#8 ∧ faultCodeBits .huffNoLeaf = 0x06#8 ∧
  faultCodeBits .unsupported = 0x07#8 ∧ faultCodeBits .cmdOverrun = 0x08#8 ∧
  faultCodeBits .busyWrite = 0x09#8

/-- Faults are precise (R128): a command that raises FAULT changes nothing but FAULT, FCODE, FCMD and
FINFO; the same command changes nothing at all when FAULT was 1 before it, whatever fault stands there; and
a host write that raises FAULT changes nothing but those four (a host read raises none, R33). -/
def Obligations.FaultsArePrecise : Prop :=
  (∀ (i : Instr) (s t : State), exec i s = .next t → s.fault = false → t.fault = true →
    { t with fault := s.fault, fcode := s.fcode, fcmd := s.fcmd, finfo := s.finfo } = s ∧
    ∀ (c : BitVec 8) (w info : Word),
      exec i { s with fault := true, fcode := c, fcmd := w, finfo := info } =
        .next { s with fault := true, fcode := c, fcmd := w, finfo := info }) ∧
  ∀ (s t : State) (rest : List Turn) (off bytes : Nat) (v : Word),
    s.script = .hostWrite off bytes v :: rest → step s = .next t → s.fault = false → t.fault = true →
    { t with fault := s.fault, fcode := s.fcode, fcmd := s.fcmd, finfo := s.finfo } = afterTurn s rest

/-- The frame of the commands whose destinations are RES and POS: OBUF, the data ports and every instance
are unchanged, POS by those that keep the cursor, RES by those that keep the result (R23, R151). -/
def Obligations.ScalarCommandsFrame : Prop :=
  ∀ (i : Instr) (s t : State), scalarCommand i = true → exec i s = .next t →
    commandFrame s t ∧ faultFrame i s t ∧ obufFrame s t ∧ portsFrame s t ∧ t.inst = s.inst ∧
    (keepsCursor i = true → t.pos = s.pos) ∧ (keepsResult i = true → t.res = s.res)

/-- The frame of READBYTES c: RES, the data ports, the instances and OBUF from index c on (R77, R151). -/
def Obligations.ReadbytesFrame : Prop :=
  ∀ (c : Nat) (s t : State), exec (.readbytes c) s = .next t →
    commandFrame s t ∧ faultFrame (.readbytes c) s t ∧ portsFrame s t ∧ t.inst = s.inst ∧
    t.res = s.res ∧ ∀ b, c ≤ b → storeGet t.obuf b = storeGet s.obuf b

/-- The frame of the filter-bank commands: RES, POS and OBUF; every instance but x; and of instance x the
history for QFWD, the window for QINV; TS for QFWD, XR and XI for QINV, all ports for QCLR (R104 to R108,
R151). -/
def Obligations.FilterCommandsFrame : Prop :=
  ∀ (x : Nat) (s t : State),
    (exec (.qfwd x) s = .next t →
      commandFrame s t ∧ faultFrame (.qfwd x) s t ∧ obufFrame s t ∧ t.res = s.res ∧ t.pos = s.pos ∧
      (∀ k, readPort t .ts k = readPort s .ts k) ∧ (instanceAt t x).sh = (instanceAt s x).sh ∧
      ∀ y, y ≠ x → instanceAt t y = instanceAt s y) ∧
    (exec (.qinv x) s = .next t →
      commandFrame s t ∧ faultFrame (.qinv x) s t ∧ obufFrame s t ∧ t.res = s.res ∧ t.pos = s.pos ∧
      (∀ k, readPort t .xr k = readPort s .xr k) ∧ (∀ k, readPort t .xi k = readPort s .xi k) ∧
      (instanceAt t x).aw = (instanceAt s x).aw ∧ ∀ y, y ≠ x → instanceAt t y = instanceAt s y) ∧
    (exec (.qclr x) s = .next t →
      commandFrame s t ∧ faultFrame (.qclr x) s t ∧ obufFrame s t ∧ t.res = s.res ∧ t.pos = s.pos ∧
      portsFrame s t ∧ ∀ y, y ≠ x → instanceAt t y = instanceAt s y)

/-! ### Bit parser -/

/-- READ n (R71, R73): its word, its faults and its result. The word a fault records is `encode` of the
command, which is the word given here (log entry 12). -/
def Obligations.ReadRule : Prop :=
  (∀ n, n < 64 → spelled (.read n) (0x10000000 + n)) ∧
  ∀ (n : Nat) (s : State),
    (32 < n → faults (.read n) s .badOperand (fieldValue 0x01 n)) ∧
    (n ≤ 32 → endOf s < cursor s + n →
      faults (.read n) s .bitUnderrun (max (cursor s) (endOf s))) ∧
    (n ≤ 32 → cursor s + n ≤ endOf s → streamWritten s (cursor s) n →
      exec (.read n) s = .next (withResult s (streamValue s (cursor s) n) (cursor s + n)))

/-- PEEK n (R72, R74): what READ n would return and raise, with POS unchanged. -/
def Obligations.PeekRule : Prop :=
  (∀ n, n < 64 → spelled (.peek n) (0x11000000 + n)) ∧
  ∀ (n : Nat) (s : State),
    (32 < n → faults (.peek n) s .badOperand (fieldValue 0x01 n)) ∧
    (n ≤ 32 → endOf s < cursor s + n →
      faults (.peek n) s .bitUnderrun (max (cursor s) (endOf s))) ∧
    (n ≤ 32 → cursor s + n ≤ endOf s → streamWritten s (cursor s) n →
      exec (.peek n) s = .next { s with res := BitVec.ofNat 32 (streamValue s (cursor s) n) })

/-- READBIT (R75). -/
def Obligations.ReadbitRule : Prop :=
  spelled .readbit 0x12000000 ∧
  ∀ s : State,
    (endOf s ≤ cursor s → faults .readbit s .bitUnderrun (max (cursor s) (endOf s))) ∧
    (cursor s < endOf s → streamWritten s (cursor s) 1 →
      exec .readbit s =
        .next (withResult s (streamBit s (cursor s)).toNat (cursor s + 1)))

/-- SKIP c (R76): no byte need have been written. -/
def Obligations.SkipRule : Prop :=
  (∀ c, c < 2 ^ 24 → spelled (.skip c) (0x13000000 + c)) ∧
  ∀ (c : Nat) (s : State),
    (endOf s < cursor s + c → faults (.skip c) s .bitUnderrun (max (cursor s) (endOf s))) ∧
    (cursor s + c ≤ endOf s →
      exec (.skip c) s = .next { s with pos := BitVec.ofNat 32 (cursor s + c) })

/-- READBYTES c (R77). -/
def Obligations.ReadbytesRule : Prop :=
  (∀ c, c < 2 ^ 24 → spelled (.readbytes c) (0x14000000 + c)) ∧
  ∀ (c : Nat) (s : State),
    (s.build.obufBytes < c → faults (.readbytes c) s .badOperand (fieldValue 0x03 c)) ∧
    (c ≤ s.build.obufBytes → endOf s < cursor s + 8 * c →
      faults (.readbytes c) s .bitUnderrun (max (cursor s) (endOf s))) ∧
    (c ≤ s.build.obufBytes → cursor s + 8 * c ≤ endOf s → streamWritten s (cursor s) (8 * c) →
      ∃ m, exec (.readbytes c) s =
          .next { s with obuf := m, pos := BitVec.ofNat 32 (cursor s + 8 * c) } ∧
        ∀ b, storeGet m b =
          if b < c then some (BitVec.ofNat 8 (streamValue s (cursor s + 8 * b) 8))
          else storeGet s.obuf b)

/-- VARLEN n (R78, R79), for a stream that holds the groups `gs`, each continued, from POS on, with an
accumulator below 2^32 so far: the next group ends the code, or lies beyond END, or overflows. -/
def Obligations.VarlenRule : Prop :=
  (∀ n, n < 64 → spelled (.varlen n) (0x15000000 + n)) ∧
  ∀ (n : Nat) (s : State),
    (32 < n → faults (.varlen n) s .badOperand (fieldValue 0x01 n)) ∧
    ∀ gs : List Nat, n ≤ 32 → groupsContinue s n (cursor s) gs → accumulate n 0 gs < 2 ^ 32 →
      let q := cursor s + gs.length * (n + 1)
      let v := accumulate n 0 gs + streamValue s q n
      (endOf s < q + n + 1 → (q + n ≤ endOf s → streamWritten s q n) →
        faults (.varlen n) s .bitUnderrun (max q (endOf s))) ∧
      (q + n + 1 ≤ endOf s → streamWritten s q (n + 1) → streamBit s (q + n) = false →
        exec (.varlen n) s = .next (withResult s v (q + n + 1))) ∧
      (q + n + 1 ≤ endOf s → streamWritten s q (n + 1) → streamBit s (q + n) = true →
        2 ^ 32 ≤ v * 2 ^ n + 2 ^ n →
        faults (.varlen n) s .varlenOverflow (q + n + 1))

/-- The values of codes (the law of 40_bitparser.md "Laws"): a code of k groups of granularity n >= 1 gives
a value in `[S_k, S_(k+1) - 1]` and moves POS by k·(n+1); and two streams whose codes give the same RES hold
the same groups. -/
def Obligations.VarlenCodesAreUnique : Prop :=
  ∀ (n : Nat) (s : State) (gs : List Nat), 1 ≤ n → n ≤ 32 → groupsContinue s n (cursor s) gs →
    cursor s + gs.length * (n + 1) + n + 1 ≤ endOf s →
    streamWritten s (cursor s + gs.length * (n + 1)) (n + 1) →
    streamBit s (cursor s + gs.length * (n + 1) + n) = false →
    accumulate n 0 gs < 2 ^ 32 →
    ∃ t, exec (.varlen n) s = .next t ∧
      t.pos = BitVec.ofNat 32 (cursor s + (gs.length + 1) * (n + 1)) ∧
      codeStart n (gs.length + 1) ≤ t.res.toNat ∧ t.res.toNat < codeStart n (gs.length + 2) ∧
      ∀ (s' : State) (gs' : List Nat), groupsContinue s' n (cursor s') gs' →
        cursor s' + gs'.length * (n + 1) + n + 1 ≤ endOf s' →
        streamWritten s' (cursor s' + gs'.length * (n + 1)) (n + 1) →
        streamBit s' (cursor s' + gs'.length * (n + 1) + n) = false →
        accumulate n 0 gs' < 2 ^ 32 →
        ∀ t', exec (.varlen n) s' = .next t' → t'.res = t.res →
          gs' = gs ∧ streamValue s' (cursor s' + gs'.length * (n + 1)) n =
            streamValue s (cursor s + gs.length * (n + 1)) n

/-- ESCF n, m (R80): operands in the order n, m; a field that is not all ones; an escaped field with its
extension beyond END, overflowing, or added. -/
def Obligations.EscfRule : Prop :=
  (∀ n m, n < 64 → m < 64 → spelled (.escf n m) (0x16000000 + m * 2 ^ 6 + n)) ∧
  ∀ (n m : Nat) (s : State),
    (n < 1 ∨ 32 < n → faults (.escf n m) s .badOperand (fieldValue 0x01 n)) ∧
    (1 ≤ n → n ≤ 32 → 32 < m → faults (.escf n m) s .badOperand (fieldValue 0x02 m)) ∧
    (1 ≤ n → n ≤ 32 → m ≤ 32 → endOf s < cursor s + n →
      faults (.escf n m) s .bitUnderrun (max (cursor s) (endOf s))) ∧
    (1 ≤ n → n ≤ 32 → m ≤ 32 → cursor s + n ≤ endOf s → streamWritten s (cursor s) n →
      streamValue s (cursor s) n ≠ 2 ^ n - 1 →
      exec (.escf n m) s = .next (withResult s (streamValue s (cursor s) n) (cursor s + n))) ∧
    (1 ≤ n → n ≤ 32 → m ≤ 32 → cursor s + n ≤ endOf s → streamWritten s (cursor s) n →
      streamValue s (cursor s) n = 2 ^ n - 1 → endOf s < cursor s + n + m →
      faults (.escf n m) s .bitUnderrun (max (cursor s + n) (endOf s))) ∧
    (1 ≤ n → n ≤ 32 → m ≤ 32 → cursor s + n + m ≤ endOf s → streamWritten s (cursor s) (n + m) →
      streamValue s (cursor s) n = 2 ^ n - 1 →
      2 ^ 32 ≤ 2 ^ n - 1 + streamValue s (cursor s + n) m →
      faults (.escf n m) s .varlenOverflow (cursor s + n + m)) ∧
    (1 ≤ n → n ≤ 32 → m ≤ 32 → cursor s + n + m ≤ endOf s → streamWritten s (cursor s) (n + m) →
      streamValue s (cursor s) n = 2 ^ n - 1 →
      2 ^ n - 1 + streamValue s (cursor s + n) m < 2 ^ 32 →
      exec (.escf n m) s =
        .next (withResult s (2 ^ n - 1 + streamValue s (cursor s + n) m) (cursor s + n + m)))

/-- ESCV n, m (R81), with VARLEN's rule for the extension: the groups `gs`, each continued, then the last
group. -/
def Obligations.EscvRule : Prop :=
  (∀ n m, n < 64 → m < 64 → spelled (.escv n m) (0x17000000 + m * 2 ^ 6 + n)) ∧
  ∀ (n m : Nat) (s : State),
    (n < 1 ∨ 32 < n → faults (.escv n m) s .badOperand (fieldValue 0x01 n)) ∧
    (1 ≤ n → n ≤ 32 → 32 < m → faults (.escv n m) s .badOperand (fieldValue 0x02 m)) ∧
    (1 ≤ n → n ≤ 32 → m ≤ 32 → endOf s < cursor s + n →
      faults (.escv n m) s .bitUnderrun (max (cursor s) (endOf s))) ∧
    (1 ≤ n → n ≤ 32 → m ≤ 32 → cursor s + n ≤ endOf s → streamWritten s (cursor s) n →
      streamValue s (cursor s) n ≠ 2 ^ n - 1 →
      exec (.escv n m) s = .next (withResult s (streamValue s (cursor s) n) (cursor s + n))) ∧
    ∀ gs : List Nat, 1 ≤ n → n ≤ 32 → m ≤ 32 → cursor s + n ≤ endOf s →
      streamWritten s (cursor s) n → streamValue s (cursor s) n = 2 ^ n - 1 →
      groupsContinue s m (cursor s + n) gs → accumulate m 0 gs < 2 ^ 32 →
      let q := cursor s + n + gs.length * (m + 1)
      let e := accumulate m 0 gs + streamValue s q m
      (endOf s < q + m + 1 → (q + m ≤ endOf s → streamWritten s q m) →
        faults (.escv n m) s .bitUnderrun (max q (endOf s))) ∧
      (q + m + 1 ≤ endOf s → streamWritten s q (m + 1) → streamBit s (q + m) = true →
        2 ^ 32 ≤ e * 2 ^ m + 2 ^ m →
        faults (.escv n m) s .varlenOverflow (q + m + 1)) ∧
      (q + m + 1 ≤ endOf s → streamWritten s q (m + 1) → streamBit s (q + m) = false →
        2 ^ 32 ≤ 2 ^ n - 1 + e →
        faults (.escv n m) s .varlenOverflow (q + m + 1)) ∧
      (q + m + 1 ≤ endOf s → streamWritten s q (m + 1) → streamBit s (q + m) = false →
        2 ^ n - 1 + e < 2 ^ 32 →
        exec (.escv n m) s = .next (withResult s (2 ^ n - 1 + e) (q + m + 1)))

/-- No command reads a bit at an address at or beyond END: two states with the same stream before END give
the same outcome but for BUF itself (R83 "No command of this file reads a bit at an address >= END"). -/
def Obligations.BitsBeyondEndAreIrrelevant : Prop :=
  ∀ (i : Instr) (s t : State), sameStream s t → withBufOf s (exec i t) = exec i s

/-- After a command, POS is where it was, or has advanced and is at most END (the first and second sentence
of R83, over all commands). -/
def Obligations.CursorStaysInsideEnd : Prop :=
  ∀ (i : Instr) (s t : State), exec i s = .next t →
    t.pos = s.pos ∨ (cursor s ≤ cursor t ∧ cursor t ≤ endOf s)

/-- A command that reads a bit of a byte nothing has written stops the model, and a command stops nowhere
else: with every byte before END written, no command stops (R32). -/
def Obligations.OnlyUnwrittenBytesStop : Prop :=
  (∀ s : State, cursor s < endOf s → storeGet s.buf (cursor s / 8) = none →
    exec .readbit s = .fault (.bufUnwritten (cursor s / 8))) ∧
  (∀ (i : Instr) (s : State), dataWritten s → ∀ f, exec i s ≠ .fault f) ∧
  (∀ (i : Instr) (s : State) (r : Refusal), exec i s ≠ .refused r)

/-! ### Huffman decoder and lookup tables -/

/-- HMAT, HVEC and HIDX (R88 to R92), for the bits `bs` that the stream holds from POS on: they end at a
leaf; or lead to an internal node with no bit left, to an index outside the tree, or to the step limit. -/
def Obligations.HuffmanRule : Prop :=
  (∀ x, x < 256 → spelled (.hmat x) (0x20000000 + x) ∧ spelled (.hvec x) (0x21000000 + x) ∧
    spelled (.hidx x) (0x22000000 + x)) ∧
  (∀ (x : Nat) (s : State), x ≠ 5 → x ≠ 7 → faults (.hidx x) s .badOperand (fieldValue 0x04 x)) ∧
  ∀ (i : Instr) (s : State) (t : Tree) (bs : List Bool), treeOf s.build i = some t →
    streamHolds s (cursor s) bs →
    (∀ c, walkLeaf t 0 bs = some c → bs.length ≤ t.len → cursor s + bs.length ≤ endOf s →
      exec i s = .next (withResult s (-c - 1).toNat (cursor s + bs.length))) ∧
    (∀ node, walkNode t 0 bs = some node → node < t.len → bs.length < t.len →
      (bs = [] ∨ cursor s + bs.length ≤ endOf s) → endOf s ≤ cursor s + bs.length →
      faults i s .bitUnderrun (max (cursor s + bs.length) (endOf s))) ∧
    (∀ node, walkNode t 0 bs = some node → t.len ≤ node → bs.length ≤ t.len →
      cursor s + bs.length ≤ endOf s → faults i s .huffBadIndex node) ∧
    (∀ node, walkNode t 0 bs = some node → node < t.len → bs.length = t.len →
      cursor s + bs.length ≤ endOf s → faults i s .huffNoLeaf node)

/-- On a well-formed tree a decoding command never faults HUFF_BAD_INDEX or HUFF_NO_LEAF, and reads at most
depth(T) bits, which is at most HT_LEN (the law of R93). -/
def Obligations.WellFormedTreesDecode : Prop :=
  ∀ (i : Instr) (s : State) (t : Tree), treeOf s.build i = some t → t.wellFormed = true →
    treeDepth t ≤ t.len ∧
    (∀ u, exec i s = .next u →
      u = record .bitUnderrun (encode i) u.finfo s ∨
      (s.fault = true ∧ u = s) ∨
      cursor u ≤ cursor s + treeDepth t) ∧
    (∀ info, s.fault = false → exec i s ≠ .next (record .huffBadIndex (encode i) info s)) ∧
    (∀ info, s.fault = false → exec i s ≠ .next (record .huffNoLeaf (encode i) info s))

/-- LUTBANDS and LUTCHAN (R97, R98, R99), for every operand. -/
def Obligations.LookupRule : Prop :=
  (∀ x, x < 256 → spelled (.lutbands x) (0x28000000 + x) ∧ spelled (.lutchan x) (0x29000000 + x)) ∧
  ∀ s : State,
    (∀ x, exec (.lutbands x) s =
      match x with
      | 0 => .next { s with res := 1 }
      | 1 => .next { s with res := 3 }
      | 2 => .next { s with res := 5 }
      | 3 => .next { s with res := 7 }
      | 4 => .next { s with res := 9 }
      | 5 => .next { s with res := 12 }
      | 6 => .next { s with res := 15 }
      | 7 => .next { s with res := 23 }
      | x => .next (record .badOperand (encode (.lutbands x)) (BitVec.ofNat 32 (fieldValue 0x04 x)) s)) ∧
    (∀ x, exec (.lutchan x) s =
      match x with
      | 0 => .next { s with res := 5 }
      | 1 => .next { s with res := 7 }
      | 2 => .next { s with res := 7 }
      | 3 => .next { s with res := 5 }
      | 4 => .next { s with res := 7 }
      | 5 => .next (record .unsupported (encode (.lutchan 5)) 0x01000005#32 s)
      | 6 => .next (record .unsupported (encode (.lutchan 6)) 0x01000006#32 s)
      | 7 => .next (record .unsupported (encode (.lutchan 7)) 0x01000007#32 s)
      | x => .next (record .badOperand (encode (.lutchan x)) (BitVec.ofNat 32 (fieldValue 0x04 x)) s))

/-- NOP (R117): its word; no state changes but completion, which clears BUSY; a word with opcode 0 and a
nonzero operand bit faults ILLEGAL_CMD; a NOP written while FAULT = 1 is dropped. -/
def Obligations.NopRule : Prop :=
  spelled .nop 0 ∧
  (∀ s : State, exec .nop s = .next s) ∧
  ∀ s : State,
    (∀ u, engineTurn s u → s.pending = some 0 → s.srstReq = false →
      step s = .next { u with pending := none }) ∧
    (∀ (u : State) (w : Word), engineTurn s u → bits w 31 24 = 0 → bits w 23 0 ≠ 0 →
      s.pending = some w → s.srstReq = false →
      step s = .next { record .illegalCmd w 0 u with pending := none }) ∧
    ∀ rest, s.pending = none → s.fault = true → s.script = .hostWrite 0x10 4 0 :: rest →
      step s = .next { afterTurn s rest with drop := true }

/-! ### Filter bank -/

/-- QFWD x (R105): the operand check; the slid window; the 64 values of XR and XI; and nothing else
changes. The model's choices it rests on: an element of TS that nothing has written holds a free value and
does not stop the command (log entry 2), the arithmetic is that of R104 (log entry 25), and a NaN is a free
function of its operands (log entry 5). -/
def Obligations.QfwdRule : Prop :=
  (∀ x, x < 256 → spelled (.qfwd x) (0x30000000 + x)) ∧
  ∀ (x : Nat) (s : State),
    (s.build.qmfInst ≤ x → faults (.qfwd x) s .badOperand (fieldValue 0x04 x)) ∧
    (hasInstance s x → ∃ t, exec (.qfwd x) s = .next t ∧
      t = { s with inst := t.inst, xr := t.xr, xi := t.xi } ∧
      t.inst = s.inst.set x { aw := (instanceAt t x).aw, sh := (instanceAt s x).sh } ∧
      (∀ n, n < s.build.qmfL → elementAt (instanceAt t x).aw n = windowAfter s x n) ∧
      ∀ k, k < 64 →
        readPort t .xr k = bandAfter s x s.build.rfRe k ∧
        readPort t .xi k = bandAfter s x s.build.rfIm k)

/-- QINV x (R106): the operand check; the slid history; the 64 samples of TS; and nothing else changes. The
model's choices it rests on: an element of XR or XI that nothing has written holds a free value and does
not stop the command (log entry 2), the arithmetic is that of R104 (log entry 25), and a NaN is a free
function of its operands (log entry 5). -/
def Obligations.QinvRule : Prop :=
  (∀ x, x < 256 → spelled (.qinv x) (0x31000000 + x)) ∧
  ∀ (x : Nat) (s : State),
    (s.build.qmfInst ≤ x → faults (.qinv x) s .badOperand (fieldValue 0x04 x)) ∧
    (hasInstance s x → ∃ t, exec (.qinv x) s = .next t ∧
      t = { s with inst := t.inst, ts := t.ts } ∧
      t.inst = s.inst.set x { aw := (instanceAt s x).aw, sh := (instanceAt t x).sh } ∧
      (∀ n, n < s.build.qmfH → elementAt (instanceAt t x).sh n = historyAfter s x n) ∧
      ∀ m, m < 64 → readPort t .ts m = sampleAfter s x m s.build.qmfJ)

/-- QCLR x (R107): the operand check; every element of both arrays of instance x +0.0; and nothing else
changes. -/
def Obligations.QclrRule : Prop :=
  (∀ x, x < 256 → spelled (.qclr x) (0x32000000 + x)) ∧
  ∀ (x : Nat) (s : State),
    (s.build.qmfInst ≤ x → faults (.qclr x) s .badOperand (fieldValue 0x04 x)) ∧
    (hasInstance s x → ∃ t, exec (.qclr x) s = .next t ∧ t = { s with inst := t.inst } ∧
      t.inst = s.inst.set x (instanceAt t x) ∧
      ∀ n, elementAt (instanceAt t x).aw n = 0x00000000#32 ∧
        elementAt (instanceAt t x).sh n = 0x00000000#32)

/-- Instance isolation (the law of 42_qmf.md "Laws and host-facing facts"): what QFWD x and QINV x write
depends only on instance x, the ports they read and the tables; what the other instances hold changes
nothing. The model's choices it rests on: both runs give the same NaN for the same operands (log entry 5),
and a port element that nothing has written is a free value (log entry 2). -/
def Obligations.InstancesAreIsolated : Prop :=
  ∀ (x : Nat) (s s' : State), hasInstance s x → hasInstance s' x → s'.build = s.build →
    (∀ f k, readPort s' f k = readPort s f k) →
    ((instanceAt s' x).aw = (instanceAt s x).aw →
      ∃ t t', exec (.qfwd x) s = .next t ∧ exec (.qfwd x) s' = .next t' ∧
        (instanceAt t' x).aw = (instanceAt t x).aw ∧
        ∀ k, k < 64 → readPort t' .xr k = readPort t .xr k ∧ readPort t' .xi k = readPort t .xi k) ∧
    ((instanceAt s' x).sh = (instanceAt s x).sh →
      ∃ t t', exec (.qinv x) s = .next t ∧ exec (.qinv x) s' = .next t' ∧
        (instanceAt t' x).sh = (instanceAt t x).sh ∧
        ∀ k, k < 64 → readPort t' .ts k = readPort t .ts k)

/-- The silence law (42_qmf.md "Laws and host-facing facts"): a state of zeros and inputs of zeros give
+0.0 at every output, when the tables are finite. The arithmetic is that of R104 (the model's choice, log
entry 25). -/
def Obligations.SilenceGivesSilence : Prop :=
  ∀ (x : Nat) (s : State), hasInstance s x → s.build.Legal →
    ((∀ n, zeroWord (elementAt (instanceAt s x).aw n)) → (∀ k, k < 64 → zeroWord (readPort s .ts k)) →
      ∃ t, exec (.qfwd x) s = .next t ∧
        ∀ k, k < 64 → readPort t .xr k = 0x00000000#32 ∧ readPort t .xi k = 0x00000000#32) ∧
    ((∀ n, zeroWord (elementAt (instanceAt s x).sh n)) →
      (∀ k, k < 64 → zeroWord (readPort s .xr k) ∧ zeroWord (readPort s .xi k)) →
      ∃ t, exec (.qinv x) s = .next t ∧ ∀ m, m < 64 → readPort t .ts m = 0x00000000#32)

/-- Memory length (42_qmf.md "Laws and host-facing facts"): after QMF_L/64 commands of one kind on an
instance, fed with the same inputs, the array and the outputs no longer depend on what the instance held
before. The model's choice it rests on: both runs give the same NaN for the same operands (log entry 5). -/
def Obligations.InstanceMemoryIsFinite : Prop :=
  ∀ (x : Nat) (s s' : State), s.build.Legal → s'.build = s.build → hasInstance s x → hasInstance s' x →
    (∀ blocks : List (List Word), (∀ b ∈ blocks, b.length = 64) → blocks.length = 2 * s.build.qmfJ →
      ∃ t t', feedForward x blocks s = some t ∧ feedForward x blocks s' = some t' ∧
        (∀ n, elementAt (instanceAt t' x).aw n = elementAt (instanceAt t x).aw n) ∧
        ∀ k, k < 64 → readPort t' .xr k = readPort t .xr k ∧ readPort t' .xi k = readPort t .xi k) ∧
    (∀ slots : List (List Word × List Word), (∀ p ∈ slots, p.1.length = 64 ∧ p.2.length = 64) →
      slots.length = 2 * s.build.qmfJ →
      ∃ t t', feedInverse x slots s = some t ∧ feedInverse x slots s' = some t' ∧
        (∀ n, elementAt (instanceAt t' x).sh n = elementAt (instanceAt t x).sh n) ∧
        ∀ m, m < 64 → readPort t' .ts m = readPort t .ts m)

/-- Order independence (42_qmf.md "Laws and host-facing facts"): two filter-bank commands of any kind on
different instances, each fed its own inputs and its results saved, give the same instances and the same
results in either order. The model's choice it rests on: both orders give the same NaN for the same
operands (log entry 5). -/
def Obligations.InstancesCommute : Prop :=
  ∀ (i j : Instr) (x y : Nat) (s : State) (p q p' q' : List Word),
    filterInstance i = some x → filterInstance j = some y → x ≠ y →
    hasInstance s x → hasInstance s y →
    p.length = 64 → q.length = 64 → p'.length = 64 → q'.length = 64 →
    ∃ t1 t2 u1 u2,
      exec i (loadInputs i p q s) = .next t1 ∧ exec j (loadInputs j p' q' t1) = .next t2 ∧
      exec j (loadInputs j p' q' s) = .next u1 ∧ exec i (loadInputs i p q u1) = .next u2 ∧
      t2.inst = u2.inst ∧ sameResults i t1 u2 ∧ sameResults j t2 u1

/-- `fadd`, `fsub` and `fmul` round the exact result to nearest even, and to an infinity where it is too
large (R9, R104; that the model computes this arithmetic is log entry 25). -/
def Obligations.ArithmeticRoundsToNearest : Prop :=
  ∀ a b : Word, finiteWord a = true → finiteWord b = true →
    roundsTo (fadd a b) (floatInt a + floatInt b) 1 ∧
    roundsTo (fsub a b) (floatInt a - floatInt b) 1 ∧
    roundsTo (fmul a b) (floatInt a * floatInt b) (2 ^ 149)

/-- Subnormals are kept and zeros have the signs of round-to-nearest (R104, and the reason given for the
silence law): adding +0.0 changes no finite number but -0.0, which becomes +0.0; the product of a zero and
a finite number is a zero. That the model computes this arithmetic is log entry 25. -/
def Obligations.ZerosAndSubnormalsAreKept : Prop :=
  ∀ w : Word, finiteWord w = true →
    (w ≠ 0x80000000#32 → fadd 0x00000000#32 w = w) ∧
    (w = 0x80000000#32 → fadd 0x00000000#32 w = 0x00000000#32) ∧
    ∀ z, zeroWord z → zeroWord (fmul z w) ∧ zeroWord (fmul w z)

/-! ### The host's side -/

/-- CMD (R20): CMD_OVERRUN while BUSY = 1, dropped while FAULT = 1, else accepted; a read while BUSY = 0
returns 0 (`BusyReadsRule` has the read while BUSY = 1). -/
def Obligations.CmdRule : Prop :=
  ∀ (s : State) (rest : List Turn),
    (∀ w, s.script = .hostWrite 0x10 4 w :: rest →
      (∀ p, s.pending = some p → step s = .next (record .cmdOverrun w p (afterTurn s rest))) ∧
      (s.pending = none → s.fault = true → step s = .next { afterTurn s rest with drop := true }) ∧
      (s.pending = none → s.fault = false →
        step s = .next { afterTurn s rest with pending := some w })) ∧
    (s.pending = none → s.script = .hostRead 0x10 4 :: rest →
      step s = .next { afterTurn s rest with rdata := 0 })

/-- STATUS (R19): what a read returns, BUSY or not, what a write clears, the reset value, and that every
step keeps FCODE at 0 while FAULT is 0. -/
def Obligations.StatusRule : Prop :=
  ∀ (s : State) (rest : List Turn),
    (s.script = .hostRead 0x0C 4 :: rest →
      ∃ v : Word, step s = .next { afterTurn s rest with rdata := v } ∧
        v.getLsbD 0 = s.pending.isSome ∧ v.getLsbD 1 = s.fault ∧ v.getLsbD 2 = s.drop ∧
        v.extractLsb' 3 5 = 0 ∧ v.extractLsb' 8 8 = s.fcode ∧ v.extractLsb' 16 16 = 0) ∧
    (∀ v, s.script = .hostWrite 0x0C 4 v :: rest →
      step s = .next
        { afterTurn s rest with
          fault := if v.getLsbD 1 then false else s.fault
          fcode := if v.getLsbD 1 then 0 else s.fcode
          drop := if v.getLsbD 2 then false else s.drop }) ∧
    statusWord State.reset = 0 ∧
    ∀ t : State, step s = .next t → (s.fault = false → s.fcode = 0) → t.fault = false → t.fcode = 0

/-- POS and END (R21, R22): what a host write stores and a host read returns while BUSY = 0, their reset
values, and that no command writes END. -/
def Obligations.CursorRegistersRule : Prop :=
  (∀ (s : State) (rest : List Turn), s.pending = none →
    (∀ v, s.script = .hostWrite 0x18 4 v :: rest →
      step s = .next { afterTurn s rest with pos := v }) ∧
    (∀ v, s.script = .hostWrite 0x1C 4 v :: rest →
      step s = .next
        { afterTurn s rest with bitEnd := BitVec.ofNat 32 (min v.toNat (8 * s.build.bufBytes)) }) ∧
    (s.script = .hostRead 0x18 4 :: rest → step s = .next { afterTurn s rest with rdata := s.pos }) ∧
    (s.script = .hostRead 0x1C 4 :: rest → step s = .next { afterTurn s rest with rdata := s.bitEnd })) ∧
  State.reset.pos = 0 ∧ State.reset.bitEnd = 0 ∧
  ∀ (i : Instr) (s t : State), exec i s = .next t → t.bitEnd = s.bitEnd

/-- ID, CFG, CTRL, RES, FCMD, FINFO as a host reads them (R16, R17, R18, R23, R24, R25), the last three
while BUSY = 0. -/
def Obligations.RegisterReads : Prop :=
  ∀ (s : State) (rest : List Turn),
    (s.script = .hostRead 0x00 4 :: rest →
      step s = .next { afterTurn s rest with rdata := s.build.idValue }) ∧
    (s.script = .hostRead 0x04 4 :: rest → s.build.Legal →
      ∃ v : Word, step s = .next { afterTurn s rest with rdata := v } ∧
        (v.extractLsb' 0 8).toNat = s.build.qmfInst - 1 ∧ (v.extractLsb' 8 8).toNat = s.build.qmfJ ∧
        v.extractLsb' 16 16 = 0) ∧
    (s.script = .hostRead 0x08 4 :: rest → step s = .next { afterTurn s rest with rdata := 0 }) ∧
    (s.pending = none →
      (s.script = .hostRead 0x14 4 :: rest → step s = .next { afterTurn s rest with rdata := s.res }) ∧
      (s.script = .hostRead 0x20 4 :: rest → step s = .next { afterTurn s rest with rdata := s.fcmd }) ∧
      (s.script = .hostRead 0x24 4 :: rest → step s = .next { afterTurn s rest with rdata := s.finfo }))

/-- Reserved offsets read 0 and ignore writes, and read-only registers ignore writes, BUSY or not (R31). -/
def Obligations.ReservedAndReadOnlyRule : Prop :=
  ∀ (s : State) (rest : List Turn) (off : Nat), s.build.Legal →
    (reservedOffset s.build off → s.script = .hostRead off 4 :: rest →
      step s = .next { afterTurn s rest with rdata := 0 }) ∧
    (∀ v, reservedOffset s.build off ∨ readOnlyOffset s.build off →
      s.script = .hostWrite off 4 v :: rest → step s = .next (afterTurn s rest))

/-- The data ports (R26): while BUSY = 0 a host write stores the word at its element and at no other, and a
host read returns the element. What an element nothing has written reads as is a free value of the model
(log entry 2). -/
def Obligations.DataPortsRule : Prop :=
  ∀ (s : State) (rest : List Turn) (f : PortFile) (k : Nat), k < 64 → s.pending = none →
    (∀ v, s.script = .hostWrite (portOffset f k) 4 v :: rest →
      ∃ t, step s = .next t ∧
        (∀ g j, readPort t g j = if g = f ∧ j = k then v else readPort s g j) ∧
        { t with ts := s.ts, xr := s.xr, xi := s.xi } = afterTurn s rest) ∧
    (s.script = .hostRead (portOffset f k) 4 :: rest →
      step s = .next { afterTurn s rest with rdata := readPort s f k })

/-- The BUF window while BUSY = 0 (R43): little-endian lanes; lanes at or beyond BUF_BYTES ignored and read
as 0; a read of a lane nothing has written stops the model; no command writes BUF. `BusyReadsRule` has the
read while BUSY = 1. -/
def Obligations.BufWindowRule : Prop :=
  (∀ (s : State) (rest : List Turn) (j : Nat), s.build.Legal → 4 * j < s.build.bufBytes →
    s.pending = none →
    (∀ v : Word, s.script = .hostWrite (0x10000 + 4 * j) 4 v :: rest →
      ∃ m, step s = .next { afterTurn s rest with buf := m } ∧
        ∀ b, storeGet m b =
          if 4 * j ≤ b ∧ b < 4 * j + 4 ∧ b < s.build.bufBytes then
            some (v.extractLsb' (8 * (b - 4 * j)) 8)
          else storeGet s.buf b) ∧
    (s.script = .hostRead (0x10000 + 4 * j) 4 :: rest → readsBufWord s rest j)) ∧
  ∀ (i : Instr) (s t : State), exec i s = .next t → t.buf = s.buf

/-- The OBUF window (R45): little-endian lanes, 0 at or beyond OBUF_BYTES, a lane nothing has written stops
the model, writes ignored; of the commands only READBYTES writes OBUF. -/
def Obligations.ObufWindowRule : Prop :=
  (∀ (s : State) (rest : List Turn) (j : Nat), s.build.Legal → 4 * j < s.build.obufBytes →
    (∀ v : Word, s.script = .hostWrite (0x20000 + 4 * j) 4 v :: rest → step s = .next (afterTurn s rest)) ∧
    (s.pending = none → s.script = .hostRead (0x20000 + 4 * j) 4 :: rest →
      (∀ b, 4 * j ≤ b → b < 4 * j + 4 → b < s.build.obufBytes → (storeGet s.obuf b).isSome = true) →
      ∃ v : Word, step s = .next { afterTurn s rest with rdata := v } ∧
        ∀ lane, lane < 4 → v.extractLsb' (8 * lane) 8 =
          if 4 * j + lane < s.build.obufBytes then (storeGet s.obuf (4 * j + lane)).getD 0 else 0) ∧
    (∀ b, s.pending = none → s.script = .hostRead (0x20000 + 4 * j) 4 :: rest →
      4 * j ≤ b → b < 4 * j + 4 → b < s.build.obufBytes → storeGet s.obuf b = none →
      ∃ b', step s = .fault (.obufUnwritten b') ∧ storeGet s.obuf b' = none)) ∧
  ∀ (i : Instr) (s t : State), (∀ c, i ≠ .readbytes c) → exec i s = .next t → t.obuf = s.obuf

/-- Accesses while BUSY = 1 to the inputs (R33, R123 BUSY_WRITE): the write is ignored and recorded with the
value written and the offset. -/
def Obligations.BusyWritesFault : Prop :=
  ∀ (s : State) (rest : List Turn) (off : Nat) (p v : Word), s.build.Legal → s.pending = some p →
    inputOffset s.build off → s.script = .hostWrite off 4 v :: rest →
    step s = .next (record .busyWrite v (BitVec.ofNat 32 off) (afterTurn s rest))

/-- Reads while BUSY = 1 (R33): a result returns a free word of the model (log entry 4) and changes nothing
of the block; CMD returns 0 and the BUF window its bytes, as while BUSY = 0, which is the model's reading of
R33's silence on them (log entry 9). -/
def Obligations.BusyReadsRule : Prop :=
  ∀ (s : State) (rest : List Turn) (p : Word), s.build.Legal → s.pending = some p →
    (∀ off, resultOffset s.build off → s.script = .hostRead off 4 :: rest →
      step s = .next
        { afterTurn s rest with rdata := Config.freeWord s.draws, draws := s.draws + 1 }) ∧
    (s.script = .hostRead 0x10 4 :: rest → step s = .next { afterTurn s rest with rdata := 0 }) ∧
    ∀ j, 4 * j < s.build.bufBytes → s.script = .hostRead (0x10000 + 4 * j) 4 :: rest →
      readsBufWord s rest j

/-- Host accesses (R42): one that is not 4 bytes wide, aligned and inside the window is refused, and a write
of the right shape always gives a next state. -/
def Obligations.AccessShapeRule : Prop :=
  ∀ (s : State) (rest : List Turn) (off bytes : Nat) (v : Word),
    (¬(bytes = 4 ∧ off % 4 = 0 ∧ off ≤ 0x2FFFF) →
      (s.script = .hostRead off bytes :: rest → step s = .refused (.accessShape off bytes)) ∧
      (s.script = .hostWrite off bytes v :: rest → step s = .refused (.accessShape off bytes))) ∧
    (bytes = 4 → off % 4 = 0 → off ≤ 0x2FFFF → s.script = .hostWrite off bytes v :: rest →
      ∃ t, step s = .next t)

/-- No host read has a side effect (R52): the next state differs from the state before in the value handed
back and the model's count of free words only. -/
def Obligations.ReadsHaveNoSideEffect : Prop :=
  ∀ (s t : State) (rest : List Turn) (off bytes : Nat), s.script = .hostRead off bytes :: rest →
    step s = .next t → { t with rdata := s.rdata, draws := s.draws } = afterTurn s rest

/-- CTRL (R18, R146): a write with bit 0 clear does nothing; with bit 0 set it resets at once when idle, and
is remembered while BUSY = 1. -/
def Obligations.SoftResetRule : Prop :=
  ∀ (s : State) (rest : List Turn) (v : Word), s.script = .hostWrite 0x08 4 v :: rest →
    (v.getLsbD 0 = false → step s = .next (afterTurn s rest)) ∧
    (v.getLsbD 0 = true → ∀ p, s.pending = some p →
      step s = .next { afterTurn s rest with srstReq := true }) ∧
    (v.getLsbD 0 = true → s.pending = none →
      step s = .next
        { afterTurn s rest with
          pos := 0, bitEnd := 0, res := 0, fcmd := 0, finfo := 0
          fault := false, drop := false, fcode := 0, pending := none, srstReq := false
          inst := List.replicate s.build.qmfInst { aw := [], sh := [] } })

/-- Hardware reset (R144, R145): the state after it has every register at its reset value, no byte of BUF or
OBUF written, every element of every instance +0.0 and the build's tables; the block is idle; and a reset
that arrives while a command is pending is refused. The free contents of the data ports are the model's
(log entry 2). -/
def Obligations.HardwareResetRule : Prop :=
  (∀ (s : State) (rest : List Turn), s.script = .hardReset :: rest →
    (∀ p, s.pending = some p → step s = .refused .resetWhilePending) ∧
    (s.pending = none → ∃ t, step s = .next t ∧
      t.pos = 0 ∧ t.bitEnd = 0 ∧ t.res = 0 ∧ t.fcmd = 0 ∧ t.finfo = 0 ∧ statusWord t = 0 ∧
      t.pending = none ∧ t.srstReq = false ∧ t.build = s.build ∧ t.script = rest ∧
      (∀ b, storeGet t.buf b = none ∧ storeGet t.obuf b = none) ∧
      (∀ f k, storeGet (portStore t f) k = none) ∧
      t.inst.length = s.build.qmfInst ∧
      ∀ x n, elementAt (instanceAt t x).aw n = 0x00000000#32 ∧
        elementAt (instanceAt t x).sh n = 0x00000000#32)) ∧
  State.reset.pos = 0 ∧ State.reset.bitEnd = 0 ∧ State.reset.res = 0 ∧ State.reset.fcmd = 0 ∧
  State.reset.finfo = 0 ∧ statusWord State.reset = 0 ∧ State.reset.pending = none ∧
  State.reset.srstReq = false ∧ State.reset.build = Config.build ∧
  (∀ b, storeGet State.reset.buf b = none ∧ storeGet State.reset.obuf b = none) ∧
  (∀ f k, storeGet (portStore State.reset f) k = none) ∧
  ∀ x n, elementAt (instanceAt State.reset x).aw n = 0x00000000#32 ∧
    elementAt (instanceAt State.reset x).sh n = 0x00000000#32

/-! ### The whole machine -/

/-- The reset state meets the invariant. -/
def Obligations.ResetMeetsInvariant : Prop := Inv State.reset

/-- Every step keeps the invariant: STATUS holds a code exactly when FAULT is 1, END stays inside BUF,
SRST_REQ waits only for a pending command, memories and ports stay canonical and inside their sizes, there
are QMF_INST instances whose arrays stay inside QMF_L and QMF_H, and the build stays legal. -/
def Obligations.StepKeepsInvariant : Prop :=
  ∀ s t : State, Inv s → step s = .next t → Inv t

/-- The read-only tables and the build constants never change (R28). -/
def Obligations.TablesNeverChange : Prop :=
  ∀ s t : State, step s = .next t → t.build = s.build

/-- What stops a step: only a byte nothing has written, an access of another shape, or a hardware reset
while a command is pending; no command is refused. -/
def Obligations.StopsAreNamed : Prop :=
  ∀ s : State,
    (∀ f, step s = .fault f →
      (∃ b, f = .bufUnwritten b ∧ storeGet s.buf b = none) ∨
      (∃ b, f = .obufUnwritten b ∧ storeGet s.obuf b = none)) ∧
    (∀ r, step s = .refused r →
      (∃ off bytes, r = .accessShape off bytes ∧ ¬(bytes = 4 ∧ off % 4 = 0 ∧ off < 0x30000)) ∨
      (r = .resetWhilePending ∧ s.pending ≠ none))

/-- Only the host's writes to CMD set PENDING, and only the engine's step clears it (R29): a step that sets
it performs a CMD write of that word with BUSY = 0 and FAULT = 0, and a step of any other agent keeps a
pending word. -/
def Obligations.OnlyCmdSetsAndEngineClearsPending : Prop :=
  ∀ (s t : State) (w : Word), step s = .next t →
    (t.pending = some w →
      s.pending = some w ∨
      (s.pending = none ∧ s.fault = false ∧ ∃ rest, s.script = .hostWrite 0x10 4 w :: rest)) ∧
    (s.pending = some w → (¬∃ u, engineTurn s u) → t.pending = some w)

/-- Only the host's clear, or a reset, takes FAULT back to 0 (R124, R132): while FAULT = 1 any other step
keeps FAULT, FCODE, FCMD and FINFO. -/
def Obligations.OnlyClearAndResetDropFault : Prop :=
  ∀ s t : State, step s = .next t → s.fault = true → s.srstReq = false →
    (∀ v rest, s.script = .hostWrite 0x0C 4 v :: rest → v.getLsbD 1 = false) →
    (∀ v rest, s.script = .hostWrite 0x08 4 v :: rest → v.getLsbD 0 = false) →
    (∀ rest, s.script ≠ .hardReset :: rest) →
    t.fault = true ∧ t.fcode = s.fcode ∧ t.fcmd = s.fcmd ∧ t.finfo = s.finfo
end

