-- ==== Sys2Proof/Laws/Store.lean ====
section
/-! SUPPORT. The element stores (BUF, OBUF, the data ports): a read after a write, and that every store
operation keeps the canonical form. -/

namespace Sys2Proof.Machine

variable {α : Type}

@[simp] theorem storeGet_nil (a : Nat) : storeGet ([] : List (Nat × α)) a = none := rfl

theorem storeGet_none_of_lt (m : List (Nat × α)) (a : Nat) (h : ∀ p ∈ m, a < p.1) :
    storeGet m a = none := by
  induction m with
  | nil => rfl
  | cons p m ih =>
    obtain ⟨k, v⟩ := p
    have hk : a < k := h (k, v) (by simp)
    have : k ≠ a := by omega
    simp only [storeGet, this, if_false]
    exact ih fun q hq => h q (by simp [hq])

/-- A read after a write: the value written at its index, the old value elsewhere. -/
theorem storeGet_storePut (m : List (Nat × α)) (a b : Nat) (v : α) :
    storeGet (storePut m a v) b = if b = a then some v else storeGet m b := by
  induction m with
  | nil => simp [storePut, storeGet, eq_comm]
  | cons p m ih =>
    obtain ⟨k, w⟩ := p
    simp only [storePut]
    split
    · simp [storeGet, eq_comm]
    · split
      · subst_vars
        simp only [storeGet]
        split <;> simp_all [eq_comm]
      · simp only [storeGet, ih]
        by_cases hk : k = b
        · have : b ≠ a := by omega
          simp [hk, this]
        · simp [hk]

/-- A read after a run of writes: the value written inside it, the old value elsewhere. -/
theorem storeGet_storePutAll (vs : List α) (m : List (Nat × α)) (a b : Nat) :
    storeGet (storePutAll m a vs) b =
      if a ≤ b ∧ b < a + vs.length then vs[b - a]? else storeGet m b := by
  induction vs generalizing m a with
  | nil => simp [storePutAll]
  | cons v vs ih =>
    simp only [storePutAll, ih, storeGet_storePut, List.length_cons]
    by_cases h : b = a
    · subst h; simp
    · by_cases h2 : a + 1 ≤ b ∧ b < a + 1 + vs.length
      · have h3 : a ≤ b ∧ b < a + (vs.length + 1) := by omega
        have h4 : b - a = (b - (a + 1)) + 1 := by omega
        simp [h2, h3, h4]
      · have h3 : ¬(a ≤ b ∧ b < a + (vs.length + 1)) := by omega
        rw [if_neg h2, if_neg h3, if_neg h]

theorem storePut_mem (m : List (Nat × α)) (a : Nat) (v : α) :
    ∀ p ∈ storePut m a v, p.1 = a ∨ p ∈ m := by
  induction m with
  | nil => simp [storePut]
  | cons p m ih =>
    obtain ⟨k, w⟩ := p
    intro q hq
    simp only [storePut] at hq
    split at hq
    · simp only [List.mem_cons] at hq ⊢
      rcases hq with rfl | rfl | hq <;> simp_all
    · split at hq
      · simp only [List.mem_cons] at hq ⊢
        rcases hq with rfl | hq <;> simp_all
      · simp only [List.mem_cons] at hq ⊢
        rcases hq with rfl | hq
        · simp
        · rcases ih q hq with h | h <;> simp [h]

/-- A write inside the limit keeps the canonical form. -/
theorem storeWf_storePut (limit : Nat) (m : List (Nat × α)) (a : Nat) (v : α)
    (h : storeWf limit m) (ha : a < limit) : storeWf limit (storePut m a v) := by
  obtain ⟨hp, hl⟩ := h
  refine ⟨?_, fun p hp' => ?_⟩
  · clear hl
    induction m with
    | nil => simp [storePut]
    | cons p m ih =>
      obtain ⟨k, w⟩ := p
      obtain ⟨h1, h2⟩ := List.pairwise_cons.mp hp
      simp only [storePut]
      split
      · rename_i hak
        refine List.pairwise_cons.mpr ⟨fun q hq => ?_, hp⟩
        rcases List.mem_cons.mp hq with rfl | hq
        · exact hak
        · exact Nat.lt_trans hak (h1 q hq)
      · split
        · rename_i hak
          subst hak
          exact List.pairwise_cons.mpr ⟨fun q hq => h1 q hq, h2⟩
        · refine List.pairwise_cons.mpr ⟨fun q hq => ?_, ih h2⟩
          rcases storePut_mem m a v q hq with h | h
          · simp only [h]; omega
          · exact h1 q h
  · rcases storePut_mem m a v p hp' with h | h
    · omega
    · exact hl p h

/-- A run of writes inside the limit keeps the canonical form. -/
theorem storeWf_storePutAll (limit : Nat) (vs : List α) (m : List (Nat × α)) (a : Nat)
    (h : storeWf limit m) (ha : a + vs.length ≤ limit) : storeWf limit (storePutAll m a vs) := by
  induction vs generalizing m a with
  | nil => exact h
  | cons v vs ih =>
    simp only [List.length_cons] at ha
    exact ih _ _ (storeWf_storePut limit m a v h (by omega)) (by omega)

@[simp] theorem storeWf_nil (limit : Nat) : storeWf limit ([] : List (Nat × α)) :=
  ⟨List.Pairwise.nil, fun _ h => absurd h List.not_mem_nil⟩

/-- The memories of the reset state have the canonical form. -/
theorem reset_memory_wf :
    Memory.wf 65536 State.reset.buf ∧ Memory.wf 65536 State.reset.obuf :=
  ⟨storeWf_nil _, storeWf_nil _⟩

end Sys2Proof.Machine
end

