-- ==== Sys2Proof/Laws/Arrays.lean ====
section
/-! SUPPORT. The instance arrays (a list without its trailing +0.0), the instances and the data ports: what
a read gives after a slide or a write, and that both keep their forms. -/

namespace Sys2Proof.Machine

@[simp] theorem elementAt_nil (n : Nat) : elementAt [] n = 0 := by simp [elementAt]

@[simp] theorem elementAt_cons_zero (w : Word) (ws : List Word) : elementAt (w :: ws) 0 = w := rfl

@[simp] theorem elementAt_cons_succ (w : Word) (ws : List Word) (n : Nat) :
    elementAt (w :: ws) (n + 1) = elementAt ws n := by simp [elementAt]

/-- Dropping trailing +0.0 elements changes no element. -/
@[simp] theorem elementAt_trimZeros (ws : List Word) (n : Nat) :
    elementAt (trimZeros ws) n = elementAt ws n := by
  induction ws generalizing n with
  | nil => rfl
  | cons w ws ih =>
    simp only [trimZeros]
    cases h : trimZeros ws with
    | nil =>
      have h0 : ∀ m, elementAt ws m = 0 := fun m => by rw [← ih m, h, elementAt_nil]
      show elementAt (if w = 0 then [] else [w]) n = _
      split
      · subst w; cases n <;> simp [h0]
      · cases n <;> simp [h0]
    | cons v vs =>
      cases n with
      | zero => rfl
      | succ m => simp only [elementAt_cons_succ]; rw [← h, ih m]

theorem trimZeros_length (ws : List Word) : (trimZeros ws).length ≤ ws.length := by
  induction ws with
  | nil => simp [trimZeros]
  | cons w ws ih =>
    simp only [trimZeros]
    cases h : trimZeros ws with
    | nil =>
      show (if w = 0 then [] else [w]).length ≤ _
      split <;> simp
    | cons v vs => rw [h] at ih; simp only [List.length_cons] at ih ⊢; omega

/-- A trimmed array does not end in +0.0. -/
theorem trimZeros_last (ws : List Word) : (trimZeros ws).getLast? ≠ some 0 := by
  induction ws with
  | nil => simp [trimZeros]
  | cons w ws ih =>
    simp only [trimZeros]
    cases h : trimZeros ws with
    | nil =>
      show (if w = 0 then [] else [w]).getLast? ≠ some 0
      split <;> simp_all
    | cons v vs =>
      rw [h] at ih
      rw [List.getLast?_cons_cons]
      exact ih

/-- An element after a slide: a new value first, then the old ones, while inside the array. -/
theorem elementAt_slideIn (len : Nat) (newest old : List Word) (n : Nat) (h : n < len) :
    elementAt (slideIn len newest old) n =
      if n < newest.length then elementAt newest n else elementAt old (n - newest.length) := by
  simp only [slideIn, elementAt_trimZeros]
  simp only [elementAt, List.getD_eq_getElem?_getD, List.getElem?_take, h, if_true]
  split
  · rw [List.getElem?_append_left (by assumption)]
  · rw [List.getElem?_append_right (by omega)]

/-- Past the end of the array a slide leaves +0.0. -/
theorem elementAt_slideIn_past (len : Nat) (newest old : List Word) (n : Nat) (h : len ≤ n) :
    elementAt (slideIn len newest old) n = 0 := by
  simp only [slideIn, elementAt_trimZeros]
  simp [elementAt, List.getD_eq_getElem?_getD, Nat.not_lt.mpr h]

/-- A slide gives an array of the right form. -/
theorem slideIn_arrayOk (len : Nat) (newest old : List Word) :
    arrayOk len (slideIn len newest old) := by
  refine ⟨?_, trimZeros_last _⟩
  have := trimZeros_length ((newest ++ old).take len)
  simp only [slideIn]
  rw [List.length_take] at this
  omega

theorem fresh_arrayOk (len : Nat) : arrayOk len ([] : List Word) := by simp [arrayOk]

/-- Reading an instance after replacing one. -/
theorem instanceAt_setInstance (s : State) (x y : Nat) (q : Instance) :
    instanceAt (setInstance s x q) y =
      if y = x ∧ x < s.inst.length then q else instanceAt s y := by
  simp only [instanceAt, setInstance, List.getD_eq_getElem?_getD, List.getElem?_set]
  by_cases h : x = y
  · subst h
    by_cases hx : x < s.inst.length
    · simp [hx]
    · simp [hx]
  · have h' : y ≠ x := fun e => h e.symm
    simp [h, h']

/-- Reading a data port after a run of writes from element 0 on. -/
theorem readPort_writePorts (s : State) (f g : PortFile) (vs : List Word) (k : Nat) :
    readPort (writePorts s f vs) g k =
      if g = f ∧ k < vs.length then elementAt vs k else readPort s g k := by
  have hr : (writePorts s f vs).resets = s.resets := by cases f <;> rfl
  have hp : portStore (writePorts s f vs) g =
      if g = f then storePutAll (portStore s f) 0 vs else portStore s g := by
    cases f <;> cases g <;> rfl
  simp only [readPort, hr, hp]
  by_cases hg : g = f
  · subst hg
    simp only [if_true, true_and, storeGet_storePutAll, Nat.zero_le, Nat.zero_add, Nat.sub_zero]
    by_cases hk : k < vs.length
    · simp [hk, elementAt, List.getD_eq_getElem?_getD]
    · simp [hk]
  · simp [hg]

/-- Reading a data port after one write. -/
theorem readPort_writePort (s : State) (f g : PortFile) (k j : Nat) (v : Word) :
    readPort (writePort s f k v) g j = if g = f ∧ j = k then v else readPort s g j := by
  have hr : (writePort s f k v).resets = s.resets := by cases f <;> rfl
  have hp : portStore (writePort s f k v) g =
      if g = f then storePut (portStore s f) k v else portStore s g := by
    cases f <;> cases g <;> rfl
  simp only [readPort, hr, hp]
  by_cases hg : g = f
  · subst hg
    simp only [if_true, true_and, storeGet_storePut]
    by_cases hk : j = k <;> simp [hk]
  · simp [hg]

/-- All elements of a file: element `k` of the list is the port. -/
theorem elementAt_readPorts (s : State) (f : PortFile) (k : Nat) (h : k < 64) :
    elementAt (readPorts s f) k = readPort s f k := by
  simp [elementAt, readPorts, List.getD_eq_getElem?_getD, h]

@[simp] theorem readPorts_length (s : State) (f : PortFile) : (readPorts s f).length = 64 := by
  simp [readPorts]

/-- What a port reads depends on its file and the count of resets only. -/
theorem readPort_congr {s t : State} (f : PortFile) (k : Nat) (h : portStore t f = portStore s f)
    (hr : t.resets = s.resets) : readPort t f k = readPort s f k := by
  simp [readPort, h, hr]

end Sys2Proof.Machine
end

