-- ==== Sys2Proof/Laws/Config.lean ====
section
/-! SUPPORT. The build behind the reset state is legal, whatever the OPEN parameters are. -/

namespace Sys2Proof

/-- A number by its finite fields is a finite pattern. -/
theorem FiniteBits.word_finite (f : FiniteBits) : finiteWord f.word = true := by
  have h1 := f.exponent.isLt
  have h2 := f.fraction.isLt
  simp only [finiteWord, FiniteBits.word, BitVec.toNat_ofNat, bne_iff_ne, ne_eq]
  split <;> omega

theorem rotation_legal (f : Nat → Nat → FiniteBits) : rotationTable (Config.rotation f) := by
  refine ⟨by simp [Config.rotation], fun row h => ?_⟩
  simp only [Config.rotation, List.mem_map, List.mem_range] at h
  obtain ⟨k, -, rfl⟩ := h
  refine ⟨by simp, fun w hw => ?_⟩
  simp only [List.mem_map, List.mem_range] at hw
  obtain ⟨n, -, rfl⟩ := hw
  exact FiniteBits.word_finite _

theorem tree_len_le (t : TreeName) : (Config.tree t).len ≤ 65535 := by
  have := (Config.treeLenLessOne t).isLt
  simp only [Tree.len, Config.tree, List.length_map, List.length_range]
  omega

/-- The build of the reset state is legal (R7). -/
theorem Config.build_legal : Config.build.Legal := by
  have hj := Config.qmfBlocksLessOne.isLt
  refine ⟨by decide, ?_, by decide, by decide, ⟨?_, ?_⟩, ?_, ?_⟩
  · simp only [Config.build]; omega
  · simp [Config.build, Build.qmfL]
  · intro w hw
    simp only [Config.build, List.mem_map, List.mem_range] at hw
    obtain ⟨n, -, rfl⟩ := hw
    exact FiniteBits.word_finite _
  · exact ⟨rotation_legal _, rotation_legal _, rotation_legal _, rotation_legal _⟩
  · exact ⟨tree_len_le _, tree_len_le _, tree_len_le _, tree_len_le _, tree_len_le _, tree_len_le _⟩

end Sys2Proof
end

