-- ==== Sys2Proof/Laws/Encode.lean ====
section
/-! SUPPORT. The fields of an encoded word: the opcode and the operand bits are read back from the places
`encode` puts them (R60, R61, R62). -/

namespace Sys2Proof

/-- A field of a word given as a number. -/
theorem bits_ofNat {v : Nat} (h : v < 2 ^ 32) (hi lo : Nat) :
    bits (BitVec.ofNat 32 v) hi lo = v / 2 ^ lo % 2 ^ (hi - lo + 1) := by
  rw [bits, BitVec.toNat_ofNat, Nat.mod_eq_of_lt h]

/-- The opcode field of an encoded word. -/
theorem bits_opcode {op v : Nat} (h : op < 256) (hv : v < 2 ^ 24) :
    bits (BitVec.ofNat 32 (op * 2 ^ 24 + v)) 31 24 = op := by
  rw [bits_ofNat (by omega)]
  omega

/-- An operand field of an encoded word. -/
theorem bits_operand {op v hi lo : Nat} (h : op < 256) (hv : v < 2 ^ 24) (hh : hi < 24) (hl : lo ≤ hi) :
    bits (BitVec.ofNat 32 (op * 2 ^ 24 + v)) hi lo = v / 2 ^ lo % 2 ^ (hi - lo + 1) := by
  have split : op * 2 ^ 24 = op * 2 ^ (24 - lo) * 2 ^ lo := by
    rw [Nat.mul_assoc, ← Nat.pow_add]
    congr 2
    omega
  have drop : op * 2 ^ (24 - lo) = op * 2 ^ (23 - hi) * 2 ^ (hi - lo + 1) := by
    rw [Nat.mul_assoc, ← Nat.pow_add]
    congr 2
    omega
  rw [bits_ofNat (by omega), split, Nat.add_comm, Nat.add_mul_div_right _ _ (by positivity), drop,
    Nat.add_mul_mod_self_right]

end Sys2Proof
end

