-- ==== Sys2Proof/Laws/State.lean ====
section
/-! SUPPORT. What each update of the state does to each field: one lemma per field per update, true by
unfolding the update once, so that no later proof unfolds a record update. -/

namespace Sys2Proof.Machine

variable (s : State)

/-! ### setPos -/

@[simp] theorem setPos_pos (p : Nat) : (setPos s p).pos = BitVec.ofNat 32 p := rfl
@[simp] theorem setPos_bitEnd (p : Nat) : (setPos s p).bitEnd = s.bitEnd := rfl
@[simp] theorem setPos_res (p : Nat) : (setPos s p).res = s.res := rfl
@[simp] theorem setPos_fault (p : Nat) : (setPos s p).fault = s.fault := rfl
@[simp] theorem setPos_drop (p : Nat) : (setPos s p).drop = s.drop := rfl
@[simp] theorem setPos_fcode (p : Nat) : (setPos s p).fcode = s.fcode := rfl
@[simp] theorem setPos_fcmd (p : Nat) : (setPos s p).fcmd = s.fcmd := rfl
@[simp] theorem setPos_finfo (p : Nat) : (setPos s p).finfo = s.finfo := rfl
@[simp] theorem setPos_pending (p : Nat) : (setPos s p).pending = s.pending := rfl
@[simp] theorem setPos_srstReq (p : Nat) : (setPos s p).srstReq = s.srstReq := rfl
@[simp] theorem setPos_buf (p : Nat) : (setPos s p).buf = s.buf := rfl
@[simp] theorem setPos_obuf (p : Nat) : (setPos s p).obuf = s.obuf := rfl
@[simp] theorem setPos_ts (p : Nat) : (setPos s p).ts = s.ts := rfl
@[simp] theorem setPos_xr (p : Nat) : (setPos s p).xr = s.xr := rfl
@[simp] theorem setPos_xi (p : Nat) : (setPos s p).xi = s.xi := rfl
@[simp] theorem setPos_inst (p : Nat) : (setPos s p).inst = s.inst := rfl
@[simp] theorem setPos_build (p : Nat) : (setPos s p).build = s.build := rfl
@[simp] theorem setPos_script (p : Nat) : (setPos s p).script = s.script := rfl
@[simp] theorem setPos_rdata (p : Nat) : (setPos s p).rdata = s.rdata := rfl
@[simp] theorem setPos_draws (p : Nat) : (setPos s p).draws = s.draws := rfl
@[simp] theorem setPos_resets (p : Nat) : (setPos s p).resets = s.resets := rfl

/-! ### setRes -/

@[simp] theorem setRes_pos (v : Nat) : (setRes s v).pos = s.pos := rfl
@[simp] theorem setRes_bitEnd (v : Nat) : (setRes s v).bitEnd = s.bitEnd := rfl
@[simp] theorem setRes_res (v : Nat) : (setRes s v).res = BitVec.ofNat 32 v := rfl
@[simp] theorem setRes_fault (v : Nat) : (setRes s v).fault = s.fault := rfl
@[simp] theorem setRes_drop (v : Nat) : (setRes s v).drop = s.drop := rfl
@[simp] theorem setRes_fcode (v : Nat) : (setRes s v).fcode = s.fcode := rfl
@[simp] theorem setRes_fcmd (v : Nat) : (setRes s v).fcmd = s.fcmd := rfl
@[simp] theorem setRes_finfo (v : Nat) : (setRes s v).finfo = s.finfo := rfl
@[simp] theorem setRes_pending (v : Nat) : (setRes s v).pending = s.pending := rfl
@[simp] theorem setRes_srstReq (v : Nat) : (setRes s v).srstReq = s.srstReq := rfl
@[simp] theorem setRes_buf (v : Nat) : (setRes s v).buf = s.buf := rfl
@[simp] theorem setRes_obuf (v : Nat) : (setRes s v).obuf = s.obuf := rfl
@[simp] theorem setRes_ts (v : Nat) : (setRes s v).ts = s.ts := rfl
@[simp] theorem setRes_xr (v : Nat) : (setRes s v).xr = s.xr := rfl
@[simp] theorem setRes_xi (v : Nat) : (setRes s v).xi = s.xi := rfl
@[simp] theorem setRes_inst (v : Nat) : (setRes s v).inst = s.inst := rfl
@[simp] theorem setRes_build (v : Nat) : (setRes s v).build = s.build := rfl
@[simp] theorem setRes_script (v : Nat) : (setRes s v).script = s.script := rfl
@[simp] theorem setRes_rdata (v : Nat) : (setRes s v).rdata = s.rdata := rfl
@[simp] theorem setRes_draws (v : Nat) : (setRes s v).draws = s.draws := rfl
@[simp] theorem setRes_resets (v : Nat) : (setRes s v).resets = s.resets := rfl

/-! ### setObuf -/

@[simp] theorem setObuf_pos (vs : List Byte) : (setObuf s vs).pos = s.pos := rfl
@[simp] theorem setObuf_bitEnd (vs : List Byte) : (setObuf s vs).bitEnd = s.bitEnd := rfl
@[simp] theorem setObuf_res (vs : List Byte) : (setObuf s vs).res = s.res := rfl
@[simp] theorem setObuf_fault (vs : List Byte) : (setObuf s vs).fault = s.fault := rfl
@[simp] theorem setObuf_drop (vs : List Byte) : (setObuf s vs).drop = s.drop := rfl
@[simp] theorem setObuf_fcode (vs : List Byte) : (setObuf s vs).fcode = s.fcode := rfl
@[simp] theorem setObuf_fcmd (vs : List Byte) : (setObuf s vs).fcmd = s.fcmd := rfl
@[simp] theorem setObuf_finfo (vs : List Byte) : (setObuf s vs).finfo = s.finfo := rfl
@[simp] theorem setObuf_pending (vs : List Byte) : (setObuf s vs).pending = s.pending := rfl
@[simp] theorem setObuf_srstReq (vs : List Byte) : (setObuf s vs).srstReq = s.srstReq := rfl
@[simp] theorem setObuf_buf (vs : List Byte) : (setObuf s vs).buf = s.buf := rfl
@[simp] theorem setObuf_obuf (vs : List Byte) : (setObuf s vs).obuf = storePutAll s.obuf 0 vs := rfl
@[simp] theorem setObuf_ts (vs : List Byte) : (setObuf s vs).ts = s.ts := rfl
@[simp] theorem setObuf_xr (vs : List Byte) : (setObuf s vs).xr = s.xr := rfl
@[simp] theorem setObuf_xi (vs : List Byte) : (setObuf s vs).xi = s.xi := rfl
@[simp] theorem setObuf_inst (vs : List Byte) : (setObuf s vs).inst = s.inst := rfl
@[simp] theorem setObuf_build (vs : List Byte) : (setObuf s vs).build = s.build := rfl
@[simp] theorem setObuf_script (vs : List Byte) : (setObuf s vs).script = s.script := rfl
@[simp] theorem setObuf_rdata (vs : List Byte) : (setObuf s vs).rdata = s.rdata := rfl
@[simp] theorem setObuf_draws (vs : List Byte) : (setObuf s vs).draws = s.draws := rfl
@[simp] theorem setObuf_resets (vs : List Byte) : (setObuf s vs).resets = s.resets := rfl

/-! ### setInstance -/

@[simp] theorem setInstance_pos (x : Nat) (q : Instance) : (setInstance s x q).pos = s.pos := rfl
@[simp] theorem setInstance_bitEnd (x : Nat) (q : Instance) : (setInstance s x q).bitEnd = s.bitEnd := rfl
@[simp] theorem setInstance_res (x : Nat) (q : Instance) : (setInstance s x q).res = s.res := rfl
@[simp] theorem setInstance_fault (x : Nat) (q : Instance) : (setInstance s x q).fault = s.fault := rfl
@[simp] theorem setInstance_drop (x : Nat) (q : Instance) : (setInstance s x q).drop = s.drop := rfl
@[simp] theorem setInstance_fcode (x : Nat) (q : Instance) : (setInstance s x q).fcode = s.fcode := rfl
@[simp] theorem setInstance_fcmd (x : Nat) (q : Instance) : (setInstance s x q).fcmd = s.fcmd := rfl
@[simp] theorem setInstance_finfo (x : Nat) (q : Instance) : (setInstance s x q).finfo = s.finfo := rfl
@[simp] theorem setInstance_pending (x : Nat) (q : Instance) : (setInstance s x q).pending = s.pending := rfl
@[simp] theorem setInstance_srstReq (x : Nat) (q : Instance) : (setInstance s x q).srstReq = s.srstReq := rfl
@[simp] theorem setInstance_buf (x : Nat) (q : Instance) : (setInstance s x q).buf = s.buf := rfl
@[simp] theorem setInstance_obuf (x : Nat) (q : Instance) : (setInstance s x q).obuf = s.obuf := rfl
@[simp] theorem setInstance_ts (x : Nat) (q : Instance) : (setInstance s x q).ts = s.ts := rfl
@[simp] theorem setInstance_xr (x : Nat) (q : Instance) : (setInstance s x q).xr = s.xr := rfl
@[simp] theorem setInstance_xi (x : Nat) (q : Instance) : (setInstance s x q).xi = s.xi := rfl
@[simp] theorem setInstance_inst (x : Nat) (q : Instance) : (setInstance s x q).inst = s.inst.set x q := rfl
@[simp] theorem setInstance_build (x : Nat) (q : Instance) : (setInstance s x q).build = s.build := rfl
@[simp] theorem setInstance_script (x : Nat) (q : Instance) : (setInstance s x q).script = s.script := rfl
@[simp] theorem setInstance_rdata (x : Nat) (q : Instance) : (setInstance s x q).rdata = s.rdata := rfl
@[simp] theorem setInstance_draws (x : Nat) (q : Instance) : (setInstance s x q).draws = s.draws := rfl
@[simp] theorem setInstance_resets (x : Nat) (q : Instance) : (setInstance s x q).resets = s.resets := rfl

/-! ### clearFault -/

@[simp] theorem clearFault_pos : (clearFault s).pos = s.pos := rfl
@[simp] theorem clearFault_bitEnd : (clearFault s).bitEnd = s.bitEnd := rfl
@[simp] theorem clearFault_res : (clearFault s).res = s.res := rfl
@[simp] theorem clearFault_fault : (clearFault s).fault = false := rfl
@[simp] theorem clearFault_drop : (clearFault s).drop = s.drop := rfl
@[simp] theorem clearFault_fcode : (clearFault s).fcode = 0 := rfl
@[simp] theorem clearFault_fcmd : (clearFault s).fcmd = s.fcmd := rfl
@[simp] theorem clearFault_finfo : (clearFault s).finfo = s.finfo := rfl
@[simp] theorem clearFault_pending : (clearFault s).pending = s.pending := rfl
@[simp] theorem clearFault_srstReq : (clearFault s).srstReq = s.srstReq := rfl
@[simp] theorem clearFault_buf : (clearFault s).buf = s.buf := rfl
@[simp] theorem clearFault_obuf : (clearFault s).obuf = s.obuf := rfl
@[simp] theorem clearFault_ts : (clearFault s).ts = s.ts := rfl
@[simp] theorem clearFault_xr : (clearFault s).xr = s.xr := rfl
@[simp] theorem clearFault_xi : (clearFault s).xi = s.xi := rfl
@[simp] theorem clearFault_inst : (clearFault s).inst = s.inst := rfl
@[simp] theorem clearFault_build : (clearFault s).build = s.build := rfl
@[simp] theorem clearFault_script : (clearFault s).script = s.script := rfl
@[simp] theorem clearFault_rdata : (clearFault s).rdata = s.rdata := rfl
@[simp] theorem clearFault_draws : (clearFault s).draws = s.draws := rfl
@[simp] theorem clearFault_resets : (clearFault s).resets = s.resets := rfl

/-! ### clearDrop -/

@[simp] theorem clearDrop_pos : (clearDrop s).pos = s.pos := rfl
@[simp] theorem clearDrop_bitEnd : (clearDrop s).bitEnd = s.bitEnd := rfl
@[simp] theorem clearDrop_res : (clearDrop s).res = s.res := rfl
@[simp] theorem clearDrop_fault : (clearDrop s).fault = s.fault := rfl
@[simp] theorem clearDrop_drop : (clearDrop s).drop = false := rfl
@[simp] theorem clearDrop_fcode : (clearDrop s).fcode = s.fcode := rfl
@[simp] theorem clearDrop_fcmd : (clearDrop s).fcmd = s.fcmd := rfl
@[simp] theorem clearDrop_finfo : (clearDrop s).finfo = s.finfo := rfl
@[simp] theorem clearDrop_pending : (clearDrop s).pending = s.pending := rfl
@[simp] theorem clearDrop_srstReq : (clearDrop s).srstReq = s.srstReq := rfl
@[simp] theorem clearDrop_buf : (clearDrop s).buf = s.buf := rfl
@[simp] theorem clearDrop_obuf : (clearDrop s).obuf = s.obuf := rfl
@[simp] theorem clearDrop_ts : (clearDrop s).ts = s.ts := rfl
@[simp] theorem clearDrop_xr : (clearDrop s).xr = s.xr := rfl
@[simp] theorem clearDrop_xi : (clearDrop s).xi = s.xi := rfl
@[simp] theorem clearDrop_inst : (clearDrop s).inst = s.inst := rfl
@[simp] theorem clearDrop_build : (clearDrop s).build = s.build := rfl
@[simp] theorem clearDrop_script : (clearDrop s).script = s.script := rfl
@[simp] theorem clearDrop_rdata : (clearDrop s).rdata = s.rdata := rfl
@[simp] theorem clearDrop_draws : (clearDrop s).draws = s.draws := rfl
@[simp] theorem clearDrop_resets : (clearDrop s).resets = s.resets := rfl

/-! ### dropCommand -/

@[simp] theorem dropCommand_pos : (dropCommand s).pos = s.pos := rfl
@[simp] theorem dropCommand_bitEnd : (dropCommand s).bitEnd = s.bitEnd := rfl
@[simp] theorem dropCommand_res : (dropCommand s).res = s.res := rfl
@[simp] theorem dropCommand_fault : (dropCommand s).fault = s.fault := rfl
@[simp] theorem dropCommand_drop : (dropCommand s).drop = true := rfl
@[simp] theorem dropCommand_fcode : (dropCommand s).fcode = s.fcode := rfl
@[simp] theorem dropCommand_fcmd : (dropCommand s).fcmd = s.fcmd := rfl
@[simp] theorem dropCommand_finfo : (dropCommand s).finfo = s.finfo := rfl
@[simp] theorem dropCommand_pending : (dropCommand s).pending = s.pending := rfl
@[simp] theorem dropCommand_srstReq : (dropCommand s).srstReq = s.srstReq := rfl
@[simp] theorem dropCommand_buf : (dropCommand s).buf = s.buf := rfl
@[simp] theorem dropCommand_obuf : (dropCommand s).obuf = s.obuf := rfl
@[simp] theorem dropCommand_ts : (dropCommand s).ts = s.ts := rfl
@[simp] theorem dropCommand_xr : (dropCommand s).xr = s.xr := rfl
@[simp] theorem dropCommand_xi : (dropCommand s).xi = s.xi := rfl
@[simp] theorem dropCommand_inst : (dropCommand s).inst = s.inst := rfl
@[simp] theorem dropCommand_build : (dropCommand s).build = s.build := rfl
@[simp] theorem dropCommand_script : (dropCommand s).script = s.script := rfl
@[simp] theorem dropCommand_rdata : (dropCommand s).rdata = s.rdata := rfl
@[simp] theorem dropCommand_draws : (dropCommand s).draws = s.draws := rfl
@[simp] theorem dropCommand_resets : (dropCommand s).resets = s.resets := rfl

/-! ### softReset -/

@[simp] theorem softReset_pos : (softReset s).pos = 0 := rfl
@[simp] theorem softReset_bitEnd : (softReset s).bitEnd = 0 := rfl
@[simp] theorem softReset_res : (softReset s).res = 0 := rfl
@[simp] theorem softReset_fault : (softReset s).fault = false := rfl
@[simp] theorem softReset_drop : (softReset s).drop = false := rfl
@[simp] theorem softReset_fcode : (softReset s).fcode = 0 := rfl
@[simp] theorem softReset_fcmd : (softReset s).fcmd = 0 := rfl
@[simp] theorem softReset_finfo : (softReset s).finfo = 0 := rfl
@[simp] theorem softReset_pending : (softReset s).pending = none := rfl
@[simp] theorem softReset_srstReq : (softReset s).srstReq = false := rfl
@[simp] theorem softReset_buf : (softReset s).buf = s.buf := rfl
@[simp] theorem softReset_obuf : (softReset s).obuf = s.obuf := rfl
@[simp] theorem softReset_ts : (softReset s).ts = s.ts := rfl
@[simp] theorem softReset_xr : (softReset s).xr = s.xr := rfl
@[simp] theorem softReset_xi : (softReset s).xi = s.xi := rfl
@[simp] theorem softReset_inst : (softReset s).inst = List.replicate s.build.qmfInst Instance.fresh := rfl
@[simp] theorem softReset_build : (softReset s).build = s.build := rfl
@[simp] theorem softReset_script : (softReset s).script = s.script := rfl
@[simp] theorem softReset_rdata : (softReset s).rdata = s.rdata := rfl
@[simp] theorem softReset_draws : (softReset s).draws = s.draws := rfl
@[simp] theorem softReset_resets : (softReset s).resets = s.resets := rfl

/-! ### setPortStore, writePort, writePorts -/

@[simp] theorem setPortStore_pos (f : PortFile) (m : List (Nat × Word)) : (setPortStore s f m).pos = s.pos := by cases f <;> rfl
@[simp] theorem setPortStore_bitEnd (f : PortFile) (m : List (Nat × Word)) : (setPortStore s f m).bitEnd = s.bitEnd := by cases f <;> rfl
@[simp] theorem setPortStore_res (f : PortFile) (m : List (Nat × Word)) : (setPortStore s f m).res = s.res := by cases f <;> rfl
@[simp] theorem setPortStore_fault (f : PortFile) (m : List (Nat × Word)) : (setPortStore s f m).fault = s.fault := by cases f <;> rfl
@[simp] theorem setPortStore_drop (f : PortFile) (m : List (Nat × Word)) : (setPortStore s f m).drop = s.drop := by cases f <;> rfl
@[simp] theorem setPortStore_fcode (f : PortFile) (m : List (Nat × Word)) : (setPortStore s f m).fcode = s.fcode := by cases f <;> rfl
@[simp] theorem setPortStore_fcmd (f : PortFile) (m : List (Nat × Word)) : (setPortStore s f m).fcmd = s.fcmd := by cases f <;> rfl
@[simp] theorem setPortStore_finfo (f : PortFile) (m : List (Nat × Word)) : (setPortStore s f m).finfo = s.finfo := by cases f <;> rfl
@[simp] theorem setPortStore_pending (f : PortFile) (m : List (Nat × Word)) : (setPortStore s f m).pending = s.pending := by cases f <;> rfl
@[simp] theorem setPortStore_srstReq (f : PortFile) (m : List (Nat × Word)) : (setPortStore s f m).srstReq = s.srstReq := by cases f <;> rfl
@[simp] theorem setPortStore_buf (f : PortFile) (m : List (Nat × Word)) : (setPortStore s f m).buf = s.buf := by cases f <;> rfl
@[simp] theorem setPortStore_obuf (f : PortFile) (m : List (Nat × Word)) : (setPortStore s f m).obuf = s.obuf := by cases f <;> rfl
@[simp] theorem setPortStore_inst (f : PortFile) (m : List (Nat × Word)) : (setPortStore s f m).inst = s.inst := by cases f <;> rfl
@[simp] theorem setPortStore_build (f : PortFile) (m : List (Nat × Word)) : (setPortStore s f m).build = s.build := by cases f <;> rfl
@[simp] theorem setPortStore_script (f : PortFile) (m : List (Nat × Word)) : (setPortStore s f m).script = s.script := by cases f <;> rfl
@[simp] theorem setPortStore_rdata (f : PortFile) (m : List (Nat × Word)) : (setPortStore s f m).rdata = s.rdata := by cases f <;> rfl
@[simp] theorem setPortStore_draws (f : PortFile) (m : List (Nat × Word)) : (setPortStore s f m).draws = s.draws := by cases f <;> rfl
@[simp] theorem setPortStore_resets (f : PortFile) (m : List (Nat × Word)) : (setPortStore s f m).resets = s.resets := by cases f <;> rfl

@[simp] theorem writePort_pos (f : PortFile) (k : Nat) (v : Word) : (writePort s f k v).pos = s.pos := by cases f <;> rfl
@[simp] theorem writePort_bitEnd (f : PortFile) (k : Nat) (v : Word) : (writePort s f k v).bitEnd = s.bitEnd := by cases f <;> rfl
@[simp] theorem writePort_res (f : PortFile) (k : Nat) (v : Word) : (writePort s f k v).res = s.res := by cases f <;> rfl
@[simp] theorem writePort_fault (f : PortFile) (k : Nat) (v : Word) : (writePort s f k v).fault = s.fault := by cases f <;> rfl
@[simp] theorem writePort_drop (f : PortFile) (k : Nat) (v : Word) : (writePort s f k v).drop = s.drop := by cases f <;> rfl
@[simp] theorem writePort_fcode (f : PortFile) (k : Nat) (v : Word) : (writePort s f k v).fcode = s.fcode := by cases f <;> rfl
@[simp] theorem writePort_fcmd (f : PortFile) (k : Nat) (v : Word) : (writePort s f k v).fcmd = s.fcmd := by cases f <;> rfl
@[simp] theorem writePort_finfo (f : PortFile) (k : Nat) (v : Word) : (writePort s f k v).finfo = s.finfo := by cases f <;> rfl
@[simp] theorem writePort_pending (f : PortFile) (k : Nat) (v : Word) : (writePort s f k v).pending = s.pending := by cases f <;> rfl
@[simp] theorem writePort_srstReq (f : PortFile) (k : Nat) (v : Word) : (writePort s f k v).srstReq = s.srstReq := by cases f <;> rfl
@[simp] theorem writePort_buf (f : PortFile) (k : Nat) (v : Word) : (writePort s f k v).buf = s.buf := by cases f <;> rfl
@[simp] theorem writePort_obuf (f : PortFile) (k : Nat) (v : Word) : (writePort s f k v).obuf = s.obuf := by cases f <;> rfl
@[simp] theorem writePort_inst (f : PortFile) (k : Nat) (v : Word) : (writePort s f k v).inst = s.inst := by cases f <;> rfl
@[simp] theorem writePort_build (f : PortFile) (k : Nat) (v : Word) : (writePort s f k v).build = s.build := by cases f <;> rfl
@[simp] theorem writePort_script (f : PortFile) (k : Nat) (v : Word) : (writePort s f k v).script = s.script := by cases f <;> rfl
@[simp] theorem writePort_rdata (f : PortFile) (k : Nat) (v : Word) : (writePort s f k v).rdata = s.rdata := by cases f <;> rfl
@[simp] theorem writePort_draws (f : PortFile) (k : Nat) (v : Word) : (writePort s f k v).draws = s.draws := by cases f <;> rfl
@[simp] theorem writePort_resets (f : PortFile) (k : Nat) (v : Word) : (writePort s f k v).resets = s.resets := by cases f <;> rfl

@[simp] theorem writePorts_pos (f : PortFile) (vs : List Word) : (writePorts s f vs).pos = s.pos := by cases f <;> rfl
@[simp] theorem writePorts_bitEnd (f : PortFile) (vs : List Word) : (writePorts s f vs).bitEnd = s.bitEnd := by cases f <;> rfl
@[simp] theorem writePorts_res (f : PortFile) (vs : List Word) : (writePorts s f vs).res = s.res := by cases f <;> rfl
@[simp] theorem writePorts_fault (f : PortFile) (vs : List Word) : (writePorts s f vs).fault = s.fault := by cases f <;> rfl
@[simp] theorem writePorts_drop (f : PortFile) (vs : List Word) : (writePorts s f vs).drop = s.drop := by cases f <;> rfl
@[simp] theorem writePorts_fcode (f : PortFile) (vs : List Word) : (writePorts s f vs).fcode = s.fcode := by cases f <;> rfl
@[simp] theorem writePorts_fcmd (f : PortFile) (vs : List Word) : (writePorts s f vs).fcmd = s.fcmd := by cases f <;> rfl
@[simp] theorem writePorts_finfo (f : PortFile) (vs : List Word) : (writePorts s f vs).finfo = s.finfo := by cases f <;> rfl
@[simp] theorem writePorts_pending (f : PortFile) (vs : List Word) : (writePorts s f vs).pending = s.pending := by cases f <;> rfl
@[simp] theorem writePorts_srstReq (f : PortFile) (vs : List Word) : (writePorts s f vs).srstReq = s.srstReq := by cases f <;> rfl
@[simp] theorem writePorts_buf (f : PortFile) (vs : List Word) : (writePorts s f vs).buf = s.buf := by cases f <;> rfl
@[simp] theorem writePorts_obuf (f : PortFile) (vs : List Word) : (writePorts s f vs).obuf = s.obuf := by cases f <;> rfl
@[simp] theorem writePorts_inst (f : PortFile) (vs : List Word) : (writePorts s f vs).inst = s.inst := by cases f <;> rfl
@[simp] theorem writePorts_build (f : PortFile) (vs : List Word) : (writePorts s f vs).build = s.build := by cases f <;> rfl
@[simp] theorem writePorts_script (f : PortFile) (vs : List Word) : (writePorts s f vs).script = s.script := by cases f <;> rfl
@[simp] theorem writePorts_rdata (f : PortFile) (vs : List Word) : (writePorts s f vs).rdata = s.rdata := by cases f <;> rfl
@[simp] theorem writePorts_draws (f : PortFile) (vs : List Word) : (writePorts s f vs).draws = s.draws := by cases f <;> rfl
@[simp] theorem writePorts_resets (f : PortFile) (vs : List Word) : (writePorts s f vs).resets = s.resets := by cases f <;> rfl

@[simp] theorem portStore_ts : portStore s .ts = s.ts := rfl
@[simp] theorem setPortStore_ts_ts (m : List (Nat × Word)) : (setPortStore s .ts m).ts = m := rfl
@[simp] theorem writePort_ts_ts (k : Nat) (v : Word) : (writePort s .ts k v).ts = storePut s.ts k v := rfl
@[simp] theorem writePorts_ts_ts (vs : List Word) : (writePorts s .ts vs).ts = storePutAll s.ts 0 vs := rfl
@[simp] theorem setPortStore_ts_xr (m : List (Nat × Word)) : (setPortStore s .ts m).xr = s.xr := rfl
@[simp] theorem writePort_ts_xr (k : Nat) (v : Word) : (writePort s .ts k v).xr = s.xr := rfl
@[simp] theorem writePorts_ts_xr (vs : List Word) : (writePorts s .ts vs).xr = s.xr := rfl
@[simp] theorem setPortStore_ts_xi (m : List (Nat × Word)) : (setPortStore s .ts m).xi = s.xi := rfl
@[simp] theorem writePort_ts_xi (k : Nat) (v : Word) : (writePort s .ts k v).xi = s.xi := rfl
@[simp] theorem writePorts_ts_xi (vs : List Word) : (writePorts s .ts vs).xi = s.xi := rfl
@[simp] theorem portStore_xr : portStore s .xr = s.xr := rfl
@[simp] theorem setPortStore_xr_ts (m : List (Nat × Word)) : (setPortStore s .xr m).ts = s.ts := rfl
@[simp] theorem writePort_xr_ts (k : Nat) (v : Word) : (writePort s .xr k v).ts = s.ts := rfl
@[simp] theorem writePorts_xr_ts (vs : List Word) : (writePorts s .xr vs).ts = s.ts := rfl
@[simp] theorem setPortStore_xr_xr (m : List (Nat × Word)) : (setPortStore s .xr m).xr = m := rfl
@[simp] theorem writePort_xr_xr (k : Nat) (v : Word) : (writePort s .xr k v).xr = storePut s.xr k v := rfl
@[simp] theorem writePorts_xr_xr (vs : List Word) : (writePorts s .xr vs).xr = storePutAll s.xr 0 vs := rfl
@[simp] theorem setPortStore_xr_xi (m : List (Nat × Word)) : (setPortStore s .xr m).xi = s.xi := rfl
@[simp] theorem writePort_xr_xi (k : Nat) (v : Word) : (writePort s .xr k v).xi = s.xi := rfl
@[simp] theorem writePorts_xr_xi (vs : List Word) : (writePorts s .xr vs).xi = s.xi := rfl
@[simp] theorem portStore_xi : portStore s .xi = s.xi := rfl
@[simp] theorem setPortStore_xi_ts (m : List (Nat × Word)) : (setPortStore s .xi m).ts = s.ts := rfl
@[simp] theorem writePort_xi_ts (k : Nat) (v : Word) : (writePort s .xi k v).ts = s.ts := rfl
@[simp] theorem writePorts_xi_ts (vs : List Word) : (writePorts s .xi vs).ts = s.ts := rfl
@[simp] theorem setPortStore_xi_xr (m : List (Nat × Word)) : (setPortStore s .xi m).xr = s.xr := rfl
@[simp] theorem writePort_xi_xr (k : Nat) (v : Word) : (writePort s .xi k v).xr = s.xr := rfl
@[simp] theorem writePorts_xi_xr (vs : List Word) : (writePorts s .xi vs).xr = s.xr := rfl
@[simp] theorem setPortStore_xi_xi (m : List (Nat × Word)) : (setPortStore s .xi m).xi = m := rfl
@[simp] theorem writePort_xi_xi (k : Nat) (v : Word) : (writePort s .xi k v).xi = storePut s.xi k v := rfl
@[simp] theorem writePorts_xi_xi (vs : List Word) : (writePorts s .xi vs).xi = storePutAll s.xi 0 vs := rfl

theorem portStore_setPortStore (f g : PortFile) (m : List (Nat × Word)) :
    portStore (setPortStore s f m) g = if g = f then m else portStore s g := by
  cases f <;> cases g <;> rfl

/-! ### record, complete, hardReset -/

@[simp] theorem record_pos (c : FaultCode) (w i : Word) : (record c w i s).pos = s.pos := by
  unfold record; split <;> rfl
@[simp] theorem record_bitEnd (c : FaultCode) (w i : Word) : (record c w i s).bitEnd = s.bitEnd := by
  unfold record; split <;> rfl
@[simp] theorem record_res (c : FaultCode) (w i : Word) : (record c w i s).res = s.res := by
  unfold record; split <;> rfl
@[simp] theorem record_drop (c : FaultCode) (w i : Word) : (record c w i s).drop = s.drop := by
  unfold record; split <;> rfl
@[simp] theorem record_pending (c : FaultCode) (w i : Word) : (record c w i s).pending = s.pending := by
  unfold record; split <;> rfl
@[simp] theorem record_srstReq (c : FaultCode) (w i : Word) : (record c w i s).srstReq = s.srstReq := by
  unfold record; split <;> rfl
@[simp] theorem record_buf (c : FaultCode) (w i : Word) : (record c w i s).buf = s.buf := by
  unfold record; split <;> rfl
@[simp] theorem record_obuf (c : FaultCode) (w i : Word) : (record c w i s).obuf = s.obuf := by
  unfold record; split <;> rfl
@[simp] theorem record_ts (c : FaultCode) (w i : Word) : (record c w i s).ts = s.ts := by
  unfold record; split <;> rfl
@[simp] theorem record_xr (c : FaultCode) (w i : Word) : (record c w i s).xr = s.xr := by
  unfold record; split <;> rfl
@[simp] theorem record_xi (c : FaultCode) (w i : Word) : (record c w i s).xi = s.xi := by
  unfold record; split <;> rfl
@[simp] theorem record_inst (c : FaultCode) (w i : Word) : (record c w i s).inst = s.inst := by
  unfold record; split <;> rfl
@[simp] theorem record_build (c : FaultCode) (w i : Word) : (record c w i s).build = s.build := by
  unfold record; split <;> rfl
@[simp] theorem record_script (c : FaultCode) (w i : Word) : (record c w i s).script = s.script := by
  unfold record; split <;> rfl
@[simp] theorem record_rdata (c : FaultCode) (w i : Word) : (record c w i s).rdata = s.rdata := by
  unfold record; split <;> rfl
@[simp] theorem record_draws (c : FaultCode) (w i : Word) : (record c w i s).draws = s.draws := by
  unfold record; split <;> rfl
@[simp] theorem record_resets (c : FaultCode) (w i : Word) : (record c w i s).resets = s.resets := by
  unfold record; split <;> rfl
@[simp] theorem record_fault (c : FaultCode) (w i : Word) : (record c w i s).fault = true := by
  unfold record; split <;> simp_all
theorem record_of_fault (c : FaultCode) (w i : Word) (h : s.fault = true) : record c w i s = s := by
  simp [record, h]
theorem record_of_clear (c : FaultCode) (w i : Word) (h : s.fault = false) :
    record c w i s =
      { s with fault := true, fcode := faultCodeBits c, fcmd := w, finfo := i } := by
  simp [record, h]

@[simp] theorem complete_buf : (complete s).buf = s.buf := by
  unfold complete; split <;> rfl
@[simp] theorem complete_obuf : (complete s).obuf = s.obuf := by
  unfold complete; split <;> rfl
@[simp] theorem complete_ts : (complete s).ts = s.ts := by
  unfold complete; split <;> rfl
@[simp] theorem complete_xr : (complete s).xr = s.xr := by
  unfold complete; split <;> rfl
@[simp] theorem complete_xi : (complete s).xi = s.xi := by
  unfold complete; split <;> rfl
@[simp] theorem complete_build : (complete s).build = s.build := by
  unfold complete; split <;> rfl
@[simp] theorem complete_script : (complete s).script = s.script := by
  unfold complete; split <;> rfl
@[simp] theorem complete_rdata : (complete s).rdata = s.rdata := by
  unfold complete; split <;> rfl
@[simp] theorem complete_draws : (complete s).draws = s.draws := by
  unfold complete; split <;> rfl
@[simp] theorem complete_resets : (complete s).resets = s.resets := by
  unfold complete; split <;> rfl
@[simp] theorem complete_pending : (complete s).pending = none := by
  unfold complete; split <;> rfl
@[simp] theorem complete_srstReq : (complete s).srstReq = false := by
  unfold complete; split <;> simp_all
theorem complete_of_request (h : s.srstReq = true) :
    complete s = softReset { s with pending := none } := by simp [complete, h]
theorem complete_of_no_request (h : s.srstReq = false) :
    complete s = { s with pending := none } := by simp [complete, h]

@[simp] theorem hardReset_pos : (hardReset s).pos = 0 := rfl
@[simp] theorem hardReset_bitEnd : (hardReset s).bitEnd = 0 := rfl
@[simp] theorem hardReset_res : (hardReset s).res = 0 := rfl
@[simp] theorem hardReset_fault : (hardReset s).fault = false := rfl
@[simp] theorem hardReset_drop : (hardReset s).drop = false := rfl
@[simp] theorem hardReset_fcode : (hardReset s).fcode = 0 := rfl
@[simp] theorem hardReset_fcmd : (hardReset s).fcmd = 0 := rfl
@[simp] theorem hardReset_finfo : (hardReset s).finfo = 0 := rfl
@[simp] theorem hardReset_pending : (hardReset s).pending = none := rfl
@[simp] theorem hardReset_srstReq : (hardReset s).srstReq = false := rfl
@[simp] theorem hardReset_buf : (hardReset s).buf = [] := rfl
@[simp] theorem hardReset_obuf : (hardReset s).obuf = [] := rfl
@[simp] theorem hardReset_ts : (hardReset s).ts = [] := rfl
@[simp] theorem hardReset_xr : (hardReset s).xr = [] := rfl
@[simp] theorem hardReset_xi : (hardReset s).xi = [] := rfl
@[simp] theorem hardReset_inst : (hardReset s).inst = List.replicate s.build.qmfInst Instance.fresh := rfl
@[simp] theorem hardReset_build : (hardReset s).build = s.build := rfl
@[simp] theorem hardReset_script : (hardReset s).script = s.script := rfl
@[simp] theorem hardReset_rdata : (hardReset s).rdata = s.rdata := rfl
@[simp] theorem hardReset_draws : (hardReset s).draws = s.draws := rfl
@[simp] theorem hardReset_resets : (hardReset s).resets = s.resets + 1 := rfl

end Sys2Proof.Machine
end

