-- ==== Sys2Proof/Laws/Run.lean ====
section
/-! SUPPORT. Bodies of commands: binding, how a command's execution ends (`commitCommand`), and what the
completion of an outcome does. -/

namespace Sys2Proof.Machine

variable {α β : Type}

@[simp] theorem bind_ok (a : α) (k : α → Run β) : (Run.ok a).bind k = k a := rfl
@[simp] theorem bind_raise (c : FaultCode) (i : Word) (k : α → Run β) :
    (Run.raise c i : Run α).bind k = .raise c i := rfl
@[simp] theorem bind_stop (f : Fault) (k : α → Run β) : (Run.stop f : Run α).bind k = .stop f := rfl

/-- A bound body returns exactly when both halves do. -/
theorem bind_eq_ok (r : Run α) (k : α → Run β) (b : β) :
    r.bind k = .ok b ↔ ∃ a, r = .ok a ∧ k a = .ok b := by
  cases r <;> simp

/-- A bound body raises when its first half does, or when that returns and the second half raises. -/
theorem bind_eq_raise (r : Run α) (k : α → Run β) (c : FaultCode) (i : Word) :
    r.bind k = .raise c i ↔ r = .raise c i ∨ ∃ a, r = .ok a ∧ k a = .raise c i := by
  cases r <;> simp

/-- A bound body stops when its first half does, or when that returns and the second half stops. -/
theorem bind_eq_stop (r : Run α) (k : α → Run β) (f : Fault) :
    r.bind k = .stop f ↔ r = .stop f ∨ ∃ a, r = .ok a ∧ k a = .stop f := by
  cases r <;> simp

@[simp] theorem commitCommand_ok (w : Word) (s t : State) : commitCommand w s (.ok t) = .next t := rfl
@[simp] theorem commitCommand_raise (w : Word) (s : State) (c : FaultCode) (i : Word) :
    commitCommand w s (.raise c i) = .next (record c w i s) := rfl
@[simp] theorem commitCommand_stop (w : Word) (s : State) (f : Fault) :
    commitCommand w s (.stop f) = .fault f := rfl

/-- A command's execution gives a next state in two ways: the body's own, or the start state with the
fault recorded (R128). -/
theorem commitCommand_next (w : Word) (s t : State) (r : Run State) :
    commitCommand w s r = .next t ↔ r = .ok t ∨ ∃ c i, r = .raise c i ∧ t = record c w i s := by
  cases r <;> simp [commitCommand, eq_comm]

/-- A command's execution stops only where its body does. -/
theorem commitCommand_fault (w : Word) (s : State) (r : Run State) (f : Fault) :
    commitCommand w s r = .fault f ↔ r = .stop f := by
  cases r <;> simp [commitCommand]

/-- A command's execution is never refused. -/
@[simp] theorem commitCommand_refused (w : Word) (s : State) (r : Run State) (q : Refusal) :
    commitCommand w s r ≠ .refused q := by
  cases r <;> simp [commitCommand]

@[simp] theorem completeOutcome_next (t : State) : completeOutcome (.next t) = .next (complete t) := rfl
@[simp] theorem completeOutcome_fault (f : Fault) : completeOutcome (.fault f) = .fault f := rfl
@[simp] theorem completeOutcome_refused (q : Refusal) : completeOutcome (.refused q) = .refused q := rfl

/-- A completed outcome is a next state exactly when it comes from one. -/
theorem completeOutcome_eq_next (o : Host.Outcome State Fault Refusal) (t : State) :
    completeOutcome o = .next t ↔ ∃ u, o = .next u ∧ t = complete u := by
  cases o <;> simp [completeOutcome, eq_comm]

/-- The check of an operand: it passes exactly when the operand is legal. -/
theorem checkOperand_legal (f : OperandField) (v : Nat) : checkOperand f true v = .ok () := rfl

/-- The check of an operand outside its range (R119). -/
theorem checkOperand_illegal (f : OperandField) (v : Nat) :
    checkOperand f false v = .raise .badOperand (fieldInfo (operandFieldCode f) v) := rfl

/-- What the check of an operand answers. -/
theorem checkOperand_cases (f : OperandField) (legal : Bool) (v : Nat) :
    (legal = true ∧ checkOperand f legal v = .ok ()) ∨
    (legal = false ∧
      checkOperand f legal v = .raise .badOperand (fieldInfo (operandFieldCode f) v)) := by
  cases legal <;> simp [checkOperand]

end Sys2Proof.Machine
end

