-- ==== Sys2Proof/Laws/Stream.lean ====
section
/-! SUPPORT. The bit reads: what each can answer (R71, R77, R78, R89), that the fuel of the loops is never
felt, and that they depend only on the bits before END. -/

namespace Sys2Proof.Machine

/-- A bit is 0 or 1, and its byte has been written. -/
theorem bitAt_ok {s : State} {p b : Nat} (h : bitAt s p = .ok b) :
    b < 2 ∧ ∃ v, storeGet s.buf (p / 8) = some v ∧ b = v.toNat / 2 ^ (7 - p % 8) % 2 := by
  simp only [bitAt, bufByte] at h
  split at h <;> simp at h
  subst h
  exact ⟨Nat.mod_lt _ (by omega), _, by assumption, rfl⟩

/-- A bit read never raises. -/
theorem bitAt_not_raise (s : State) (p : Nat) (c : FaultCode) (i : Word) : bitAt s p ≠ .raise c i := by
  simp only [bitAt, bufByte]
  split <;> simp

/-- A bit read stops only at a byte nothing has written. -/
theorem bitAt_stop {s : State} {p : Nat} {f : Fault} (h : bitAt s p = .stop f) :
    f = .bufUnwritten (p / 8) ∧ storeGet s.buf (p / 8) = none := by
  simp only [bitAt, bufByte] at h
  split at h <;> simp at h
  exact ⟨h.symm, by assumption⟩

/-- The loop of ReadBits never raises. -/
theorem bitsFrom_not_raise (s : State) (n p v : Nat) (c : FaultCode) (i : Word) :
    bitsFrom s n p v ≠ .raise c i := by
  induction n generalizing p v with
  | zero => simp [bitsFrom]
  | succ n ih =>
    simp only [bitsFrom, ne_eq, bind_eq_raise, not_or]
    exact ⟨bitAt_not_raise s p c i, by rintro ⟨b, -, hb⟩; exact ih _ _ hb⟩

/-- The loop of ReadBits gives `n` more bits. -/
theorem bitsFrom_lt {s : State} {n p v r : Nat} (h : bitsFrom s n p v = .ok r) :
    v * 2 ^ n ≤ r ∧ r < (v + 1) * 2 ^ n := by
  induction n generalizing p v with
  | zero => simp only [bitsFrom, Run.ok.injEq] at h; subst h; simp
  | succ n ih =>
    simp only [bitsFrom, bind_eq_ok] at h
    obtain ⟨b, hb, hr⟩ := h
    have hlt := (bitAt_ok hb).1
    obtain ⟨h1, h2⟩ := ih hr
    rw [Nat.pow_succ]
    constructor
    · calc v * (2 ^ n * 2) = (2 * v) * 2 ^ n := by ring
        _ ≤ (2 * v + b) * 2 ^ n := Nat.mul_le_mul_right _ (by omega)
        _ ≤ r := h1
    · calc r < (2 * v + b + 1) * 2 ^ n := h2
        _ ≤ (2 * v + 2) * 2 ^ n := Nat.mul_le_mul_right _ (by omega)
        _ = (v + 1) * (2 ^ n * 2) := by ring

/-- The loop of ReadBits stops only at a byte of the read that nothing has written. -/
theorem bitsFrom_stop {s : State} {n p v : Nat} {f : Fault} (h : bitsFrom s n p v = .stop f) :
    ∃ a, p ≤ a ∧ a < p + n ∧ f = .bufUnwritten (a / 8) ∧ storeGet s.buf (a / 8) = none := by
  induction n generalizing p v with
  | zero => simp [bitsFrom] at h
  | succ n ih =>
    simp only [bitsFrom, bind_eq_stop] at h
    rcases h with h | ⟨b, -, h⟩
    · exact ⟨p, le_refl p, by omega, bitAt_stop h⟩
    · obtain ⟨a, h1, h2, h3⟩ := ih h
      exact ⟨a, by omega, by omega, h3⟩

/-- `ReadBits(n)` returns only inside END, an n-bit value (R71). -/
theorem readBits_ok {s : State} {p n v : Nat} (h : readBits s p n = .ok v) :
    p + n ≤ s.bitEnd.toNat ∧ v < 2 ^ n := by
  simp only [readBits] at h
  split at h
  · simp at h
  · have := (bitsFrom_lt h).2
    exact ⟨by omega, by simpa using this⟩

/-- `ReadBits(n)` raises exactly BIT_UNDERRUN, exactly when it would pass END (R71). -/
theorem readBits_raise {s : State} {p n : Nat} {c : FaultCode} {i : Word} :
    readBits s p n = .raise c i ↔
      s.bitEnd.toNat < p + n ∧ c = .bitUnderrun ∧ i = underrunInfo s p := by
  simp only [readBits]
  split
  · simp_all [eq_comm]
  · simp only [bitsFrom_not_raise, false_iff]; omega

/-- `ReadBits(n)` stops only at a byte before END that nothing has written (R32). -/
theorem readBits_stop {s : State} {p n : Nat} {f : Fault} (h : readBits s p n = .stop f) :
    ∃ a, p ≤ a ∧ a < p + n ∧ a < s.bitEnd.toNat ∧ f = .bufUnwritten (a / 8) ∧
      storeGet s.buf (a / 8) = none := by
  simp only [readBits] at h
  split at h
  · simp at h
  · obtain ⟨a, h1, h2, h3⟩ := bitsFrom_stop h
    exact ⟨a, h1, h2, by omega, h3⟩

/-- The loop of VarBits as R78 writes it: any fuel of at least the bits left gives the same, so one turn
of the loop leads to the loop again. -/
theorem varBitsFrom_fuel (s : State) (n p v f g : Nat) (hf : s.bitEnd.toNat - p ≤ f)
    (hg : s.bitEnd.toNat - p ≤ g) : varBitsFrom s n f p v = varBitsFrom s n g p v := by
  have short : ∀ (k p v : Nat), s.bitEnd.toNat - p = 0 →
      varBitsFrom s n k p v = .raise .bitUnderrun (underrunInfo s p) := by
    intro k p v hk
    cases k with
    | zero => rfl
    | succ k =>
      simp only [varBitsFrom]
      cases hr : readBits s p n with
      | raise c i =>
        obtain ⟨-, rfl, rfl⟩ := readBits_raise.mp hr
        rfl
      | stop q =>
        obtain ⟨a, h1, h2, h3, -⟩ := readBits_stop hr
        omega
      | ok w =>
        obtain ⟨h1, -⟩ := readBits_ok hr
        have h3 : n = 0 := by omega
        subst h3
        have h2 : readBits s (p + 0) 1 = .raise .bitUnderrun (underrunInfo s p) :=
          readBits_raise.mpr ⟨by omega, rfl, rfl⟩
        rw [bind_ok, h2, bind_raise]
  induction f generalizing p v g with
  | zero => rw [short 0 p v (by omega), short g p v (by omega)]
  | succ f ih =>
    cases g with
    | zero => rw [short (f + 1) p v (by omega), short 0 p v (by omega)]
    | succ g =>
      simp only [varBitsFrom]
      congr 1; funext w
      congr 1; funext m
      split
      · rfl
      · split
        · rfl
        · exact ih _ _ _ (by omega) (by omega)

/-- The loop of `VarBits(n)` (R78): read a group, read a continuation bit, and return, fault or go on. -/
theorem varBitsFrom_loop (s : State) (n p v : Nat) :
    varBitsFrom s n (s.bitEnd.toNat - p) p v =
      (readBits s p n).bind fun g =>
      (readBits s (p + n) 1).bind fun more =>
        if more = 0 then .ok (v + g, p + n + 1)
        else if 2 ^ 32 ≤ (v + g) * 2 ^ n + 2 ^ n then
          .raise .varlenOverflow (BitVec.ofNat 32 (p + n + 1))
        else varBitsFrom s n (s.bitEnd.toNat - (p + n + 1)) (p + n + 1) ((v + g) * 2 ^ n + 2 ^ n) := by
  rw [varBitsFrom_fuel s n p v _ (s.bitEnd.toNat - p + 1) (le_refl _) (by omega)]
  simp only [varBitsFrom]
  congr 1; funext g
  congr 1; funext more
  rw [varBitsFrom_fuel s n (p + n + 1) _ (s.bitEnd.toNat - p) (s.bitEnd.toNat - (p + n + 1))
    (by omega) (le_refl _)]

/-- `VarBits(n)` returns with the cursor moved and inside END. -/
theorem varBitsFrom_ok {s : State} {n f p v : Nat} {r : Nat × Nat}
    (h : varBitsFrom s n f p v = .ok r) : p < r.2 ∧ r.2 ≤ s.bitEnd.toNat := by
  induction f generalizing p v with
  | zero => simp [varBitsFrom] at h
  | succ f ih =>
    simp only [varBitsFrom, bind_eq_ok] at h
    obtain ⟨g, hg, m, hm, h⟩ := h
    have hm' := (readBits_ok hm).1
    split at h
    · simp only [Run.ok.injEq] at h; subst h; simp only; omega
    · split at h
      · simp at h
      · have := ih h; omega

/-- `VarBits(n)` raises BIT_UNDERRUN or VARLEN_OVERFLOW only. -/
theorem varBitsFrom_raise {s : State} {n f p v : Nat} {c : FaultCode} {i : Word}
    (h : varBitsFrom s n f p v = .raise c i) : c = .bitUnderrun ∨ c = .varlenOverflow := by
  induction f generalizing p v with
  | zero => simp only [varBitsFrom, Run.raise.injEq] at h; exact .inl h.1.symm
  | succ f ih =>
    simp only [varBitsFrom, bind_eq_raise] at h
    rcases h with h | ⟨g, -, h | ⟨m, -, h⟩⟩
    · exact .inl (readBits_raise.mp h).2.1
    · exact .inl (readBits_raise.mp h).2.1
    · split at h
      · simp at h
      · split at h
        · simp only [Run.raise.injEq] at h; exact .inr h.1.symm
        · exact ih h

/-- `VarBits(n)` stops only at a byte before END that nothing has written. -/
theorem varBitsFrom_stop {s : State} {n f p v : Nat} {q : Fault}
    (h : varBitsFrom s n f p v = .stop q) :
    ∃ a, a < s.bitEnd.toNat ∧ q = .bufUnwritten (a / 8) ∧ storeGet s.buf (a / 8) = none := by
  induction f generalizing p v with
  | zero => simp [varBitsFrom] at h
  | succ f ih =>
    simp only [varBitsFrom, bind_eq_stop] at h
    rcases h with h | ⟨g, -, h | ⟨m, -, h⟩⟩
    · obtain ⟨a, -, -, h⟩ := readBits_stop h; exact ⟨a, h⟩
    · obtain ⟨a, -, -, h⟩ := readBits_stop h; exact ⟨a, h⟩
    · split at h
      · simp at h
      · split at h
        · simp at h
        · exact ih h

/-- READBYTES reads `c` bytes. -/
theorem bytesFrom_length {s : State} {c p : Nat} {vs : List Byte} (h : bytesFrom s c p = .ok vs) :
    vs.length = c := by
  induction c generalizing p vs with
  | zero => simp only [bytesFrom, Run.ok.injEq] at h; subst h; rfl
  | succ c ih =>
    simp only [bytesFrom, bind_eq_ok] at h
    obtain ⟨v, -, ws, hw, h⟩ := h
    simp only [Run.ok.injEq] at h
    subst h
    simp [ih hw]

/-- READBYTES raises only where a byte passes END. -/
theorem bytesFrom_not_raise {s : State} {c p : Nat} (hp : p + 8 * c ≤ s.bitEnd.toNat) (d : FaultCode)
    (i : Word) : bytesFrom s c p ≠ .raise d i := by
  induction c generalizing p with
  | zero => simp [bytesFrom]
  | succ c ih =>
    simp only [bytesFrom, ne_eq, bind_eq_raise, readBits_raise, not_or]
    refine ⟨by omega, ?_⟩
    rintro ⟨v, -, h | ⟨vs, -, h⟩⟩
    · exact ih (by omega) h
    · simp at h

/-- READBYTES stops only at a byte before END that nothing has written. -/
theorem bytesFrom_stop {s : State} {c p : Nat} {q : Fault} (h : bytesFrom s c p = .stop q) :
    ∃ a, a < s.bitEnd.toNat ∧ q = .bufUnwritten (a / 8) ∧ storeGet s.buf (a / 8) = none := by
  induction c generalizing p with
  | zero => simp [bytesFrom] at h
  | succ c ih =>
    simp only [bytesFrom, bind_eq_stop] at h
    rcases h with h | ⟨v, -, h | ⟨vs, -, h⟩⟩
    · obtain ⟨a, -, -, h⟩ := readBits_stop h; exact ⟨a, h⟩
    · exact ih h
    · simp at h

/-- `HuffDecode` returns with the cursor moved and inside END. -/
theorem huffFrom_ok {s : State} {t : Tree} {left node p : Nat} {r : Nat × Nat}
    (h : huffFrom s t left node p = .ok r) :
    p < r.2 ∧ r.2 ≤ p + left ∧ r.2 ≤ s.bitEnd.toNat ∧ r.1 < 2 ^ 16 := by
  induction left generalizing node p with
  | zero => simp [huffFrom] at h
  | succ left ih =>
    simp only [huffFrom] at h
    split at h
    · simp at h
    · simp only [bind_eq_ok] at h
      obtain ⟨b, hb, h⟩ := h
      have hb' := (readBits_ok hb).1
      split at h
      · simp only [Run.ok.injEq] at h; subst h
        exact ⟨by simp, by simp only; omega, hb', (~~~(entryChild _ b)).isLt⟩
      · have := ih h; omega

/-- `HuffDecode` stops only at a byte before END that nothing has written. -/
theorem huffFrom_stop {s : State} {t : Tree} {left node p : Nat} {q : Fault}
    (h : huffFrom s t left node p = .stop q) :
    ∃ a, a < s.bitEnd.toNat ∧ q = .bufUnwritten (a / 8) ∧ storeGet s.buf (a / 8) = none := by
  induction left generalizing node p with
  | zero => simp [huffFrom] at h
  | succ left ih =>
    simp only [huffFrom] at h
    split at h
    · simp at h
    · simp only [bind_eq_stop] at h
      rcases h with h | ⟨b, -, h⟩
      · obtain ⟨a, -, -, h⟩ := readBits_stop h; exact ⟨a, h⟩
      · split at h
        · simp at h
        · exact ih h

end Sys2Proof.Machine
end

