-- ==== Sys2Proof/Laws/Exec.lean ====
section
/-! SUPPORT. Everything the execution of a command can do, said once: it commits a body, its next state is
the recorded fault or the command's own effect, and it stops only at a byte nothing has written. -/

namespace Sys2Proof.Machine

/-- Every command is a body committed under its own word. -/
theorem exec_commits (i : Instr) (s : State) :
    ∃ r : Run State, exec i s = commitCommand (encode i) s r := by
  cases i <;>
    simp only [exec, execNop, execRead, execPeek, execReadbit, execSkip, execReadbytes, execVarlen,
      execEscf, execEscv, execHmat, execHvec, execHidx, execLutbands, execLutchan, execQfwd,
      execQinv, execQclr] <;>
    exact ⟨_, rfl⟩

/-- No command is refused. -/
theorem exec_not_refused (i : Instr) (s : State) (r : Refusal) : exec i s ≠ .refused r := by
  obtain ⟨b, hb⟩ := exec_commits i s
  rw [hb]
  exact commitCommand_refused _ _ _ _

/-- What a command that does not fault does to the state it starts in: the destinations of each command,
and how far the cursor moves. -/
def commandEffect (i : Instr) (s t : State) : Prop :=
  match i with
  | .nop => t = s
  | .peek _ | .lutbands _ | .lutchan _ => ∃ v, t = setRes s v
  | .read _ | .readbit | .varlen _ | .escf _ _ | .escv _ _ | .hmat _ | .hvec _ | .hidx _ =>
    ∃ v p, t = setPos (setRes s v) p ∧ s.pos.toNat ≤ p ∧ p ≤ s.bitEnd.toNat
  | .skip c => t = setPos s (s.pos.toNat + c) ∧ s.pos.toNat + c ≤ s.bitEnd.toNat
  | .readbytes c =>
    c ≤ s.build.obufBytes ∧ s.pos.toNat + 8 * c ≤ s.bitEnd.toNat ∧
    ∃ vs : List Byte, vs.length = c ∧ t = setPos (setObuf s vs) (s.pos.toNat + 8 * c)
  | .qfwd x =>
    x < s.build.qmfInst ∧
    ∃ aw xr xi, aw = slideWindow s.build (readPorts s .ts) (instanceAt s x).aw ∧
      xr = forwardBands s.build s.build.rfRe aw ∧ xi = forwardBands s.build s.build.rfIm aw ∧
      t = writePorts (writePorts (setInstance s x ⟨aw, (instanceAt s x).sh⟩) .xr xr) .xi xi
  | .qinv x =>
    x < s.build.qmfInst ∧
    ∃ sh ts, sh = slideHistory s.build (readPorts s .xr) (readPorts s .xi) (instanceAt s x).sh ∧
      ts = inverseSamples s.build sh ∧
      t = writePorts (setInstance s x ⟨(instanceAt s x).aw, sh⟩) .ts ts
  | .qclr x => x < s.build.qmfInst ∧ t = setInstance s x Instance.fresh

/-- The body of an escape command ends in its sum. -/
theorem escapeSum_ok {s t : State} {v : Nat} {e : Nat × Nat} (h : escapeSum s v e = .ok t) :
    t = setPos (setRes s (v + e.1)) e.2 := by
  simp only [escapeSum] at h
  split at h
  · simp at h
  · simpa using h.symm

/-- A decoding command ends in its symbol. -/
theorem huffCommand_ok {s t : State} {tr : Tree} (h : huffCommand s tr = .ok t) :
    ∃ v p, t = setPos (setRes s v) p ∧ s.pos.toNat ≤ p ∧ p ≤ s.bitEnd.toNat := by
  simp only [huffCommand, bind_eq_ok, huffDecode] at h
  obtain ⟨r, hr, h⟩ := h
  obtain ⟨h1, -, h2, -⟩ := huffFrom_ok hr
  exact ⟨r.1, r.2, by simpa using h.symm, by omega, h2⟩

/-- A command's next state is the start state with one fault recorded under the command's word, or the
command's own effect (R121, R128). -/
theorem exec_next {i : Instr} {s t : State} (h : exec i s = .next t) :
    (∃ c info, t = record c (encode i) info s) ∨ commandEffect i s t := by
  cases i <;>
    simp only [exec, execNop, execRead, execPeek, execReadbit, execSkip, execReadbytes, execVarlen,
      execEscf, execEscv, execHmat, execHvec, execHidx, execLutbands, execLutchan, execQfwd,
      execQinv, execQclr, commitCommand_next] at h <;>
    rcases h with h | ⟨c, info, -, h⟩
  all_goals first
    | exact .inl ⟨c, info, h⟩
    | skip
  all_goals right; simp only [commandEffect]
  case nop => simpa using h.symm
  case read n =>
    simp only [bind_eq_ok] at h
    obtain ⟨-, -, v, hv, h⟩ := h
    exact ⟨v, _, by simpa using h.symm, by omega, (readBits_ok hv).1⟩
  case peek n =>
    simp only [bind_eq_ok] at h
    obtain ⟨-, -, v, hv, h⟩ := h
    exact ⟨v, by simpa using h.symm⟩
  case readbit =>
    simp only [bind_eq_ok] at h
    obtain ⟨v, hv, h⟩ := h
    exact ⟨v, _, by simpa using h.symm, by omega, (readBits_ok hv).1⟩
  case skip c =>
    split at h
    · simp at h
    · exact ⟨by simpa using h.symm, by omega⟩
  case readbytes c =>
    simp only [bind_eq_ok] at h
    obtain ⟨_, hc, h⟩ := h
    have hc' : c ≤ s.build.obufBytes := by
      by_contra hn
      simp [checkOperand, hn] at hc
    split at h
    · simp at h
    · simp only [bind_eq_ok] at h
      obtain ⟨vs, hvs, h⟩ := h
      exact ⟨hc', by omega, vs, bytesFrom_length hvs, by simpa using h.symm⟩
  case varlen n =>
    simp only [bind_eq_ok, varBits] at h
    obtain ⟨-, -, r, hr, h⟩ := h
    obtain ⟨h1, h2⟩ := varBitsFrom_ok hr
    exact ⟨r.1, r.2, by simpa using h.symm, by omega, h2⟩
  case escf n m =>
    simp only [bind_eq_ok] at h
    obtain ⟨-, -, -, -, v, hv, h⟩ := h
    have hv' := (readBits_ok hv).1
    split at h
    · simp only [bind_eq_ok] at h
      obtain ⟨e, he, h⟩ := h
      have he' := (readBits_ok he).1
      exact ⟨_, _, escapeSum_ok h, by simp only; omega, by simp only; omega⟩
    · exact ⟨v, _, by simpa using h.symm, by omega, hv'⟩
  case escv n m =>
    simp only [bind_eq_ok] at h
    obtain ⟨-, -, -, -, v, hv, h⟩ := h
    have hv' := (readBits_ok hv).1
    split at h
    · simp only [bind_eq_ok, varBits] at h
      obtain ⟨e, he, h⟩ := h
      obtain ⟨h1, h2⟩ := varBitsFrom_ok he
      exact ⟨_, _, escapeSum_ok h, by omega, h2⟩
    · exact ⟨v, _, by simpa using h.symm, by omega, hv'⟩
  case hmat x => exact huffCommand_ok h
  case hvec x => exact huffCommand_ok h
  case hidx x =>
    simp only [bind_eq_ok] at h
    obtain ⟨-, -, h⟩ := h
    exact huffCommand_ok h
  case lutbands x =>
    simp only [bind_eq_ok] at h
    obtain ⟨-, -, h⟩ := h
    exact ⟨_, by simpa using h.symm⟩
  case lutchan x =>
    simp only [bind_eq_ok] at h
    obtain ⟨-, -, h⟩ := h
    split at h
    · simp at h
    · exact ⟨_, by simpa using h.symm⟩
  case qfwd x =>
    simp only [bind_eq_ok, checkInstance] at h
    obtain ⟨_, hc, h⟩ := h
    refine ⟨?_, _, _, _, rfl, rfl, rfl, by simpa using h.symm⟩
    by_contra hn
    simp [checkOperand, hn] at hc
  case qinv x =>
    simp only [bind_eq_ok, checkInstance] at h
    obtain ⟨_, hc, h⟩ := h
    refine ⟨?_, _, _, rfl, rfl, by simpa using h.symm⟩
    by_contra hn
    simp [checkOperand, hn] at hc
  case qclr x =>
    simp only [bind_eq_ok, checkInstance] at h
    obtain ⟨_, hc, h⟩ := h
    refine ⟨?_, by simpa using h.symm⟩
    by_contra hn
    simp [checkOperand, hn] at hc

/-- The check of an operand never stops the model. -/
theorem checkOperand_not_stop (f : OperandField) (l : Bool) (v : Nat) (q : Fault) :
    checkOperand f l v ≠ .stop q := by
  cases l <;> simp [checkOperand]

/-- A command stops only at a byte before END that nothing has written (R32). -/
theorem exec_fault {i : Instr} {s : State} {f : Fault} (h : exec i s = .fault f) :
    ∃ a, a < s.bitEnd.toNat ∧ f = .bufUnwritten (a / 8) ∧ storeGet s.buf (a / 8) = none := by
  have huff : ∀ t : Tree, huffCommand s t = .stop f →
      ∃ a, a < s.bitEnd.toNat ∧ f = .bufUnwritten (a / 8) ∧ storeGet s.buf (a / 8) = none := by
    intro t ht
    simp only [huffCommand, huffDecode, bind_eq_stop, reduceCtorEq, and_false, exists_false,
      or_false] at ht
    exact huffFrom_stop ht
  have read : ∀ p n, readBits s p n = .stop f →
      ∃ a, a < s.bitEnd.toNat ∧ f = .bufUnwritten (a / 8) ∧ storeGet s.buf (a / 8) = none := by
    intro p n hr
    obtain ⟨a, -, -, h⟩ := readBits_stop hr
    exact ⟨a, h⟩
  have sum : ∀ v e, escapeSum s v e ≠ .stop f := by
    intro v e
    simp only [escapeSum]
    split <;> simp
  cases i <;>
    simp only [exec, execNop, execRead, execPeek, execReadbit, execSkip, execReadbytes, execVarlen,
      execEscf, execEscv, execHmat, execHvec, execHidx, execLutbands, execLutchan, execQfwd,
      execQinv, execQclr, commitCommand_fault, bind_eq_stop, checkOperand_not_stop, checkInstance,
      false_or, reduceCtorEq, and_false, exists_false, or_false] at h
  case read n => obtain ⟨-, -, h⟩ := h; exact read _ _ h
  case peek n => obtain ⟨-, -, h⟩ := h; exact read _ _ h
  case readbit => exact read _ _ h
  case skip c => split at h <;> simp at h
  case readbytes c =>
    obtain ⟨-, -, h⟩ := h
    split at h
    · simp at h
    · simp only [bind_eq_stop, reduceCtorEq, and_false, exists_false, or_false] at h
      exact bytesFrom_stop h
  case varlen n => obtain ⟨-, -, h⟩ := h; exact varBitsFrom_stop h
  case escf n m =>
    obtain ⟨-, -, -, -, h | ⟨v, -, h⟩⟩ := h
    · exact read _ _ h
    · split at h
      · simp only [bind_eq_stop, sum, and_false, exists_false, or_false] at h
        exact read _ _ h
      · simp at h
  case escv n m =>
    obtain ⟨-, -, -, -, h | ⟨v, -, h⟩⟩ := h
    · exact read _ _ h
    · split at h
      · simp only [bind_eq_stop, sum, and_false, exists_false, or_false, varBits] at h
        exact varBitsFrom_stop h
      · simp at h
  case hmat x => exact huff _ h
  case hvec x => exact huff _ h
  case hidx x => obtain ⟨-, -, h⟩ := h; exact huff _ h
  case lutchan x =>
    obtain ⟨-, -, h⟩ := h
    split at h <;> simp at h

end Sys2Proof.Machine
end

