-- ==== Sys2Proof/Laws/Host.lean ====
section
/-! SUPPORT. The host's turns and the step: what each can answer, said once. -/

namespace Sys2Proof.Machine

/-- A host read changes nothing of the block: it hands back a value and may draw a free word (R52). -/
theorem readReg_next {s t : State} {r : Reg} (h : readReg s r = .next t) :
    ∃ v n, t = { s with rdata := v, draws := n } := by
  simp only [readReg] at h
  split at h
  · simp only [Host.Outcome.next.injEq] at h; exact ⟨_, _, h.symm⟩
  · split at h
    · simp only [Host.Outcome.next.injEq] at h; exact ⟨_, s.draws, h.symm⟩
    · simp at h

/-- A host read stops only at a lane nothing has written (R32). -/
theorem readReg_fault {s : State} {r : Reg} {f : Fault} (h : readReg s r = .fault f) :
    (∃ b, f = .bufUnwritten b ∧ storeGet s.buf b = none) ∨
    (∃ b, f = .obufUnwritten b ∧ storeGet s.obuf b = none) := by
  have lanes : ∀ (lane : Nat → Except Fault Byte) (b : Nat) (f : Fault),
      readLanes lane b = .error f → ∃ c, lane c = .error f := by
    intro lane b f h
    simp only [readLanes] at h
    cases h0 : lane b with
    | error e => rw [h0] at h; exact ⟨b, by rw [h0]; simpa [Except.bind] using h⟩
    | ok v0 =>
      cases h1 : lane (b + 1) with
      | error e => rw [h0, h1] at h; exact ⟨b + 1, by rw [h1]; simpa [Except.bind] using h⟩
      | ok v1 =>
        cases h2 : lane (b + 2) with
        | error e => rw [h0, h1, h2] at h; exact ⟨b + 2, by rw [h2]; simpa [Except.bind] using h⟩
        | ok v2 =>
          cases h3 : lane (b + 3) with
          | error e =>
            rw [h0, h1, h2, h3] at h; exact ⟨b + 3, by rw [h3]; simpa [Except.bind] using h⟩
          | ok v3 => rw [h0, h1, h2, h3] at h; simp [Except.bind] at h
  simp only [readReg] at h
  split at h
  · simp at h
  · split at h
    · simp at h
    · rename_i e he
      simp only [Host.Outcome.fault.injEq] at h
      subst h
      cases r <;> simp only [regValue, reduceCtorEq] at he
      · obtain ⟨c, hc⟩ := lanes _ _ _ he
        simp only [bufLane] at hc
        split at hc
        · split at hc <;> simp at hc
          exact .inl ⟨c, hc.symm, by assumption⟩
        · simp at hc
      · obtain ⟨c, hc⟩ := lanes _ _ _ he
        simp only [obufLane] at hc
        split at hc
        · split at hc <;> simp at hc
          exact .inr ⟨c, hc.symm, by assumption⟩
        · simp at hc

/-- A host read whose value is defined hands it back (R16 to R26). -/
theorem readReg_value {s : State} {r : Reg} {v : Word}
    (hb : s.pending = none ∨ unspecifiedWhileBusy r = false) (hv : regValue s r = .ok v) :
    readReg s r = .next { s with rdata := v } := by
  have : (busy s && unspecifiedWhileBusy r) = false := by
    rcases hb with h | h <;> simp [busy, h]
  simp only [readReg, this, hv]
  rfl

/-- A host read of a result while BUSY = 1 draws a free word (R33). -/
theorem readReg_busy {s : State} {r : Reg} {p : Word} (hp : s.pending = some p)
    (hr : unspecifiedWhileBusy r = true) :
    readReg s r = .next { s with rdata := Config.freeWord s.draws, draws := s.draws + 1 } := by
  simp [readReg, busy, hp, hr]

/-- A host read is refused only by its shape. -/
theorem readReg_not_refused (s : State) (r : Reg) (q : Refusal) : readReg s r ≠ .refused q := by
  simp only [readReg]
  split
  · simp
  · split <;> simp

/-- The step of a host read of the right shape. -/
theorem step_hostRead {s : State} {off : Nat} {rest : List Turn}
    (h : s.script = .hostRead off 4 :: rest) (h4 : off % 4 = 0) (hl : off < 0x30000) :
    step s = readReg { s with script := rest } (regAt s.build off) := by
  simp [step, stepTurn, h, takeTurn, hostRead, accessOk, h4, hl]

/-- The step of a host write of the right shape. -/
theorem step_hostWrite {s : State} {off : Nat} {v : Word} {rest : List Turn}
    (h : s.script = .hostWrite off 4 v :: rest) (h4 : off % 4 = 0) (hl : off < 0x30000) :
    step s = .next (writeReg { s with script := rest } off v (regAt s.build off)) := by
  simp [step, stepTurn, h, takeTurn, hostWrite, accessOk, h4, hl]

/-- With no turn left the step is the engine's (R121). -/
theorem step_no_turn {s : State} (h : s.script = []) : step s = engineStep s := by
  simp [step, stepTurn, h]

/-- The step of an engine turn (R121). -/
theorem step_engine {s : State} {rest : List Turn} (h : s.script = .engine :: rest) :
    step s = engineStep { s with script := rest } := by
  simp [step, stepTurn, h, takeTurn]

/-- The engine's step with a command pending (R121). -/
theorem engineStep_pending {s : State} {w : Word} (h : s.pending = some w) :
    engineStep s = completeOutcome (execWord w s) := by
  simp [engineStep, h]

/-- A byte of BUF after a host write of its word: the lane written, the old byte elsewhere (R43). -/
theorem storeGet_bufStore (limit : Nat) (w : Word) (b count lane : Nat) (m : List Host.Cell) (i : Nat) :
    storeGet (bufStore limit w b count lane m) i =
      if b + lane ≤ i ∧ i < b + lane + count ∧ i < limit then some (laneOf w (i - b))
      else storeGet m i := by
  induction count generalizing lane m with
  | zero => simp only [bufStore]; rw [if_neg (by omega)]
  | succ count ih =>
    simp only [bufStore]
    rw [ih]
    split
    · rw [if_pos (by omega)]
    · split
      · rw [storeGet_storePut]
        split
        · rw [if_pos (by omega)]; congr 2; omega
        · rw [if_neg (by omega)]
      · rw [if_neg (by omega)]

/-- A host write of BUF keeps its canonical form (R41). -/
theorem bufStore_wf (limit : Nat) (w : Word) (b count lane : Nat) (m : List Host.Cell)
    (h : Memory.wf limit m) : Memory.wf limit (bufStore limit w b count lane m) := by
  induction count generalizing lane m with
  | zero => exact h
  | succ count ih =>
    refine ih (lane + 1) _ ?_
    split
    · exact storeWf_storePut limit m _ _ h (by assumption)
    · exact h

/-- The step answers a next state in four ways: a host read, a host write, the engine's turn, or a hardware
reset of an idle block. -/
theorem step_next {s t : State} (h : step s = .next t) :
    (∃ off bytes rest, s.script = .hostRead off bytes :: rest ∧ accessOk off bytes = true ∧
      readReg { s with script := rest } (regAt s.build off) = .next t) ∨
    (∃ off bytes v rest, s.script = .hostWrite off bytes v :: rest ∧ accessOk off bytes = true ∧
      t = writeReg { s with script := rest } off v (regAt s.build off)) ∨
    (∃ rest, (s.script = [] ∧ rest = [] ∨ s.script = .engine :: rest) ∧
      engineStep { s with script := rest } = .next t) ∨
    (∃ rest, s.script = .hardReset :: rest ∧ s.pending = none ∧
      t = hardReset { s with script := rest }) := by
  simp only [step, stepTurn] at h
  cases hs : s.script with
  | nil =>
    rw [hs] at h
    have e : ({ s with script := [] } : State) = s := by rw [← hs]
    exact .inr (.inr (.inl ⟨[], .inl ⟨rfl, rfl⟩, by rw [e]; exact h⟩))
  | cons u rest =>
    rw [hs] at h
    cases u with
    | hostRead off bytes =>
      simp only [takeTurn, hostRead] at h
      split at h
      · exact .inl ⟨off, bytes, rest, rfl, by assumption, h⟩
      · simp at h
    | hostWrite off bytes v =>
      simp only [takeTurn, hostWrite] at h
      split at h
      · simp only [Host.Outcome.next.injEq] at h
        exact .inr (.inl ⟨off, bytes, v, rest, rfl, by assumption, h.symm⟩)
      · simp at h
    | engine => exact .inr (.inr (.inl ⟨rest, .inr rfl, h⟩))
    | hardReset =>
      simp only [takeTurn, arriveReset] at h
      split at h
      · simp at h
      · simp only [Host.Outcome.next.injEq] at h
        exact .inr (.inr (.inr ⟨rest, rfl, by assumption, h.symm⟩))

/-- The engine's turn answers a next state in two ways: idle, or one command executed and completed. -/
theorem engineStep_next {s t : State} (h : engineStep s = .next t) :
    (s.pending = none ∧ t = s) ∨
    ∃ w u, s.pending = some w ∧ t = complete u ∧
      ((∃ c info, u = record c w info s) ∨
        ∃ i, decode w = .ok i ∧ exec i s = .next u) := by
  simp only [engineStep] at h
  split at h
  · simp only [Host.Outcome.next.injEq] at h; exact .inl ⟨by assumption, h.symm⟩
  · rename_i w hw
    obtain ⟨u, hu, ht⟩ := (completeOutcome_eq_next _ _).mp h
    refine .inr ⟨w, u, hw, ht, ?_⟩
    simp only [execWord] at hu
    split at hu
    · rename_i i hi
      exact .inr ⟨i, hi, hu⟩
    · simp only [commitCommand_raise, Host.Outcome.next.injEq] at hu
      exact .inl ⟨_, _, hu.symm⟩

end Sys2Proof.Machine
end

