-- ==== Sys2Proof/Laws/PerInstr.lean ====
section
/-! SUPPORT. Statements made for every instruction, one lemma per constructor: what stands in the opcode
field and below it in the word of a well-formed command (R60, R61, R63). -/

namespace Sys2Proof

/-- The word of a command whose operand bits fit below the opcode, as a number. -/
theorem encode_toNat (i : Instr) (h : operandBits i < 2 ^ 24) :
    (encode i).toNat = opcodeOf i * 2 ^ 24 + operandBits i := by
  have : opcodeOf i ≤ 0x32 := by cases i <;> simp [opcodeOf]
  simp only [encode, BitVec.toNat_ofNat]
  omega

/-- The operand bits of a well-formed command fit below the opcode. -/
theorem operandBits_lt (i : Instr) (h : i.wellFormed = true) : operandBits i < 2 ^ 24 := by
  cases i <;> simp [Instr.wellFormed] at h <;> simp only [operandBits] <;> omega

namespace Laws.OpcodeField

/-- bits[31:24] of the word of a well-formed command are its opcode, and bits[23:0] its operand bits. -/
def Statement (i : Instr) : Prop :=
  i.wellFormed = true →
    bits (encode i) 31 24 = opcodeOf i ∧ bits (encode i) 23 0 = operandBits i

theorem all (i : Instr) : Statement i := fun h => by
  have hb := operandBits_lt i h
  have ho : opcodeOf i ≤ 0x32 := by cases i <;> simp [opcodeOf]
  simp only [bits, encode_toNat i hb]
  omega

theorem nop : Statement .nop := all _
theorem read (n : Nat) : Statement (.read n) := all _
theorem peek (n : Nat) : Statement (.peek n) := all _
theorem readbit : Statement .readbit := all _
theorem skip (c : Nat) : Statement (.skip c) := all _
theorem readbytes (c : Nat) : Statement (.readbytes c) := all _
theorem varlen (n : Nat) : Statement (.varlen n) := all _
theorem escf (n m : Nat) : Statement (.escf n m) := all _
theorem escv (n m : Nat) : Statement (.escv n m) := all _
theorem hmat (x : Nat) : Statement (.hmat x) := all _
theorem hvec (x : Nat) : Statement (.hvec x) := all _
theorem hidx (x : Nat) : Statement (.hidx x) := all _
theorem lutbands (x : Nat) : Statement (.lutbands x) := all _
theorem lutchan (x : Nat) : Statement (.lutchan x) := all _
theorem qfwd (x : Nat) : Statement (.qfwd x) := all _
theorem qinv (x : Nat) : Statement (.qinv x) := all _
theorem qclr (x : Nat) : Statement (.qclr x) := all _

end Laws.OpcodeField

end Sys2Proof
end

