-- ==== Sys2Proof/Laws/Qmf.lean ====
section
/-! SUPPORT. The filter-bank commands on an instance that exists: the state each gives, written once, and
the order of a binary32 sum. -/

namespace Sys2Proof.Machine

/-- One more term goes last (R104). -/
theorem floatSum_range_succ (f : Nat → Word) (n : Nat) :
    floatSum ((List.range (n + 1)).map f) = fadd (floatSum ((List.range n).map f)) (f n) := by
  simp [floatSum, List.range_succ]

/-- An element of a list made from its index. -/
theorem elementAt_map_range (f : Nat → Word) (n k : Nat) (h : k < n) :
    elementAt ((List.range n).map f) k = f k := by
  simp [elementAt, List.getD_eq_getElem?_getD, h]

/-- The samples are slid in with the last one newest (R105 step 1). -/
theorem elementAt_reverse_readPorts (s : State) (f : PortFile) (n : Nat) (h : n < 64) :
    elementAt (readPorts s f).reverse n = readPort s f (63 - n) := by
  simp only [elementAt, List.getD_eq_getElem?_getD]
  rw [List.getElem?_reverse (by simpa using h)]
  simp [readPorts, show 64 - 1 - n < 64 by omega]

/-- The check of an instance that exists passes (R63). -/
theorem checkInstance_ok {s : State} {x : Nat} (h : x < s.build.qmfInst) :
    checkInstance s x = .ok () := by
  simp [checkInstance, checkOperand, h]

/-- The check of an instance that does not exist (R119). -/
theorem checkInstance_raise {s : State} {x : Nat} (h : s.build.qmfInst ≤ x) :
    checkInstance s x = .raise .badOperand (fieldInfo 0x04 x) := by
  simp [checkInstance, checkOperand, Nat.not_lt.mpr h, operandFieldCode]

/-- What QFWD writes: one instance, XR and XI. -/
theorem writeForward_fields (s : State) (x : Nat) (q : Instance) (re im : List Word) :
    ∃ t, writePorts (writePorts (setInstance s x q) .xr re) .xi im = t ∧
      t = { s with inst := t.inst, xr := t.xr, xi := t.xi } ∧ t.inst = s.inst.set x q ∧
      t.xr = storePutAll s.xr 0 re ∧ t.xi = storePutAll s.xi 0 im :=
  ⟨_, rfl, rfl, rfl, rfl, rfl⟩

/-- What QINV writes: one instance and TS. -/
theorem writeInverse_fields (s : State) (x : Nat) (q : Instance) (vs : List Word) :
    ∃ t, writePorts (setInstance s x q) .ts vs = t ∧ t = { s with inst := t.inst, ts := t.ts } ∧
      t.inst = s.inst.set x q ∧ t.ts = storePutAll s.ts 0 vs :=
  ⟨_, rfl, rfl, rfl, rfl⟩

/-- QFWD on an instance that exists (R105): the next state, by the fields it writes. -/
theorem execQfwd_next {s : State} {x : Nat} (h : x < s.build.qmfInst) :
    ∃ t aw, aw = slideWindow s.build (readPorts s .ts) (instanceAt s x).aw ∧
      execQfwd x s = .next t ∧ t = { s with inst := t.inst, xr := t.xr, xi := t.xi } ∧
      t.inst = s.inst.set x { instanceAt s x with aw := aw } ∧
      t.xr = storePutAll s.xr 0 (forwardBands s.build s.build.rfRe aw) ∧
      t.xi = storePutAll s.xi 0 (forwardBands s.build s.build.rfIm aw) := by
  simp only [execQfwd, checkInstance_ok h, bind_ok, commitCommand_ok]
  generalize slideWindow s.build (readPorts s .ts) (instanceAt s x).aw = aw
  obtain ⟨t, ht, h1⟩ := writeForward_fields s x { instanceAt s x with aw := aw }
    (forwardBands s.build s.build.rfRe aw) (forwardBands s.build s.build.rfIm aw)
  exact ⟨t, aw, rfl, congrArg _ ht, h1⟩

/-- QINV on an instance that exists (R106): the next state, by the fields it writes. -/
theorem execQinv_next {s : State} {x : Nat} (h : x < s.build.qmfInst) :
    ∃ t sh, sh = slideHistory s.build (readPorts s .xr) (readPorts s .xi) (instanceAt s x).sh ∧
      execQinv x s = .next t ∧ t = { s with inst := t.inst, ts := t.ts } ∧
      t.inst = s.inst.set x { instanceAt s x with sh := sh } ∧
      t.ts = storePutAll s.ts 0 (inverseSamples s.build sh) := by
  simp only [execQinv, checkInstance_ok h, bind_ok, commitCommand_ok]
  generalize slideHistory s.build (readPorts s .xr) (readPorts s .xi) (instanceAt s x).sh = sh
  obtain ⟨t, ht, h1⟩ := writeInverse_fields s x { instanceAt s x with sh := sh }
    (inverseSamples s.build sh)
  exact ⟨t, sh, rfl, congrArg _ ht, h1⟩

/-- QCLR on an instance that exists (R107). -/
theorem execQclr_next {s : State} {x : Nat} (h : x < s.build.qmfInst) :
    execQclr x s = .next (setInstance s x Instance.fresh) := by
  simp only [execQclr, checkInstance_ok h, bind_ok, commitCommand_ok]

/-- Instances after a port write. -/
@[simp] theorem instanceAt_writePorts (s : State) (f : PortFile) (vs : List Word) (y : Nat) :
    instanceAt (writePorts s f vs) y = instanceAt s y := by
  simp [instanceAt]

/-- Instances of a state whose list of instances is another's with one replaced. -/
theorem instanceAt_of_set {s t : State} {x : Nat} {q : Instance} (h : t.inst = s.inst.set x q)
    (hx : x < s.inst.length) (y : Nat) : instanceAt t y = if y = x then q else instanceAt s y := by
  have := instanceAt_setInstance s x y q
  simp only [hx, and_true] at this
  rw [← this]
  simp [instanceAt, h]

/-- Reading a port whose store was written from element 0 on. -/
theorem readPort_of_put {t : State} {f : PortFile} {m : List (Nat × Word)} {vs : List Word}
    (h : portStore t f = storePutAll m 0 vs) {k : Nat} (hk : k < vs.length) :
    readPort t f k = elementAt vs k := by
  simp [readPort, h, storeGet_storePutAll, hk, elementAt, List.getD_eq_getElem?_getD]

end Sys2Proof.Machine
end

