-- ==== Sys2Proof/Laws/Window.lean ====
section
/-! SUPPORT. The register map (R13): what each offset of the window names, and the lanes of a word (R47). -/

namespace Sys2Proof.Machine

/-- The offset of element 0 of a data-port file (R13). -/
def portBase : PortFile → Nat
  | .ts => 0x100
  | .xr => 0x200
  | .xi => 0x300

/-- The registers at the low offsets. -/
theorem regAt_low (b : Build) (off : Nat) (h : off < 0x100) : regAt b off = registerAt off := by
  simp only [regAt, h, if_true]

/-- The offset of element `k` of TS (R13). -/
theorem regAt_ts (b : Build) (k : Nat) (h : k < 64) : regAt b (0x100 + 4 * k) = .port .ts k := by
  rw [regAt, if_neg (by omega), if_pos (by omega), portAt, if_pos (by omega)]
  congr 1; omega

/-- The offset of element `k` of XR (R13). -/
theorem regAt_xr (b : Build) (k : Nat) (h : k < 64) : regAt b (0x200 + 4 * k) = .port .xr k := by
  rw [regAt, if_neg (by omega), if_pos (by omega), portAt, if_neg (by omega), if_pos (by omega)]
  congr 1; omega

/-- The offset of element `k` of XI (R13). -/
theorem regAt_xi (b : Build) (k : Nat) (h : k < 64) : regAt b (0x300 + 4 * k) = .port .xi k := by
  rw [regAt, if_neg (by omega), if_pos (by omega), portAt, if_neg (by omega), if_neg (by omega)]
  congr 1; omega

/-- Offsets inside the BUF window (R13, R41). -/
theorem regAt_buf (b : Build) (hb : b.bufBytes ≤ 65536) (off : Nat) (h0 : 0x10000 ≤ off)
    (h : off < 0x10000 + b.bufBytes) : regAt b off = .buf (off - 0x10000) := by
  rw [regAt, if_neg (by omega), if_neg (by omega), if_neg (by omega), if_pos (by omega),
    if_pos (by omega)]

/-- Offsets inside the OBUF window (R13, R41). -/
theorem regAt_obuf (b : Build) (off : Nat) (h0 : 0x20000 ≤ off) (h : off < 0x20000 + b.obufBytes) :
    regAt b off = .obuf (off - 0x20000) := by
  rw [regAt, if_neg (by omega), if_neg (by omega), if_neg (by omega), if_neg (by omega),
    if_pos (by omega)]

/-- Reserved offsets between the data ports and BUF (R13). -/
theorem regAt_reserved_mid (b : Build) (off : Nat) (h0 : 0x400 ≤ off) (h : off < 0x10000) :
    regAt b off = .reserved := by
  rw [regAt, if_neg (by omega), if_neg (by omega), if_pos (by omega)]

/-- Reserved offsets past BUF (R13, R41). -/
theorem regAt_reserved_buf (b : Build) (off : Nat) (h0 : 0x10000 + b.bufBytes ≤ off)
    (h : off < 0x20000) : regAt b off = .reserved := by
  rw [regAt, if_neg (by omega), if_neg (by omega), if_neg (by omega), if_pos (by omega),
    if_neg (by omega)]

/-- Reserved offsets past OBUF (R13, R41). -/
theorem regAt_reserved_obuf (b : Build) (off : Nat) (h0 : 0x20000 + b.obufBytes ≤ off) :
    regAt b off = .reserved := by
  rw [regAt, if_neg (by omega), if_neg (by omega), if_neg (by omega), if_neg (by omega),
    if_neg (by omega)]

/-- Reserved offsets between the registers and the data ports (R13). -/
theorem registerAt_reserved (off : Nat) (h : 0x28 ≤ off) : registerAt off = .reserved := by
  simp only [registerAt]
  split <;> first | omega | rfl

/-- An offset outside the low registers names a data port, a buffer or nothing. -/
theorem regAt_high (b : Build) (off : Nat) (h : 0x100 ≤ off) :
    (∃ f k, regAt b off = .port f k ∧ k = (off - portBase f) / 4 ∧ portBase f ≤ off) ∨
      (∃ n, regAt b off = .buf n) ∨ (∃ n, regAt b off = .obuf n) ∨ regAt b off = .reserved := by
  simp only [regAt, portAt]
  split
  · omega
  · split
    · split
      · exact .inl ⟨.ts, _, rfl, rfl, h⟩
      · split
        · exact .inl ⟨.xr, _, rfl, rfl, by simp only [portBase]; omega⟩
        · exact .inl ⟨.xi, _, rfl, rfl, by simp only [portBase]; omega⟩
    · repeat' split
      all_goals simp

/-- Only offset 0x10 names CMD (R13). -/
theorem regAt_eq_cmd {b : Build} {off : Nat} (h : regAt b off = .cmd) : off = 0x10 := by
  by_cases hl : off < 0x100
  · rw [regAt_low b off hl] at h
    revert h
    simp only [registerAt]
    split <;> simp
  · rcases regAt_high b off (by omega) with ⟨f, k, e, -⟩ | ⟨n, e⟩ | ⟨n, e⟩ | e <;> simp [e] at h

/-- Only offset 0x0C names STATUS (R13). -/
theorem regAt_eq_status {b : Build} {off : Nat} (h : regAt b off = .status) : off = 0x0C := by
  by_cases hl : off < 0x100
  · rw [regAt_low b off hl] at h
    revert h
    simp only [registerAt]
    split <;> simp
  · rcases regAt_high b off (by omega) with ⟨f, k, e, -⟩ | ⟨n, e⟩ | ⟨n, e⟩ | e <;> simp [e] at h

/-- Only offset 0x08 names CTRL (R13). -/
theorem regAt_eq_ctrl {b : Build} {off : Nat} (h : regAt b off = .ctrl) : off = 0x08 := by
  by_cases hl : off < 0x100
  · rw [regAt_low b off hl] at h
    revert h
    simp only [registerAt]
    split <;> simp
  · rcases regAt_high b off (by omega) with ⟨f, k, e, -⟩ | ⟨n, e⟩ | ⟨n, e⟩ | e <;> simp [e] at h

/-- The lanes of a word made of four lanes (R43). -/
theorem laneOf_laneWord (b0 b1 b2 b3 : Byte) :
    laneOf (laneWord b0 b1 b2 b3) 0 = b0 ∧ laneOf (laneWord b0 b1 b2 b3) 1 = b1 ∧
      laneOf (laneWord b0 b1 b2 b3) 2 = b2 ∧ laneOf (laneWord b0 b1 b2 b3) 3 = b3 := by
  have h0 := b0.isLt
  have h1 := b1.isLt
  have h2 := b2.isLt
  have h3 := b3.isLt
  have e : (laneWord b0 b1 b2 b3).toNat =
      ((b3.toNat * 2 ^ 8 + b2.toNat) * 2 ^ 8 + b1.toNat) * 2 ^ 8 + b0.toNat := by
    simp only [laneWord, BitVec.toNat_append]
    repeat rw [← Nat.shiftLeft_add_eq_or_of_lt (by omega)]
    simp only [Nat.shiftLeft_eq]
  refine ⟨?_, ?_, ?_, ?_⟩ <;> apply BitVec.eq_of_toNat_eq <;>
    simp only [laneOf, BitVec.extractLsb'_toNat, Nat.shiftRight_eq_div_pow, e] <;> omega

end Sys2Proof.Machine
end

