-- ==== Sys2Proof/Machine/Assembler.lean ====
section
/-! DEFINITION. The assembler of the spec's syntax (R68, R69): a line of text, as a list of characters, to
a command word. -/

namespace Sys2Proof.Machine

/-- Drop the spaces at the front. -/
def dropSpaces : List Char → List Char
  | [] => []
  | c :: cs => if c = ' ' then dropSpaces cs else c :: cs

/-- Drop the spaces at both ends. -/
def trimSpaces (cs : List Char) : List Char := (dropSpaces (dropSpaces cs).reverse).reverse

/-- The line before its comment (R68: a semicolon starts one). -/
def dropComment : List Char → List Char
  | [] => []
  | c :: cs => if c = ';' then [] else c :: dropComment cs

/-- Cut a text at a separator; there is always a first piece. -/
def cutAt (sep : Char) : List Char → List (List Char)
  | [] => [[]]
  | c :: cs =>
    if c = sep then [] :: cutAt sep cs
    else
      match cutAt sep cs with
      | [] => [[c]]
      | p :: ps => (c :: p) :: ps

/-- The value of a digit in base 10 or 16. -/
def digitValue (base : Nat) (c : Char) : Option Nat :=
  let v :=
    if '0'.toNat ≤ c.toNat ∧ c.toNat ≤ '9'.toNat then c.toNat - '0'.toNat
    else if 'a'.toNat ≤ c.toNat ∧ c.toNat ≤ 'f'.toNat then 10 + (c.toNat - 'a'.toNat)
    else if 'A'.toNat ≤ c.toNat ∧ c.toNat ≤ 'F'.toNat then 10 + (c.toNat - 'A'.toNat)
    else base
  if v < base then some v else none

/-- The digits of a number, most significant first. -/
def digitsValue (base : Nat) : (acc : Nat) → List Char → Option Nat
  | acc, [] => some acc
  | acc, c :: cs => (digitValue base c).bind fun d => digitsValue base (base * acc + d) cs

/-- An operand: decimal, or hexadecimal after `0x` (R68). -/
def operandValue : List Char → Option Nat
  | [] => none
  | '0' :: 'x' :: c :: cs => digitsValue 16 0 (c :: cs)
  | c :: cs => digitsValue 10 0 (c :: cs)

/-- The mnemonics without operands (R68, R69). -/
def mnemonics0 : List (List Char × Instr) :=
  [(['n', 'o', 'p'], .nop),
    (['r', 'e', 'a', 'd', 'b', 'i', 't'], .readbit),
    (['p', 'e', 'e', 'k', 'b', 'i', 't'], Pseudo.peekbit.expand),
    (['h', 'm', 'a', 't', '.', 'c'], Pseudo.hmatC.expand),
    (['h', 'm', 'a', 't', '.', 'f'], Pseudo.hmatF.expand),
    (['h', 'v', 'e', 'c', '.', 'c'], Pseudo.hvecC.expand),
    (['h', 'v', 'e', 'c', '.', 'f'], Pseudo.hvecF.expand),
    (['h', 'i', 'd', 'x', '5'], Pseudo.hidx5.expand),
    (['h', 'i', 'd', 'x', '7'], Pseudo.hidx7.expand)]

/-- The mnemonics with one operand (R68, R69). -/
def mnemonics1 : List (List Char × (Nat → Instr)) :=
  [(['r', 'e', 'a', 'd'], .read),
    (['p', 'e', 'e', 'k'], .peek),
    (['s', 'k', 'i', 'p'], .skip),
    (['r', 'e', 'a', 'd', 'b', 'y', 't', 'e', 's'], .readbytes),
    (['v', 'a', 'r', 'l', 'e', 'n'], .varlen),
    (['h', 'm', 'a', 't'], .hmat),
    (['h', 'v', 'e', 'c'], .hvec),
    (['h', 'i', 'd', 'x'], .hidx),
    (['l', 'u', 't', 'b', 'a', 'n', 'd', 's'], .lutbands),
    (['l', 'u', 't', 'c', 'h', 'a', 'n'], .lutchan),
    (['q', 'f', 'w', 'd'], .qfwd),
    (['q', 'i', 'n', 'v'], .qinv),
    (['q', 'c', 'l', 'r'], .qclr),
    (['s', 'k', 'i', 'p', 'b', 'y', 't', 'e', 's'], fun k => (Pseudo.skipbytes k).expand)]

/-- The mnemonics with two operands (R68). -/
def mnemonics2 : List (List Char × (Nat → Nat → Instr)) :=
  [(['e', 's', 'c', 'f'], .escf), (['e', 's', 'c', 'v'], .escv)]

/-- The entry of a mnemonic table. -/
def lookupMnemonic {α : Type} (name : List Char) : List (List Char × α) → Option α
  | [] => none
  | (n, a) :: rest => if n = name then some a else lookupMnemonic name rest

/-- The command of a mnemonic and its operands (R68, R69). -/
def commandOf (name : List Char) : List Nat → Option Instr
  | [] => lookupMnemonic name mnemonics0
  | [a] => (lookupMnemonic name mnemonics1).map fun f => f a
  | [a, b] => (lookupMnemonic name mnemonics2).map fun f => f a b
  | _ => none

/-- All the operands, or none when one is no number. -/
def operandValues : List (List Char) → Option (List Nat)
  | [] => some []
  | p :: ps =>
    (operandValue (trimSpaces p)).bind fun v => (operandValues ps).map fun vs => v :: vs

/-- The mnemonic and the operand text of a line without its comment. -/
def cutMnemonic : List Char → List Char × List Char
  | [] => ([], [])
  | c :: cs =>
    if c = ' ' then ([], dropSpaces cs)
    else ((c :: (cutMnemonic cs).1), (cutMnemonic cs).2)

/-- The command on a line; none where the line has none (R68). -/
def parseLine (line : List Char) : Option Instr :=
  let text := trimSpaces (dropComment line)
  let name := (cutMnemonic text).1
  match (cutMnemonic text).2 with
  | [] => commandOf name []
  | ops => (operandValues (cutAt ',' ops)).bind (commandOf name)

/-- The word a line assembles to (R68): refused when an operand does not fit its field. -/
def assembleLine (line : List Char) : Option Word := (parseLine line).bind assemble

end Sys2Proof.Machine
end

