-- ==== Sys2Proof/Tests/Slice0.lean ====
section
/-! SUPPORT. The model's own tests: ill-formed commands and trees, a decoded word for every command, small
steps on the test build of 95_test_vectors.md with the results that file gives, and a state that meets the
hypotheses of each statement, clause by clause. -/

namespace Sys2Proof.Tests

open Sys2Proof.Machine Sys2Proof.Claims

/-! ### The test build (95_test_vectors.md "The test build") -/

/-- An entry by its two signed children. -/
def entry (l r : Int) : Entry := ⟨BitVec.ofInt 16 l, BitVec.ofInt 16 r⟩

/-- The binary32 pattern of a whole number from 1 to 2^24. -/
def whole (n : Nat) : Word :=
  BitVec.ofNat 32 ((127 + Nat.log2 n) * 2 ^ 23 + (n * 2 ^ (23 - Nat.log2 n) - 2 ^ 23))

/-- A rotation table with one nonzero element in each row. -/
def unitRows (shift : Nat) (v : Word) : List (List Word) :=
  (List.range 64).map fun k => (List.range 128).map fun n => if n = k + shift then v else 0

/-- The malformed trees of the fault vectors. -/
def cyc : Tree := ⟨entry 0 0, []⟩
def bad : Tree := ⟨entry 5 (-1), []⟩

/-- The test build. -/
def testBuild : Build :=
  { idValue := 0, base := 0, qmfInst := 71, qmfJ := 1, bufBytes := 65536, obufBytes := 65536
    proto := (List.range 128).map fun n => whole (n + 1)
    rfRe := unitRows 0 0x3F800000#32
    rfIm := unitRows 64 0x3F800000#32
    riRe := unitRows 0 0x3F800000#32
    riIm := unitRows 64 0xBF800000#32
    matC := ⟨entry 1 (-1), [entry (-2) (-3)]⟩
    matF := ⟨entry (-6) 1, [entry (-7) (-8)]⟩
    vecC := ⟨entry (-1) (-2), []⟩
    vecF := ⟨entry 1 2, [entry (-1) (-2), entry (-3) (-4)]⟩
    idx5 := ⟨entry (-1) 1, [entry (-2) 2, entry (-3) (-4)]⟩
    idx7 := ⟨entry (-1) 1, [entry (-2) (-3)]⟩ }

/-- Consecutive cells from an address on. -/
def cells : Nat → List Nat → List Host.Cell
  | _, [] => []
  | a, b :: bs => (a, BitVec.ofNat 8 b) :: cells (a + 1) bs

/-- The test build after reset with bytes in BUF, END and POS set. -/
def stream (bytes : List Nat) (e p : Nat) : State :=
  { State.resetOf testBuild with
    buf := cells 0 bytes, bitEnd := BitVec.ofNat 32 e, pos := BitVec.ofNat 32 p }

/-- The state after a command, or the same state when it stops. -/
def after (i : Instr) (s : State) : State :=
  match exec i s with
  | .next t => t
  | .fault _ => s
  | .refused _ => s

/-- RES and POS. -/
def result (s : State) : Nat × Nat := (s.res.toNat, s.pos.toNat)

/-- FCODE, FCMD and FINFO. -/
def faultRecord (s : State) : Nat × Nat × Nat := (s.fcode.toNat, s.fcmd.toNat, s.finfo.toNat)

/-- A state of the OPEN build about to perform one turn. -/
def turn (t : Turn) : State := { State.reset with script := [t] }

/-- The same while a command is pending. -/
def busyTurn (t : Turn) : State := { turn t with pending := some 0x10000010#32 }

/-- A fresh block with command word `w` pending and the turns `rest` to come. -/
def pendingState (w : Word) (rest : List Turn) : State :=
  { State.reset with pending := some w, script := rest }

/-! ### Well-formedness -/

theorem test_illformed_read : (Instr.read 64).wellFormed = false := by decide
theorem test_illformed_peek : (Instr.peek 64).wellFormed = false := by decide
theorem test_illformed_varlen : (Instr.varlen 64).wellFormed = false := by decide
theorem test_illformed_skip : (Instr.skip 16777216).wellFormed = false := by decide
theorem test_illformed_readbytes : (Instr.readbytes 16777216).wellFormed = false := by decide
theorem test_illformed_escf :
    (Instr.escf 64 0).wellFormed = false ∧ (Instr.escf 0 64).wellFormed = false := by decide
theorem test_illformed_escv :
    (Instr.escv 64 0).wellFormed = false ∧ (Instr.escv 0 64).wellFormed = false := by decide
theorem test_illformed_x :
    (Instr.hmat 256).wellFormed = false ∧ (Instr.hvec 256).wellFormed = false ∧
    (Instr.hidx 256).wellFormed = false ∧ (Instr.lutbands 256).wellFormed = false ∧
    (Instr.lutchan 256).wellFormed = false ∧ (Instr.qfwd 256).wellFormed = false ∧
    (Instr.qinv 256).wellFormed = false ∧ (Instr.qclr 256).wellFormed = false := by decide
theorem test_illformed_trees : cyc.wellFormed = false ∧ bad.wellFormed = false := by decide
theorem test_wellformed_trees :
    testBuild.matC.wellFormed = true ∧ testBuild.matF.wellFormed = true ∧
    testBuild.vecC.wellFormed = true ∧ testBuild.vecF.wellFormed = true ∧
    testBuild.idx5.wellFormed = true ∧ testBuild.idx7.wellFormed = true := by decide

/-! ### Decoding: a word for every command, from the tables of 95_test_vectors.md part 2.1 -/

theorem test_decode_nop : decode 0x00000000#32 = .ok .nop := by decide
theorem test_decode_read : decode 0x10000010#32 = .ok (.read 16) := by decide
theorem test_decode_peek : decode 0x11000008#32 = .ok (.peek 8) := by decide
theorem test_decode_readbit : decode 0x12000000#32 = .ok .readbit := by decide
theorem test_decode_skip : decode 0x13FFFFFF#32 = .ok (.skip 16777215) := by decide
theorem test_decode_readbytes : decode 0x14010000#32 = .ok (.readbytes 65536) := by decide
theorem test_decode_varlen : decode 0x1500000B#32 = .ok (.varlen 11) := by decide
theorem test_decode_escf : decode 0x160001C5#32 = .ok (.escf 5 7) := by decide
theorem test_decode_escv : decode 0x170000C3#32 = .ok (.escv 3 3) := by decide
theorem test_decode_hmat : decode 0x20000001#32 = .ok (.hmat 1) := by decide
theorem test_decode_hvec : decode 0x21000000#32 = .ok (.hvec 0) := by decide
theorem test_decode_hidx : decode 0x22000007#32 = .ok (.hidx 7) := by decide
theorem test_decode_lutbands : decode 0x28000007#32 = .ok (.lutbands 7) := by decide
theorem test_decode_lutchan : decode 0x29000003#32 = .ok (.lutchan 3) := by decide
theorem test_decode_qfwd : decode 0x30000000#32 = .ok (.qfwd 0) := by decide
theorem test_decode_qinv : decode 0x31000001#32 = .ok (.qinv 1) := by decide
theorem test_decode_qclr : decode 0x320000FF#32 = .ok (.qclr 255) := by decide
theorem test_decode_table_word : decodeTableWord 32 0x16000FFF = some (.escf 63 63) := by decide

/-- The reserved words of part 2.1: unknown opcodes, and a reserved-zero bit in each format. -/
theorem test_decode_reserved :
    decode 0x01000000#32 = .error (.unknownOpcode 0x01) ∧
    decode 0x00000001#32 = .error (.reservedBits 0x00) ∧
    decode 0x12000001#32 = .error (.reservedBits 0x12) ∧
    decode 0x10000061#32 = .error (.reservedBits 0x10) ∧
    decode 0x16001045#32 = .error (.reservedBits 0x16) ∧
    decode 0x20000100#32 = .error (.reservedBits 0x20) := by decide

/-- The assembler's lines `escf 5, 7`, `skipbytes 4` and the refused `read 64` (part 2.1). -/
theorem test_assemble :
    assembleLine ['e', 's', 'c', 'f', ' ', '5', ',', ' ', '7'] = some 0x160001C5#32 ∧
    assembleLine ['s', 'k', 'i', 'p', 'b', 'y', 't', 'e', 's', ' ', '4'] = some 0x13000020#32 ∧
    assembleLine ['r', 'e', 'a', 'd', ' ', '6', '4'] = none := by decide

/-! ### One command (95_test_vectors.md parts 2.2 to 2.6) -/

theorem test_nop : exec .nop State.reset = .next State.reset := rfl

theorem test_read_unaligned :
    result (after (.read 32) (stream [0x12, 0x34, 0x56, 0x78, 0x9A] 40 4)) = (0x23456789, 36) := by
  decide

theorem test_read_underrun :
    faultRecord (after (.read 8) (stream [0x58, 0x38] 16 10)) = (3, 0x10000008, 16) := by decide

theorem test_peek : result (after (.peek 8) (stream [0x58, 0x38] 16 4)) = (0x83, 4) := by decide

theorem test_readbit : result (after .readbit (stream [0x58] 8 1)) = (1, 2) := by decide

theorem test_skip_past_end : faultRecord (after (.skip 9) (stream [] 48 40)) = (3, 0x13000009, 48) := by
  decide

theorem test_skip : result (after (.skip 32) (stream [] 48 0)) = (0, 32) := by decide

theorem test_readbytes :
    (after (.readbytes 2) (stream [0x58, 0x38, 0x00] 24 4)).obuf = cells 0 [0x83, 0x80] ∧
    result (after (.readbytes 2) (stream [0x58, 0x38, 0x00] 24 4)) = (0, 20) := by decide

theorem test_readbytes_underrun :
    faultRecord (after (.readbytes 2) (stream [0x58, 0x38, 0x00] 24 12)) = (3, 0x14000002, 24) ∧
    (after (.readbytes 2) (stream [0x58, 0x38, 0x00] 24 12)).obuf = [] := by decide

theorem test_varlen : result (after (.varlen 2) (stream [0x70] 6 0)) = (10, 6) := by decide

theorem test_varlen_overflow :
    faultRecord (after (.varlen 16) (stream [0xFF, 0xFF, 0x80, 0, 0] 37 0)) = (4, 0x15000010, 17) := by
  decide

theorem test_escf : result (after (.escf 5 7) (stream [0xF8, 0x30] 12 0)) = (34, 12) := by decide

theorem test_escf_overflow :
    faultRecord (after (.escf 32 1) (stream [0xFF, 0xFF, 0xFF, 0xFF, 0x80] 33 0)) =
      (4, 0x16000060, 33) := by decide

theorem test_escv : result (after (.escv 5 5) (stream [0xF8, 0xC0] 11 0)) = (34, 11) := by decide

theorem test_escv_overflow :
    faultRecord (after (.escv 32 8) (stream [0xFF, 0xFF, 0xFF, 0xFF, 0x01, 0x00] 41 0)) =
      (4, 0x17000220, 41) := by decide

theorem test_hmat : result (after (.hmat 255) (stream [0x40] 2 0)) = (2, 2) := by decide

/-- The self-loop in place of MAT_C: one step, then the limit. -/
theorem test_hmat_no_leaf :
    faultRecord (after (.hmat 0) { stream [0x00] 1 0 with build := { testBuild with matC := cyc } }) =
      (6, 0x20000000, 0) := by decide

theorem test_hvec : result (after (.hvec 1) (stream [0x80] 2 0)) = (2, 2) := by decide

theorem test_hidx : result (after (.hidx 5) (stream [0xC0] 3 0)) = (2, 3) := by decide

theorem test_hidx_operand :
    faultRecord (after (.hidx 6) (stream [] 0 0)) = (2, 0x22000006, 0x04000006) := by decide

theorem test_lutbands : (after (.lutbands 7) State.reset).res = 23 := by decide

theorem test_lutchan : (after (.lutchan 3) State.reset).res = 5 := by decide

theorem test_lutchan_unsupported :
    faultRecord (after (.lutchan 5) State.reset) = (7, 0x29000005, 0x01000005) := by decide

/-- Every data port of the test build written with +0.0, then one element of a file replaced. -/
def ports (f : PortFile) (k : Nat) (v : Word) : State :=
  let zeros := List.replicate 64 (0 : Word)
  writePort (writePorts (writePorts (writePorts (State.resetOf testBuild) .ts zeros) .xr zeros) .xi zeros)
    f k v

/-- TS[0] = 1.0; qfwd 0: XR[63] = 64.0. -/
theorem test_qfwd : readPort (after (.qfwd 0) (ports .ts 0 0x3F800000#32)) .xr 63 = 0x42800000#32 := by
  decide +kernel

/-- TS[7] = -0.0: XI[0] is +0.0. -/
theorem test_qfwd_zero :
    readPort (after (.qfwd 0) (ports .ts 7 0x80000000#32)) .xi 0 = 0x00000000#32 := by decide +kernel

/-- A list with one element set. -/
def oneAt (len k : Nat) (v : Word) : List Word := (List.replicate len (0 : Word)).set k v

/-- XR[3] = 1.0, XI[3] = 2.0; qinv 0: SH[3] = 1.0 and SH[67] = 2.0. -/
theorem test_qinv_history :
    historyEntry testBuild (oneAt 64 3 0x3F800000#32) (oneAt 64 3 0x40000000#32) 3 = 0x3F800000#32 ∧
    historyEntry testBuild (oneAt 64 3 0x3F800000#32) (oneAt 64 3 0x40000000#32) 67 = 0x40000000#32 := by
  decide +kernel

/-- SH[3] = 1.0 and SH[195] = 2.0: TS[3] = 140.0 = 4 + 136. -/
theorem test_qinv_output :
    outputSample testBuild ((oneAt 256 3 0x3F800000#32).set 195 0x40000000#32) 3 = 0x430C0000#32 := by
  decide +kernel

/-- qinv 71 names no instance. -/
theorem test_qinv_operand :
    faultRecord (after (.qinv 71) (stream [] 0 0)) = (2, 0x31000047, 0x04000047) := by decide

theorem test_qclr :
    instanceAt (after (.qclr 70) { State.reset with inst := List.replicate 71 ⟨[1], [1]⟩ }) 70 =
      Instance.fresh := by decide

/-! ### The engine and the host (part 2.7) -/

/-- `cmd FF000000` from idle: STATUS 00000102, then the next command is dropped: STATUS 00000106. -/
theorem test_illegal_then_dropped :
    statusWord (record .illegalCmd 0xFF000000#32 0 State.reset) = 0x00000102#32 ∧
    statusWord (writeCmd 0x10000010#32 (record .illegalCmd 0xFF000000#32 0 State.reset)) =
      0x00000106#32 := by decide

/-- BUSY = 1, `w 0x018, 0x40`: FAULT 09 / FCMD 00000040 / FINFO 00000018. -/
theorem test_busy_write :
    faultRecord (writeReg (busyTurn .engine) 0x18 0x40#32 .pos) = (9, 0x40, 0x18) := by decide

/-- `w 0x10000, 0x05003858` stores 58 38 00 05. -/
theorem test_buf_lanes :
    (writeReg State.reset 0x10000 0x05003858#32 (.buf 0)).buf = cells 0 [0x58, 0x38, 0x00, 0x05] := by
  decide

/-- The step runs the placed command, and the engine is idle after it. -/
theorem test_step_runs :
    ∃ t, step ((stream [0x58, 0x38] 16 0).withFetchWord 32 0x10000010) = .next t ∧
      result t = (0x5838, 16) ∧ t.pending = none := ⟨_, rfl, by decide, rfl⟩

/-! ### Witnesses: the hypotheses of each statement can be met, clause by clause -/

theorem written_of {s : State} {p n : Nat}
    (h : ∀ k, k < n → (storeGet s.buf ((p + k) / 8)).isSome = true) : streamWritten s p n := by
  intro a h1 h2
  have := h (a - p) (by omega)
  rwa [show p + (a - p) = a by omega] at this

theorem witness_DecodeEncodeEveryCommand : (Instr.escv 63 63).wellFormed = true := by decide

theorem witness_EncodeDecodeEveryWord : decode 0x17000FFF#32 = .ok (.escv 63 63) := by decide

/-- One word for each reason of the statement. -/
theorem witness_ReservedWordsRejected :
    bits 0xFF000000#32 31 24 = 0xFF ∧ bits 0x12000001#32 23 0 ≠ 0 ∧ bits 0x10000040#32 23 6 ≠ 0 ∧
    bits 0x16001000#32 23 12 ≠ 0 ∧ bits 0x20000100#32 23 8 ≠ 0 := by decide

theorem witness_engineTurn_no_turn_left (w : Word) :
    engineTurn (pendingState w []) (pendingState w []) := .inl ⟨rfl, rfl⟩

theorem witness_engineTurn_engine_turn (w : Word) :
    engineTurn (pendingState w [.engine]) (pendingState w []) := .inr ⟨[], rfl, rfl⟩

theorem witness_StepRunsDecodedCommand_no_turn_left :
    ∃ (s u : State) (w : Word) (i : Instr), engineTurn s u ∧ s.script = [] ∧ s.pending = some w ∧
      decode w = .ok i :=
  ⟨_, _, _, _, witness_engineTurn_no_turn_left 0x10000010#32, rfl, rfl, rfl⟩

theorem witness_StepRunsDecodedCommand_engine_turn :
    ∃ (s u : State) (w : Word) (i : Instr), engineTurn s u ∧ s.script = [.engine] ∧
      s.pending = some w ∧ decode w = .ok i :=
  ⟨_, _, _, _, witness_engineTurn_engine_turn 0x10000010#32, rfl, rfl, rfl⟩

theorem witness_IllegalWordFaults :
    ∃ (s u : State) (w : Word) (r : DecodeReject), engineTurn s u ∧ s.pending = some w ∧
      decode w = .error r :=
  ⟨_, _, _, _, witness_engineTurn_engine_turn 0xFF000000#32, rfl, rfl⟩

theorem witness_IdleEngineDoesNothing : ∃ s u : State, engineTurn s u ∧ s.pending = none :=
  ⟨turn .engine, State.reset, .inr ⟨[], rfl, rfl⟩, rfl⟩

theorem witness_EveryCommandCompletes_next :
    ∃ (s u t : State) (w : Word), engineTurn s u ∧ s.pending = some w ∧ step s = .next t :=
  ⟨_, _, _, _, witness_engineTurn_engine_turn 0x12000000#32, rfl, rfl⟩

theorem witness_EveryCommandCompletes_written :
    ∃ (s u : State) (w : Word), engineTurn s u ∧ s.pending = some w ∧ endOf s = 8 ∧ dataWritten s :=
  ⟨{ stream [0x58] 8 0 with pending := some 0x12000000#32 }, _, _, .inl ⟨rfl, rfl⟩, rfl, rfl, by
    simp only [dataWritten]; decide⟩

theorem witness_CompletionAppliesSoftReset_without :
    ∃ (s u t : State) (i : Instr) (w : Word), engineTurn s u ∧ s.pending = some w ∧
      decode w = .ok i ∧ exec i u = .next t ∧ s.srstReq = false :=
  ⟨_, _, _, .readbit, _, witness_engineTurn_engine_turn 0x12000000#32, rfl, rfl, rfl, rfl⟩

theorem witness_CompletionAppliesSoftReset_with :
    ∃ (s u t : State) (i : Instr) (w : Word), engineTurn s u ∧ s.pending = some w ∧
      decode w = .ok i ∧ exec i u = .next t ∧ s.srstReq = true :=
  ⟨{ pendingState 0x12000000#32 [] with srstReq := true }, _, _, .readbit, _, .inl ⟨rfl, rfl⟩,
    rfl, rfl, rfl, rfl⟩

theorem witness_WaitReadsIdle :
    ∃ (s : State) (w : Word), s.pending = some w ∧ s.script = opWait 0 ++ [] :=
  ⟨{ State.reset with pending := some 0#32, script := opWait 0 ++ [] }, _, rfl, rfl⟩

theorem witness_FirstFaultStands :
    State.reset.fault = false ∧ (record .busyWrite 0 0 State.reset).fault = true := ⟨rfl, rfl⟩

theorem witness_FaultsArePrecise_command :
    ∃ t, exec .readbit State.reset = .next t ∧ State.reset.fault = false ∧ t.fault = true :=
  ⟨_, rfl, rfl, rfl⟩

theorem witness_FaultsArePrecise_host_write :
    ∃ s t : State, s.script = [.hostWrite 0x18 4 0x40#32] ∧ step s = .next t ∧ s.fault = false ∧
      t.fault = true :=
  ⟨busyTurn (opSeek 0x40#32), _, rfl, rfl, rfl, rfl⟩

theorem witness_ScalarCommandsFrame_keeps_cursor :
    ∃ t, exec (.peek 8) (stream [0x58, 0x38] 16 4) = .next t ∧ scalarCommand (.peek 8) = true ∧
      keepsCursor (.peek 8) = true := ⟨_, rfl, rfl, rfl⟩

theorem witness_ScalarCommandsFrame_keeps_result :
    ∃ t, exec (.skip 32) (stream [] 48 0) = .next t ∧ scalarCommand (.skip 32) = true ∧
      keepsResult (.skip 32) = true := ⟨_, rfl, rfl, rfl⟩

/-- The first index past the bytes copied. -/
theorem witness_ReadbytesFrame :
    ∃ t b, exec (.readbytes 2) (stream [0x58, 0x38, 0x00] 24 4) = .next t ∧ 2 ≤ b :=
  ⟨_, 2, rfl, le_refl 2⟩

theorem witness_FilterCommandsFrame :
    (∃ t, exec (.qfwd 70) State.reset = .next t) ∧ (∃ t, exec (.qinv 70) State.reset = .next t) ∧
    (∃ t, exec (.qclr 70) State.reset = .next t) := ⟨⟨_, rfl⟩, ⟨_, rfl⟩, ⟨_, rfl⟩⟩

/-- Operand 33; one bit past END; a read that ends exactly at END. -/
theorem witness_ReadRule :
    (∃ n : Nat, 32 < n) ∧
    (∃ n s, n ≤ 32 ∧ endOf s < cursor s + n) ∧
    ∃ n s, n ≤ 32 ∧ cursor s + n ≤ endOf s ∧ streamWritten s (cursor s) n :=
  ⟨⟨33, by decide⟩, ⟨32, stream [0x12, 0x34, 0x56, 0x78] 31 0, by decide, by decide⟩,
    32, stream [0x12, 0x34, 0x56, 0x78] 32 0, by decide, by decide, written_of (by decide)⟩

theorem witness_PeekRule :
    (∃ n : Nat, 32 < n) ∧
    (∃ n s, n ≤ 32 ∧ endOf s < cursor s + n) ∧
    ∃ n s, n ≤ 32 ∧ cursor s + n ≤ endOf s ∧ streamWritten s (cursor s) n :=
  ⟨⟨33, by decide⟩, ⟨0, stream [] 16 17, by decide, by decide⟩,
    8, stream [0x58, 0x38] 16 8, by decide, by decide, written_of (by decide)⟩

theorem witness_ReadbitRule :
    (∃ s, endOf s ≤ cursor s) ∧ ∃ s, cursor s < endOf s ∧ streamWritten s (cursor s) 1 :=
  ⟨⟨stream [0x58] 8 8, by decide⟩, stream [0x58] 8 7, by decide, written_of (by decide)⟩

theorem witness_SkipRule :
    (∃ c s, endOf s < cursor s + c) ∧ ∃ c s, cursor s + c ≤ endOf s :=
  ⟨⟨9, stream [] 48 40, by decide⟩, 8, stream [] 48 40, by decide⟩

theorem witness_ReadbytesRule :
    (∃ (c : Nat) (s : State), s.build.obufBytes < c) ∧
    (∃ (c : Nat) (s : State), c ≤ s.build.obufBytes ∧ endOf s < cursor s + 8 * c) ∧
    ∃ (c : Nat) (s : State), c ≤ s.build.obufBytes ∧ cursor s + 8 * c ≤ endOf s ∧
      streamWritten s (cursor s) (8 * c) :=
  ⟨⟨65537, State.reset, by decide⟩, ⟨2, stream [0x58, 0x38, 0x00] 24 9, by decide, by decide⟩,
    2, stream [0x58, 0x38, 0x00] 24 8, by decide, by decide, written_of (by decide)⟩

/-- Two groups of 2 bits, `01 1 10 0`: the first is continued. -/
theorem groups_two : groupsContinue (stream [0x70] 6 0) 2 0 [1] :=
  ⟨written_of (by decide), by decide, by decide, by decide, trivial⟩

theorem witness_VarlenRule_operand : 32 < 33 := by decide

theorem witness_VarlenRule_underrun :
    ∃ n s gs, n ≤ 32 ∧ groupsContinue s n (cursor s) gs ∧ accumulate n 0 gs < 2 ^ 32 ∧
      endOf s < cursor s + gs.length * (n + 1) + n + 1 ∧
      (cursor s + gs.length * (n + 1) + n ≤ endOf s →
        streamWritten s (cursor s + gs.length * (n + 1)) n) :=
  ⟨2, stream [0x70] 5 0, [1], by decide,
    ⟨written_of (by decide), by decide, by decide, by decide, trivial⟩, by decide, by decide,
    fun _ => written_of (by decide)⟩

theorem witness_VarlenRule_value :
    ∃ n s gs, n ≤ 32 ∧ groupsContinue s n (cursor s) gs ∧ accumulate n 0 gs < 2 ^ 32 ∧
      cursor s + gs.length * (n + 1) + n + 1 ≤ endOf s ∧
      streamWritten s (cursor s + gs.length * (n + 1)) (n + 1) ∧
      streamBit s (cursor s + gs.length * (n + 1) + n) = false :=
  ⟨2, stream [0x70] 6 0, [1], by decide, groups_two, by decide, by decide, written_of (by decide),
    by decide⟩

theorem witness_VarlenRule_overflow :
    ∃ n s gs, n ≤ 32 ∧ groupsContinue s n (cursor s) gs ∧ accumulate n 0 gs < 2 ^ 32 ∧
      cursor s + gs.length * (n + 1) + n + 1 ≤ endOf s ∧
      streamWritten s (cursor s + gs.length * (n + 1)) (n + 1) ∧
      streamBit s (cursor s + gs.length * (n + 1) + n) = true ∧
      2 ^ 32 ≤ (accumulate n 0 gs + streamValue s (cursor s + gs.length * (n + 1)) n) * 2 ^ n + 2 ^ n :=
  ⟨16, stream [0xFF, 0xFF, 0x80] 17 0, [], by decide, trivial, by decide, by decide,
    written_of (by decide), by decide, by decide⟩

theorem witness_VarlenCodesAreUnique :
    ∃ (n : Nat) (s : State) (gs : List Nat), 1 ≤ n ∧ n ≤ 32 ∧ groupsContinue s n (cursor s) gs ∧
      cursor s + gs.length * (n + 1) + n + 1 ≤ endOf s ∧
      streamWritten s (cursor s + gs.length * (n + 1)) (n + 1) ∧
      streamBit s (cursor s + gs.length * (n + 1) + n) = false ∧ accumulate n 0 gs < 2 ^ 32 ∧
      ∃ t', exec (.varlen n) s = .next t' ∧ t'.res = 10 :=
  ⟨2, stream [0x70] 6 0, [1], by decide, by decide, groups_two, by decide, written_of (by decide),
    by decide, by decide, _, rfl, by decide⟩

theorem witness_EscfRule_operands :
    (∃ n : Nat, n < 1 ∨ 32 < n) ∧ ∃ n m : Nat, 1 ≤ n ∧ n ≤ 32 ∧ 32 < m :=
  ⟨⟨0, by decide⟩, 32, 33, by decide, by decide, by decide⟩

theorem witness_EscfRule_underrun :
    ∃ n m s, 1 ≤ n ∧ n ≤ 32 ∧ m ≤ 32 ∧ endOf s < cursor s + n :=
  ⟨5, 32, stream [0xF8, 0x30] 4 0, by decide, by decide, by decide, by decide⟩

theorem witness_EscfRule_plain :
    ∃ n m s, 1 ≤ n ∧ n ≤ 32 ∧ m ≤ 32 ∧ cursor s + n ≤ endOf s ∧ streamWritten s (cursor s) n ∧
      streamValue s (cursor s) n ≠ 2 ^ n - 1 :=
  ⟨5, 7, stream [0xF0, 0x30] 5 0, by decide, by decide, by decide, by decide, written_of (by decide),
    by decide⟩

theorem witness_EscfRule_extension_underrun :
    ∃ n m s, 1 ≤ n ∧ n ≤ 32 ∧ m ≤ 32 ∧ cursor s + n ≤ endOf s ∧ streamWritten s (cursor s) n ∧
      streamValue s (cursor s) n = 2 ^ n - 1 ∧ endOf s < cursor s + n + m :=
  ⟨5, 7, stream [0xF8, 0x30] 11 0, by decide, by decide, by decide, by decide, written_of (by decide),
    by decide, by decide⟩

theorem witness_EscfRule_overflow :
    ∃ n m s, 1 ≤ n ∧ n ≤ 32 ∧ m ≤ 32 ∧ cursor s + n + m ≤ endOf s ∧
      streamWritten s (cursor s) (n + m) ∧ streamValue s (cursor s) n = 2 ^ n - 1 ∧
      2 ^ 32 ≤ 2 ^ n - 1 + streamValue s (cursor s + n) m :=
  ⟨32, 1, stream [0xFF, 0xFF, 0xFF, 0xFF, 0x80] 33 0, by decide, by decide, by decide, by decide,
    written_of (by decide), by decide, by decide⟩

theorem witness_EscfRule_added :
    ∃ n m s, 1 ≤ n ∧ n ≤ 32 ∧ m ≤ 32 ∧ cursor s + n + m ≤ endOf s ∧
      streamWritten s (cursor s) (n + m) ∧ streamValue s (cursor s) n = 2 ^ n - 1 ∧
      2 ^ n - 1 + streamValue s (cursor s + n) m < 2 ^ 32 :=
  ⟨32, 1, stream [0xFF, 0xFF, 0xFF, 0xFF, 0x00] 33 0, by decide, by decide, by decide, by decide,
    written_of (by decide), by decide, by decide⟩

theorem witness_EscvRule_operands :
    (∃ n : Nat, n < 1 ∨ 32 < n) ∧ ∃ n m : Nat, 1 ≤ n ∧ n ≤ 32 ∧ 32 < m :=
  ⟨⟨33, by decide⟩, 1, 33, by decide, by decide, by decide⟩

theorem witness_EscvRule_underrun :
    ∃ n m s, 1 ≤ n ∧ n ≤ 32 ∧ m ≤ 32 ∧ endOf s < cursor s + n :=
  ⟨1, 0, stream [] 0 0, by decide, by decide, by decide, by decide⟩

theorem witness_EscvRule_plain :
    ∃ n m s, 1 ≤ n ∧ n ≤ 32 ∧ m ≤ 32 ∧ cursor s + n ≤ endOf s ∧ streamWritten s (cursor s) n ∧
      streamValue s (cursor s) n ≠ 2 ^ n - 1 :=
  ⟨5, 5, stream [0xF0] 5 0, by decide, by decide, by decide, by decide, written_of (by decide),
    by decide⟩

/-- An escaped field and one group of the extension, not continued, ended by END or overflowing. -/
theorem witness_EscvRule_extension :
    (∃ n m s, 1 ≤ n ∧ n ≤ 32 ∧ m ≤ 32 ∧ cursor s + n ≤ endOf s ∧ streamWritten s (cursor s) n ∧
      streamValue s (cursor s) n = 2 ^ n - 1 ∧ groupsContinue s m (cursor s + n) [] ∧
      accumulate m 0 [] < 2 ^ 32 ∧ endOf s < cursor s + n + m + 1 ∧
      streamWritten s (cursor s + n) m) ∧
    (∃ n m s, 1 ≤ n ∧ n ≤ 32 ∧ m ≤ 32 ∧ cursor s + n + m + 1 ≤ endOf s ∧
      streamWritten s (cursor s) n ∧ streamValue s (cursor s) n = 2 ^ n - 1 ∧
      streamWritten s (cursor s + n) (m + 1) ∧ streamBit s (cursor s + n + m) = true ∧
      2 ^ 32 ≤ streamValue s (cursor s + n) m * 2 ^ m + 2 ^ m) ∧
    (∃ n m s, 1 ≤ n ∧ n ≤ 32 ∧ m ≤ 32 ∧ cursor s + n + m + 1 ≤ endOf s ∧
      streamWritten s (cursor s) n ∧ streamValue s (cursor s) n = 2 ^ n - 1 ∧
      streamWritten s (cursor s + n) (m + 1) ∧ streamBit s (cursor s + n + m) = false ∧
      2 ^ 32 ≤ 2 ^ n - 1 + streamValue s (cursor s + n) m) ∧
    ∃ n m s, 1 ≤ n ∧ n ≤ 32 ∧ m ≤ 32 ∧ cursor s + n + m + 1 ≤ endOf s ∧
      streamWritten s (cursor s) n ∧ streamValue s (cursor s) n = 2 ^ n - 1 ∧
      streamWritten s (cursor s + n) (m + 1) ∧ streamBit s (cursor s + n + m) = false ∧
      2 ^ n - 1 + streamValue s (cursor s + n) m < 2 ^ 32 :=
  ⟨⟨5, 5, stream [0xF8, 0xC0] 10 0, by decide, by decide, by decide, by decide,
      written_of (by decide), by decide, trivial, by decide, by decide, written_of (by decide)⟩,
    ⟨5, 16, stream [0xFF, 0xFF, 0xFC] 22 0, by decide, by decide, by decide, by decide,
      written_of (by decide), by decide, written_of (by decide), by decide, by decide⟩,
    ⟨32, 8, stream [0xFF, 0xFF, 0xFF, 0xFF, 0x01, 0x00] 41 0, by decide, by decide, by decide,
      by decide, written_of (by decide), by decide, written_of (by decide), by decide, by decide⟩,
    32, 8, stream [0xFF, 0xFF, 0xFF, 0xFF, 0x00, 0x00] 41 0, by decide, by decide, by decide,
      by decide, written_of (by decide), by decide, written_of (by decide), by decide, by decide⟩

/-- Two streams that differ only in the last bit of a byte END cuts. -/
theorem witness_BitsBeyondEndAreIrrelevant : sameStream (stream [0x58] 7 0) (stream [0x59] 7 0) := by
  refine ⟨rfl, fun a ha => ?_⟩
  have ha' : a < 7 := ha
  revert a
  decide

theorem witness_CursorStaysInsideEnd : ∃ t, exec (.read 16) (stream [0x58, 0x38] 16 0) = .next t :=
  ⟨_, rfl⟩

theorem witness_OnlyUnwrittenBytesStop :
    (∃ s : State, cursor s < endOf s ∧ storeGet s.buf (cursor s / 8) = none) ∧
    ∃ s : State, endOf s = 8 ∧ dataWritten s :=
  ⟨⟨stream [] 1 0, by decide, rfl⟩, stream [0x58] 8 0, rfl, by simp only [dataWritten]; decide⟩

/-- A leaf at END, no bit left, an index outside the tree, and the step limit. -/
theorem witness_HuffmanRule :
    (∃ i s t bs c, treeOf s.build i = some t ∧ streamHolds s (cursor s) bs ∧
      walkLeaf t 0 bs = some c ∧ bs.length ≤ t.len ∧ cursor s + bs.length ≤ endOf s) ∧
    (∃ i s t bs node, treeOf s.build i = some t ∧ streamHolds s (cursor s) bs ∧
      walkNode t 0 bs = some node ∧ node < t.len ∧ bs.length < t.len ∧
      (bs = [] ∨ cursor s + bs.length ≤ endOf s) ∧ endOf s ≤ cursor s + bs.length) ∧
    (∃ i s t bs node, treeOf s.build i = some t ∧ streamHolds s (cursor s) bs ∧
      walkNode t 0 bs = some node ∧ t.len ≤ node ∧ bs.length ≤ t.len ∧
      cursor s + bs.length ≤ endOf s) ∧
    ∃ i s t bs node, treeOf s.build i = some t ∧ streamHolds s (cursor s) bs ∧
      walkNode t 0 bs = some node ∧ node < t.len ∧ bs.length = t.len ∧
      cursor s + bs.length ≤ endOf s :=
  ⟨⟨.hidx 5, stream [0xE0] 3 0, _, [true, true, true], _, rfl,
      ⟨rfl, by decide, rfl, by decide, rfl, by decide, trivial⟩, rfl, by decide, by decide⟩,
    ⟨.hidx 5, stream [0xC0] 2 0, _, [true, true], _, rfl,
      ⟨rfl, by decide, rfl, by decide, trivial⟩, rfl, by decide, by decide, by decide, by decide⟩,
    ⟨.hmat 0, { stream [0x00] 1 0 with build := { testBuild with matC := bad } }, _, [false], _, rfl,
      ⟨rfl, by decide, trivial⟩, rfl, by decide, by decide, by decide⟩,
    .hmat 0, { stream [0x00] 1 0 with build := { testBuild with matC := cyc } }, _, [false], _, rfl,
      ⟨rfl, by decide, trivial⟩, rfl, by decide, by decide, by decide⟩

/-- The operand clause of HIDX, and every tree-decoding command with its tree. -/
theorem witness_HuffmanRule_commands :
    (∃ x : Nat, x ≠ 5 ∧ x ≠ 7) ∧ (treeOf testBuild (.hmat 1)).isSome = true ∧
    (treeOf testBuild (.hvec 255)).isSome = true ∧ (treeOf testBuild (.hidx 7)).isSome = true :=
  ⟨⟨6, by decide⟩, rfl, rfl, rfl⟩

theorem witness_WellFormedTreesDecode :
    ∃ i s t u, treeOf s.build i = some t ∧ t.wellFormed = true ∧ exec i s = .next u ∧
      s.fault = false :=
  ⟨.hmat 0, stream [0x40] 2 0, testBuild.matC, _, rfl, by decide, rfl, rfl⟩

theorem witness_NopRule_completes :
    ∃ s u : State, engineTurn s u ∧ s.pending = some 0 ∧ s.srstReq = false :=
  ⟨_, _, witness_engineTurn_engine_turn 0, rfl, rfl⟩

/-- The lowest and the highest operand bit. -/
theorem witness_NopRule_illegal :
    (∃ s u : State, engineTurn s u ∧ s.pending = some 0x00000001#32 ∧ s.srstReq = false) ∧
    bits 0x00000001#32 31 24 = 0 ∧ bits 0x00000001#32 23 0 ≠ 0 ∧
    bits 0x00800000#32 31 24 = 0 ∧ bits 0x00800000#32 23 0 ≠ 0 :=
  ⟨⟨_, _, witness_engineTurn_engine_turn 0x00000001#32, rfl, rfl⟩, by decide⟩

theorem witness_NopRule_dropped :
    ∃ s : State, s.pending = none ∧ s.fault = true ∧ s.script = [.hostWrite 0x10 4 0] :=
  ⟨{ turn (opCmd 0) with fault := true }, rfl, rfl, rfl⟩

theorem witness_QfwdRule :
    (∃ (x : Nat) (s : State), s.build.qmfInst ≤ x) ∧ ∃ x s, hasInstance s x :=
  ⟨⟨71, State.reset, by decide⟩, 70, State.reset, by decide, rfl⟩

theorem witness_QinvRule :
    (∃ (x : Nat) (s : State), s.build.qmfInst ≤ x) ∧ ∃ x s, hasInstance s x :=
  ⟨⟨255, State.reset, by decide⟩, 0, State.reset, by decide, rfl⟩

theorem witness_QclrRule :
    (∃ (x : Nat) (s : State), s.build.qmfInst ≤ x) ∧ ∃ x s, hasInstance s x :=
  ⟨⟨71, State.reset, by decide⟩, 70, State.reset, by decide, rfl⟩

/-- Another instance differs. -/
theorem witness_InstancesAreIsolated :
    ∃ x s s', hasInstance s x ∧ hasInstance s' x ∧ s'.build = s.build ∧
      (∀ f k, readPort s' f k = readPort s f k) ∧
      (instanceAt s' x).aw = (instanceAt s x).aw ∧ (instanceAt s' x).sh = (instanceAt s x).sh ∧
      instanceAt s' 70 ≠ instanceAt s 70 :=
  ⟨0, State.reset, setInstance State.reset 70 ⟨[1], [1]⟩, ⟨by decide, rfl⟩, ⟨by decide, rfl⟩, rfl,
    fun f _ => by cases f <;> rfl, rfl, rfl, by decide⟩

/-- Every port -0.0, and a fresh instance. -/
def silent : State :=
  let zeros := List.replicate 64 (0x80000000#32 : Word)
  writePorts (writePorts (writePorts State.reset .ts zeros) .xr zeros) .xi zeros

theorem witness_SilenceGivesSilence :
    hasInstance silent 0 ∧ silent.build.Legal ∧
    (∀ n, zeroWord (elementAt (instanceAt silent 0).aw n)) ∧
    (∀ n, zeroWord (elementAt (instanceAt silent 0).sh n)) ∧
    (∀ k, k < 64 → zeroWord (readPort silent .ts k)) ∧
    ∀ k, k < 64 → zeroWord (readPort silent .xr k) ∧ zeroWord (readPort silent .xi k) := by
  have h : ∀ f k, k < 64 → readPort silent f k = 0x80000000#32 := by
    intro f
    cases f <;> decide
  refine ⟨⟨by decide, rfl⟩, Config.build_legal, fun n => .inl ?_, fun n => .inl ?_,
    fun k hk => .inr (h _ k hk), fun k hk => ⟨.inr (h _ k hk), .inr (h _ k hk)⟩⟩ <;>
  exact elementAt_nil n

theorem witness_InstanceMemoryIsFinite :
    ∃ (x : Nat) (s s' : State), s.build.Legal ∧ s'.build = s.build ∧ hasInstance s x ∧
      hasInstance s' x ∧ instanceAt s' x ≠ instanceAt s x ∧
      (∃ blocks : List (List Word), (∀ b ∈ blocks, b.length = 64) ∧
        blocks.length = 2 * s.build.qmfJ) ∧
      ∃ slots : List (List Word × List Word), (∀ p ∈ slots, p.1.length = 64 ∧ p.2.length = 64) ∧
        slots.length = 2 * s.build.qmfJ := by
  refine ⟨0, State.reset, setInstance State.reset 0 ⟨[1], [1]⟩, Config.build_legal, rfl,
    ⟨by decide, rfl⟩, ⟨by decide, rfl⟩, by decide,
    ⟨List.replicate _ (List.replicate 64 1), fun b hb => ?_, List.length_replicate⟩,
    List.replicate _ (List.replicate 64 1, List.replicate 64 1), fun p hp => ?_,
    List.length_replicate⟩
  · rw [List.eq_of_mem_replicate hb]; rfl
  · rw [List.eq_of_mem_replicate hp]; exact ⟨rfl, rfl⟩

/-- Every pair of kinds. -/
theorem witness_InstancesCommute :
    ∀ i ∈ [Instr.qfwd 0, .qinv 0, .qclr 0], ∀ j ∈ [Instr.qfwd 70, .qinv 70, .qclr 70],
      ∃ (x y : Nat) (s : State) (p : List Word), filterInstance i = some x ∧
        filterInstance j = some y ∧ x ≠ y ∧ hasInstance s x ∧ hasInstance s y ∧ p.length = 64 := by
  intro i hi j hj
  refine ⟨0, 70, State.reset, List.replicate 64 1, ?_, ?_, by decide, ⟨by decide, rfl⟩,
    ⟨by decide, rfl⟩, rfl⟩
  · revert i; decide
  · revert j; decide

/-- The exact sum at the limit of overflow (the largest finite number and half a unit), one below it, and
a tie (1 and half a unit: even is 1). -/
theorem witness_ArithmeticRoundsToNearest :
    finiteWord 0x7F7FFFFF#32 = true ∧ finiteWord 0x73000000#32 = true ∧
    (floatInt 0x7F7FFFFF#32 + floatInt 0x73000000#32).natAbs = (2 ^ 25 - 1) * 2 ^ 252 ∧
    finiteWord 0x72FFFFFF#32 = true ∧
    (floatInt 0x7F7FFFFF#32 + floatInt 0x72FFFFFF#32).natAbs < (2 ^ 25 - 1) * 2 ^ 252 ∧
    finiteWord 0x3F800000#32 = true ∧ finiteWord 0x33800000#32 = true ∧
    finiteWord 0x3F800001#32 = true ∧ floatInt 0x3F800001#32 ≠ floatInt 0x3F800000#32 ∧
    (floatInt 0x3F800001#32 * 1 - (floatInt 0x3F800000#32 + floatInt 0x33800000#32)).natAbs =
      (floatInt 0x3F800000#32 * 1 - (floatInt 0x3F800000#32 + floatInt 0x33800000#32)).natAbs := by
  decide

/-- The same cases in the model: infinity, the largest finite number, and 1. -/
theorem test_rounding :
    fadd 0x7F7FFFFF#32 0x73000000#32 = 0x7F800000#32 ∧
    fadd 0x7F7FFFFF#32 0x72FFFFFF#32 = 0x7F7FFFFF#32 ∧
    fadd 0x3F800000#32 0x33800000#32 = 0x3F800000#32 := by decide

theorem witness_ZerosAndSubnormalsAreKept :
    finiteWord 0x00000001#32 = true ∧ (0x00000001#32 : Word) ≠ 0x80000000#32 ∧
    finiteWord 0x80000000#32 = true ∧ zeroWord 0x00000000#32 ∧ zeroWord 0x80000000#32 :=
  ⟨by decide, by decide, by decide, .inl rfl, .inr rfl⟩

theorem witness_CmdRule :
    (∃ (s : State) (w p : Word), s.script = [.hostWrite 0x10 4 w] ∧ s.pending = some p) ∧
    (∃ (s : State) (w : Word), s.script = [.hostWrite 0x10 4 w] ∧ s.pending = none ∧ s.fault = true) ∧
    (∃ (s : State) (w : Word), s.script = [.hostWrite 0x10 4 w] ∧ s.pending = none ∧ s.fault = false) ∧
    ∃ s : State, s.pending = none ∧ s.script = [.hostRead 0x10 4] :=
  ⟨⟨busyTurn (opCmd 0x12000000#32), _, _, rfl, rfl⟩,
    ⟨{ turn (opCmd 0x12000000#32) with fault := true }, _, rfl, rfl, rfl⟩,
    ⟨turn (opCmd 0x12000000#32), _, rfl, rfl, rfl⟩, turn (opRead 0x10), rfl, rfl⟩

theorem witness_StatusRule :
    (∃ s : State, s.script = [.hostRead 0x0C 4]) ∧
    (∃ (s : State) (v : Word), s.script = [.hostWrite 0x0C 4 v]) ∧
    ∃ t, step (turn opTell) = .next t ∧ (turn opTell).fcode = 0 ∧ t.fault = false :=
  ⟨⟨busyTurn (opRead 0x0C), rfl⟩, ⟨turn opClrf, _, rfl⟩, _, rfl, rfl, rfl⟩

theorem witness_CursorRegistersRule :
    (∃ (s : State) (v : Word), s.pending = none ∧ s.script = [.hostWrite 0x18 4 v]) ∧
    (∃ (s : State) (v : Word), s.pending = none ∧ s.script = [.hostWrite 0x1C 4 v]) ∧
    (∃ s : State, s.pending = none ∧ s.script = [.hostRead 0x18 4]) ∧
    (∃ s : State, s.pending = none ∧ s.script = [.hostRead 0x1C 4]) ∧
    ∃ i s t, exec i s = .next t :=
  ⟨⟨turn (opSeek 0xFFFFFFFF#32), _, rfl, rfl⟩, ⟨turn (opSetend 0xFFFFFFFF#32), _, rfl, rfl⟩,
    ⟨turn opTell, rfl, rfl⟩, ⟨turn (opRead 0x1C), rfl, rfl⟩, .nop, State.reset, _, rfl⟩

theorem witness_RegisterReads :
    (∃ s : State, s.script = [.hostRead 0x00 4]) ∧
    (∃ s : State, s.script = [.hostRead 0x04 4] ∧ s.build.Legal) ∧
    (∃ s : State, s.script = [.hostRead 0x08 4]) ∧
    (∃ s : State, s.pending = none ∧ s.script = [.hostRead 0x14 4]) ∧
    (∃ s : State, s.pending = none ∧ s.script = [.hostRead 0x20 4]) ∧
    ∃ s : State, s.pending = none ∧ s.script = [.hostRead 0x24 4] :=
  ⟨⟨busyTurn (opRead 0x00), rfl⟩, ⟨busyTurn (opRead 0x04), rfl, Config.build_legal⟩,
    ⟨busyTurn (opRead 0x08), rfl⟩, ⟨turn (opRead 0x14), rfl, rfl⟩, ⟨turn (opRead 0x20), rfl, rfl⟩,
    turn (opRead 0x24), rfl, rfl⟩

/-- The first and the last reserved offset below the data ports, and the read-only registers. -/
theorem witness_ReservedAndReadOnlyRule :
    Config.build.Legal ∧ reservedOffset Config.build 0x28 ∧ reservedOffset Config.build 0xFC ∧
    reservedOffset Config.build 0xFFFC ∧ readOnlyOffset Config.build 0x00 ∧
    readOnlyOffset Config.build 0x2FFFC ∧
    (∃ s : State, s.build = Config.build ∧ s.script = [.hostRead 0x28 4]) ∧
    ∃ (s : State) (v : Word), s.build = Config.build ∧ s.script = [.hostWrite 0x2FFFC 4 v] :=
  ⟨Config.build_legal, ⟨by decide, .inl (by decide)⟩, ⟨by decide, .inl (by decide)⟩,
    ⟨by decide, .inr (.inl (by decide))⟩, .inl rfl,
    .inr (.inr (.inr (.inr (.inr (by decide))))),
    ⟨busyTurn (opRead 0x28), rfl, rfl⟩, busyTurn (opWrite 0x2FFFC 1), _, rfl, rfl⟩

/-- A buffer of 6 bytes: the offset past it is reserved in both windows. -/
theorem witness_ReservedAndReadOnlyRule_small_buffers :
    reservedOffset { Config.build with bufBytes := 6 } 0x10008 ∧
    reservedOffset { Config.build with obufBytes := 6 } 0x20008 :=
  ⟨⟨by decide, .inr (.inr (.inl (by decide)))⟩, by decide, .inr (.inr (.inr (by decide)))⟩

theorem witness_DataPortsRule :
    (∃ (s : State) (v : Word), s.pending = none ∧ s.script = [.hostWrite (portOffset .xi 63) 4 v]) ∧
    ∃ s : State, s.pending = none ∧ s.script = [.hostRead (portOffset .ts 0) 4] :=
  ⟨⟨turn (opWrite 0x3FC 1), _, rfl, rfl⟩, turn (opRead 0x100), rfl, rfl⟩

/-- The last word of BUF: written, read with every lane written, and read with a lane unwritten. -/
theorem witness_BufWindowRule :
    Config.build.Legal ∧ 4 * 16383 < Config.build.bufBytes ∧
    (∃ (s : State) (v : Word), s.build = Config.build ∧ s.pending = none ∧
      s.script = [.hostWrite (0x10000 + 4 * 16383) 4 v]) ∧
    (∃ s : State, s.build = Config.build ∧ s.pending = none ∧
      s.script = [.hostRead (0x10000 + 4 * 16383) 4] ∧ ∀ b, 4 * 16383 ≤ b → b < 4 * 16383 + 4 → b < s.build.bufBytes →
        (storeGet s.buf b).isSome = true) ∧
    ∃ (s : State) (b : Nat), s.build = Config.build ∧ s.pending = none ∧
      s.script = [.hostRead (0x10000 + 4 * 16383) 4] ∧ 4 * 16383 ≤ b ∧ b < 4 * 16383 + 4 ∧
      b < s.build.bufBytes ∧ storeGet s.buf b = none := by
  refine ⟨Config.build_legal, by decide, ⟨turn (opWrite 0x1FFFC 1), _, rfl, rfl, rfl⟩,
    ⟨{ turn (opRead 0x1FFFC) with buf := cells 65532 [1, 2, 3, 4] }, rfl, rfl, rfl,
      fun b h1 h2 _ => ?_⟩,
    ⟨turn (opRead 0x1FFFC), 65535, rfl, rfl, rfl, by decide, by decide, by decide, rfl⟩⟩
  obtain ⟨k, hk, rfl⟩ : ∃ k, k < 4 ∧ b = 65532 + k := ⟨b - 65532, by omega, by omega⟩
  clear h1 h2
  revert k
  decide

theorem witness_BufWindowRule_no_command_writes : ∃ i s t, exec i s = .next t :=
  ⟨.readbytes 1, stream [0x58] 8 0, _, rfl⟩

theorem witness_ObufWindowRule :
    Config.build.Legal ∧ 4 * 16383 < Config.build.obufBytes ∧
    (∃ (s : State) (v : Word), s.build = Config.build ∧ s.script = [.hostWrite (0x20000 + 4 * 16383) 4 v]) ∧
    (∃ s : State, s.build = Config.build ∧ s.pending = none ∧
      s.script = [.hostRead (0x20000 + 4 * 16383) 4] ∧
      ∀ b, 4 * 16383 ≤ b → b < 4 * 16383 + 4 → b < s.build.obufBytes →
        (storeGet s.obuf b).isSome = true) ∧
    ∃ (s : State) (b : Nat), s.build = Config.build ∧ s.pending = none ∧
      s.script = [.hostRead (0x20000 + 4 * 16383) 4] ∧ 4 * 16383 ≤ b ∧ b < 4 * 16383 + 4 ∧
      b < s.build.obufBytes ∧ storeGet s.obuf b = none := by
  refine ⟨Config.build_legal, by decide, ⟨busyTurn (opWrite 0x2FFFC 1), _, rfl, rfl⟩,
    ⟨{ turn (opRead 0x2FFFC) with obuf := cells 65532 [1, 2, 3, 4] }, rfl, rfl, rfl,
      fun b h1 h2 _ => ?_⟩,
    ⟨turn (opRead 0x2FFFC), 65532, rfl, rfl, rfl, by decide, by decide, by decide, rfl⟩⟩
  obtain ⟨k, hk, rfl⟩ : ∃ k, k < 4 ∧ b = 65532 + k := ⟨b - 65532, by omega, by omega⟩
  clear h1 h2
  revert k
  decide

theorem witness_ObufWindowRule_other_commands :
    ∃ i s t, (∀ c, i ≠ .readbytes c) ∧ exec i s = .next t :=
  ⟨.nop, State.reset, _, fun _ => Instr.noConfusion, rfl⟩

/-- Each class of input. -/
theorem witness_BusyWritesFault :
    Config.build.Legal ∧ inputOffset Config.build 0x18 ∧ inputOffset Config.build 0x1C ∧
    inputOffset Config.build 0x3FC ∧ inputOffset Config.build 0x1FFFC ∧
    ∃ (s : State) (v p : Word), s.build = Config.build ∧ s.pending = some p ∧ s.script = [.hostWrite 0x3FC 4 v] :=
  ⟨Config.build_legal, .inl rfl, .inr (.inl rfl), .inr (.inr (.inl (by decide))),
    .inr (.inr (.inr (by decide))), busyTurn (opWrite 0x3FC 1), _, _, rfl, rfl, rfl⟩

/-- Each class of result. -/
theorem witness_BusyReadsRule :
    Config.build.Legal ∧ resultOffset Config.build 0x14 ∧ resultOffset Config.build 0x24 ∧
    resultOffset Config.build 0x100 ∧ resultOffset Config.build 0x2FFFC ∧
    ∃ (s : State) (p : Word), s.build = Config.build ∧ s.pending = some p ∧ s.script = [.hostRead 0x14 4] :=
  ⟨Config.build_legal, .inl rfl, .inr (.inr (.inr (.inr (.inl rfl)))),
    .inr (.inr (.inr (.inr (.inr (.inl (by decide)))))),
    .inr (.inr (.inr (.inr (.inr (.inr (by decide)))))), busyTurn (opRead 0x14), _, rfl, rfl, rfl⟩

theorem witness_BusyReadsRule_defined :
    (∃ (s : State) (p : Word), s.pending = some p ∧ s.script = [.hostRead 0x10 4]) ∧
    4 * 16383 < Config.build.bufBytes ∧
    (∃ (s : State) (p : Word), s.build = Config.build ∧ s.pending = some p ∧
      s.script = [.hostRead (0x10000 + 4 * 16383) 4] ∧ storeGet s.buf 65535 = none) ∧
    ∃ (s : State) (p : Word), s.build = Config.build ∧ s.pending = some p ∧
      s.script = [.hostRead (0x10000 + 4 * 0) 4] ∧
      ∀ b, b < 4 → (storeGet s.buf b).isSome = true :=
  ⟨⟨busyTurn (opRead 0x10), _, rfl, rfl⟩, by decide, ⟨busyTurn (opRead 0x1FFFC), _, rfl, rfl, rfl, rfl⟩,
    { busyTurn (opRead 0x10000) with buf := cells 0 [1, 2, 3, 4] }, _, rfl, rfl, rfl, by decide⟩

/-- A narrow access, an unaligned one, and the first offset past the window. -/
theorem witness_AccessShapeRule :
    ¬(1 = 4 ∧ 0x10 % 4 = 0 ∧ 0x10 ≤ 0x2FFFF) ∧ ¬(4 = 4 ∧ 0x12 % 4 = 0 ∧ 0x12 ≤ 0x2FFFF) ∧
    ¬(4 = 4 ∧ 0x30000 % 4 = 0 ∧ 0x30000 ≤ 0x2FFFF) ∧
    (∃ s : State, s.script = [.hostRead 0x30000 4]) ∧
    (∃ (s : State) (v : Word), s.script = [.hostWrite 0x10 1 v]) ∧
    ∃ (s : State) (v : Word), 0x2FFFC % 4 = 0 ∧ 0x2FFFC ≤ 0x2FFFF ∧ s.script = [.hostWrite 0x2FFFC 4 v] :=
  ⟨by decide, by decide, by decide, ⟨turn (.hostRead 0x30000 4), rfl⟩,
    ⟨turn (.hostWrite 0x10 1 0), _, rfl⟩, turn (opWrite 0x2FFFC 0), _, by decide, by decide, rfl⟩

theorem witness_ReadsHaveNoSideEffect :
    ∃ s t : State, s.script = [.hostRead 0x14 4] ∧ step s = .next t := ⟨busyTurn (opRead 0x14), _, rfl, rfl⟩

theorem witness_SoftResetRule :
    (∃ (s : State) (v : Word), s.script = [.hostWrite 0x08 4 v] ∧ v.getLsbD 0 = false) ∧
    (∃ (s : State) (v p : Word), s.script = [.hostWrite 0x08 4 v] ∧ v.getLsbD 0 = true ∧ s.pending = some p) ∧
    ∃ (s : State) (v : Word), s.script = [.hostWrite 0x08 4 v] ∧ v.getLsbD 0 = true ∧ s.pending = none :=
  ⟨⟨turn (opWrite 0x08 0xFFFFFFFE#32), _, rfl, by decide⟩, ⟨busyTurn opSrst, _, _, rfl, by decide, rfl⟩,
    turn opSrst, _, rfl, by decide, rfl⟩

theorem witness_HardwareResetRule :
    (∃ (s : State) (p : Word), s.script = [.hardReset] ∧ s.pending = some p) ∧
    ∃ s : State, s.script = [.hardReset] ∧ s.pending = none :=
  ⟨⟨busyTurn .hardReset, _, rfl, rfl⟩, turn .hardReset, rfl, rfl⟩

/-- The reset state with a command pending and an idle script meets the invariant, and steps. -/
theorem witness_StepKeepsInvariant :
    ∃ s t : State, Inv s ∧ s.pending ≠ none ∧ step s = .next t := by
  refine ⟨{ State.reset with pending := some 0#32 }, _, ⟨Config.build_legal, ?_, by decide, by decide, ?_, rfl, ?_⟩,
    by decide, rfl⟩
  · decide
  · refine ⟨?_, ?_, ?_, ?_, ?_⟩ <;> exact ⟨List.Pairwise.nil, fun _ h => absurd h List.not_mem_nil⟩
  · intro q hq
    rw [List.eq_of_mem_replicate hq]
    exact ⟨fresh_arrayOk _, fresh_arrayOk _⟩

theorem witness_TablesNeverChange : ∃ t, step (turn .hardReset) = .next t := ⟨_, rfl⟩

theorem witness_StopsAreNamed :
    (∃ s f, step s = .fault f) ∧ ∃ s r, step s = .refused r :=
  ⟨⟨turn (opRead 0x10000), _, rfl⟩, busyTurn .hardReset, _, rfl⟩

theorem witness_OnlyCmdSetsAndEngineClearsPending_set :
    ∃ (s t : State) (w : Word), step s = .next t ∧ t.pending = some w ∧ s.pending = none :=
  ⟨turn (opCmd 0x12000000#32), _, _, rfl, rfl, rfl⟩

theorem witness_OnlyCmdSetsAndEngineClearsPending_kept :
    ∃ (s t : State) (w : Word), step s = .next t ∧ s.pending = some w ∧ ¬∃ u, engineTurn s u := by
  refine ⟨busyTurn opSrst, _, _, rfl, rfl, ?_⟩
  rintro ⟨u, ⟨h, -⟩ | ⟨rest, h, -⟩⟩
  · exact absurd h (by decide)
  · injection h with h _
    exact absurd h (by decide)

theorem witness_OnlyClearAndResetDropFault :
    ∃ s t : State, step s = .next t ∧ s.fault = true ∧ s.srstReq = false ∧
      (∀ v rest, s.script = .hostWrite 0x0C 4 v :: rest → v.getLsbD 1 = false) ∧
      (∀ v rest, s.script = .hostWrite 0x08 4 v :: rest → v.getLsbD 0 = false) ∧
      ∀ rest, s.script ≠ .hardReset :: rest := by
  refine ⟨{ turn (opWrite 0x0C 4) with fault := true }, _, rfl, rfl, rfl, fun v rest h => ?_,
    fun v rest h => ?_, fun rest h => ?_⟩ <;>
  simp [turn, opWrite] at h
  rw [← h.1]
  decide

end Sys2Proof.Tests
end

section
/-! The host's turns by the register they name: what a step of a read or a write answers once the register
map has been consulted, and what a write to each kind of register does. -/

namespace Sys2Proof.Proofs

open Sys2Proof.Machine Sys2Proof.Claims

/-! ### The register map -/

theorem regAt_status (b : Build) : regAt b 0x0C = .status := rfl
theorem regAt_cmd (b : Build) : regAt b 0x10 = .cmd := rfl
theorem regAt_pos (b : Build) : regAt b 0x18 = .pos := rfl
theorem regAt_bitEnd (b : Build) : regAt b 0x1C = .bitEnd := rfl

/-- The registers a host write never changes: the read-only ones and the reserved offsets (R31). -/
def ignoresWrites : Reg → Bool
  | .id | .cfg | .res | .fcmd | .finfo | .obuf _ | .reserved => true
  | .ctrl | .status | .cmd | .pos | .bitEnd | .port _ _ | .buf _ => false

/-- An offset that R13 calls reserved names no register. -/
theorem regAt_of_reservedOffset {b : Build} {off : Nat} (h : reservedOffset b off) :
    regAt b off = .reserved := by
  obtain ⟨-, ⟨h0, h1⟩ | ⟨h0, h1⟩ | ⟨h0, h1⟩ | ⟨h0, -⟩⟩ := h
  · rw [regAt_low b off h1, registerAt_reserved off h0]
  · exact regAt_reserved_mid b off h0 h1
  · exact regAt_reserved_buf b off h0 h1
  · exact regAt_reserved_obuf b off h0

/-- A read-only offset names a register that ignores writes (R31). -/
theorem ignoresWrites_of_readOnlyOffset {b : Build} {off : Nat} (h : readOnlyOffset b off) :
    ignoresWrites (regAt b off) = true := by
  obtain rfl | rfl | rfl | rfl | rfl | ⟨-, h0, h1⟩ := h
  · rfl
  · rfl
  · rfl
  · rfl
  · rfl
  · rw [regAt_obuf b off h0 h1]
    rfl

/-- A reserved offset is aligned and inside the window. -/
theorem reservedOffset_bounds {b : Build} {off : Nat} (h : reservedOffset b off) :
    off % 4 = 0 ∧ off < 0x30000 := by
  obtain ⟨h4, hr⟩ := h
  exact ⟨h4, by omega⟩

/-- A read-only offset is aligned and inside the window of a legal build. -/
theorem readOnlyOffset_bounds {b : Build} {off : Nat} (hb : b.Legal) (h : readOnlyOffset b off) :
    off % 4 = 0 ∧ off < 0x30000 := by
  obtain ⟨-, -, -, ⟨-, ho⟩, -⟩ := hb
  unfold readOnlyOffset at h
  omega

/-! ### The step of a host's turn -/

/-- The value of a register does not depend on the turns to come. -/
@[simp] theorem regValue_afterTurn (s : State) (rest : List Turn) (r : Reg) :
    regValue (afterTurn s rest) r = regValue s r := by
  cases r <;> rfl

/-- The step of a host read whose value is defined hands that value back and does nothing else (R52). -/
theorem step_hostRead_value {s : State} {off : Nat} {rest : List Turn} {r : Reg} {v : Word}
    (h : s.script = .hostRead off 4 :: rest) (h4 : off % 4 = 0) (hl : off < 0x30000)
    (hr : regAt s.build off = r) (hb : s.pending = none ∨ unspecifiedWhileBusy r = false)
    (hv : regValue s r = .ok v) :
    step s = .next { afterTurn s rest with rdata := v } := by
  rw [step_hostRead h h4 hl, hr]
  exact readReg_value hb ((regValue_afterTurn s rest r).trans hv)

/-- The step of a host write, by the register the offset names. -/
theorem step_hostWrite_reg {s : State} {off : Nat} {v : Word} {rest : List Turn} {r : Reg}
    (h : s.script = .hostWrite off 4 v :: rest) (h4 : off % 4 = 0) (hl : off < 0x30000)
    (hr : regAt s.build off = r) :
    step s = .next (writeReg (afterTurn s rest) off v r) := by
  rw [step_hostWrite h h4 hl, hr]
  rfl

/-! ### Host writes, register by register -/

section
variable (s : State) (off : Nat) (v : Word)

/-- A register that ignores writes does so BUSY or not (R31). -/
theorem writeReg_of_ignoresWrites {r : Reg} (hr : ignoresWrites r = true) :
    writeReg s off v r = s := by
  cases r with
  | ctrl | status | cmd | pos | bitEnd | port | buf => simp [ignoresWrites] at hr
  | id | cfg | res | fcmd | finfo | obuf | reserved => simp [writeReg, isInput, writeInput]

/-- An input of the commands takes a write while BUSY = 0 (R21, R22, R26, R43). -/
theorem writeReg_input_idle {r : Reg} (hi : isInput r = true) (hp : s.pending = none) :
    writeReg s off v r = writeInput s v r := by
  cases r with
  | id | cfg | ctrl | status | cmd | res | fcmd | finfo | obuf | reserved => simp [isInput] at hi
  | pos | bitEnd | port | buf => simp [writeReg, busy, hp]

/-- A write of an input while BUSY = 1 is recorded and otherwise ignored (R33). -/
theorem writeReg_input_busy {r : Reg} {p : Word} (hi : isInput r = true) (hp : s.pending = some p) :
    writeReg s off v r = record .busyWrite v (BitVec.ofNat 32 off) s := by
  cases r with
  | id | cfg | ctrl | status | cmd | res | fcmd | finfo | obuf | reserved => simp [isInput] at hi
  | pos | bitEnd | port | buf => simp [writeReg, busy, hp, isInput]

/-- A host write to CMD while a command is pending (R20). -/
theorem writeReg_cmd_busy {p : Word} (hp : s.pending = some p) :
    writeReg s off v .cmd = record .cmdOverrun v p s := by
  simp [writeReg, writeCmd, hp]

/-- A host write to CMD of an idle block that has faulted (R20, R131). -/
theorem writeReg_cmd_faulted (hp : s.pending = none) (hf : s.fault = true) :
    writeReg s off v .cmd = { s with drop := true } := by
  simp [writeReg, writeCmd, hp, hf, dropCommand]

/-- A host write to CMD of an idle block without a fault (R20). -/
theorem writeReg_cmd_accepted (hp : s.pending = none) (hf : s.fault = false) :
    writeReg s off v .cmd = { s with pending := some v } := by
  simp [writeReg, writeCmd, hp, hf]

/-- A host write to STATUS, field by field (R19). -/
theorem writeReg_status :
    writeReg s off v .status =
      { s with
        fault := if v.getLsbD 1 then false else s.fault
        fcode := if v.getLsbD 1 then 0 else s.fcode
        drop := if v.getLsbD 2 then false else s.drop } := by
  simp only [writeReg, writeStatus]
  cases v.getLsbD 1 <;> cases v.getLsbD 2 <;> rfl

end

end Sys2Proof.Proofs
end

section
/-! The word STATUS reads as (R19), the fields no command touches, and the one way a step can change FAULT
and FCODE. -/

namespace Sys2Proof.Proofs

open Sys2Proof.Machine Sys2Proof.Claims

/-! ### The fields of STATUS -/

/-- The fields of STATUS do not overlap and fit the word (R19). -/
theorem statusWord_toNat (s : State) :
    (statusWord s).toNat =
      (busy s).toNat + 2 * s.fault.toNat + 4 * s.drop.toNat + 2 ^ 8 * s.fcode.toNat := by
  have hb := Bool.toNat_lt (busy s)
  have hf := Bool.toNat_lt s.fault
  have hd := Bool.toNat_lt s.drop
  have hc := s.fcode.isLt
  rw [statusWord, BitVec.toNat_ofNat]
  omega

/-- The three flags of STATUS: BUSY, FAULT and DROP in bits 0, 1 and 2 (R19). -/
theorem statusWord_flags (s : State) :
    (statusWord s).getLsbD 0 = busy s ∧ (statusWord s).getLsbD 1 = s.fault ∧
      (statusWord s).getLsbD 2 = s.drop := by
  simp only [BitVec.getLsbD, Nat.testBit_eq_decide_div_mod_eq, statusWord_toNat]
  refine ⟨?_, ?_, ?_⟩
  · cases busy s <;> simp <;> omega
  · cases busy s <;> cases s.fault <;> simp <;> omega
  · cases busy s <;> cases s.fault <;> cases s.drop <;> simp <;> omega

/-- FCODE stands in bits 15:8 of STATUS, and the bits beside the fields are 0 (R19). -/
theorem statusWord_fcode (s : State) :
    (statusWord s).extractLsb' 3 5 = 0 ∧ (statusWord s).extractLsb' 8 8 = s.fcode ∧
      (statusWord s).extractLsb' 16 16 = 0 := by
  have hb := Bool.toNat_lt (busy s)
  have hf := Bool.toNat_lt s.fault
  have hd := Bool.toNat_lt s.drop
  have hc := s.fcode.isLt
  refine ⟨?_, ?_, ?_⟩ <;> apply BitVec.eq_of_toNat_eq <;>
    simp only [BitVec.extractLsb'_toNat, Nat.shiftRight_eq_div_pow, statusWord_toNat,
      BitVec.ofNat_eq_ofNat, BitVec.toNat_ofNat] <;>
    omega

/-! ### What a command leaves as it was -/

/-- A command that does not fault writes the cursor, RES, OBUF, the data ports and the instances, and
nothing else. -/
theorem commandEffect_frame {i : Instr} {s t : State} (h : commandEffect i s t) :
    t = { s with pos := t.pos, res := t.res, obuf := t.obuf, ts := t.ts, xr := t.xr, xi := t.xi,
                 inst := t.inst } := by
  cases i with
  | nop => exact h ▸ rfl
  | peek | lutbands | lutchan => obtain ⟨v, rfl⟩ := h; rfl
  | read | readbit | varlen | escf | escv | hmat | hvec | hidx =>
    obtain ⟨v, p, rfl, -⟩ := h; rfl
  | skip => obtain ⟨rfl, -⟩ := h; rfl
  | readbytes => obtain ⟨-, -, vs, -, rfl⟩ := h; rfl
  | qfwd => obtain ⟨-, aw, xr, xi, -, -, -, rfl⟩ := h; rfl
  | qinv => obtain ⟨-, sh, ts, -, -, rfl⟩ := h; rfl
  | qclr => obtain ⟨-, rfl⟩ := h; rfl

/-- No command writes END (R22). -/
theorem exec_bitEnd {i : Instr} {s t : State} (h : exec i s = .next t) : t.bitEnd = s.bitEnd := by
  obtain ⟨c, info, rfl⟩ | he := exec_next h
  · exact record_bitEnd s c _ info
  · exact (congrArg State.bitEnd (commandEffect_frame he) :)

/-! ### FAULT and FCODE move together -/

/-- From `s` to `t` the pair FAULT, FCODE is kept, cleared, or set to a recorded fault (R19, R125). -/
def faultPairMove (s t : State) : Prop :=
  (t.fault = s.fault ∧ t.fcode = s.fcode) ∨ (t.fault = false ∧ t.fcode = 0) ∨
    (t.fault = true ∧ ∃ c, t.fcode = faultCodeBits c)

theorem faultPairMove.trans {s u t : State} (hu : faultPairMove s u) (ht : faultPairMove u t) :
    faultPairMove s t := by
  obtain ⟨hf, hc⟩ | ht := ht
  · rw [faultPairMove, hf, hc]
    exact hu
  · exact .inr ht

/-- A move keeps FCODE at 0 while FAULT is 0 (R19). -/
theorem faultPairMove.fcode_zero {s t : State} (h : faultPairMove s t)
    (hs : s.fault = false → s.fcode = 0) (ht : t.fault = false) : t.fcode = 0 := by
  obtain ⟨hf, hc⟩ | ⟨-, hc⟩ | ⟨hf, -⟩ := h
  · exact hc.trans (hs (hf.symm.trans ht))
  · exact hc
  · simp [ht] at hf

theorem record_faultPairMove (c : FaultCode) (w i : Word) (s : State) :
    faultPairMove s (record c w i s) := by
  cases hf : s.fault with
  | true => rw [record_of_fault s c w i hf]; exact .inl ⟨rfl, rfl⟩
  | false => rw [record_of_clear s c w i hf]; exact .inr (.inr ⟨rfl, c, rfl⟩)

theorem complete_faultPairMove (s : State) : faultPairMove s (complete s) := by
  cases hr : s.srstReq with
  | true => rw [complete_of_request s hr]; exact .inr (.inl ⟨rfl, rfl⟩)
  | false => rw [complete_of_no_request s hr]; exact .inl ⟨rfl, rfl⟩

theorem exec_faultPairMove {i : Instr} {s t : State} (h : exec i s = .next t) :
    faultPairMove s t := by
  obtain ⟨c, info, rfl⟩ | he := exec_next h
  · exact record_faultPairMove c _ info s
  · rw [commandEffect_frame he]
    exact .inl ⟨rfl, rfl⟩

theorem engineStep_faultPairMove {s t : State} (h : engineStep s = .next t) :
    faultPairMove s t := by
  obtain ⟨-, rfl⟩ | ⟨w, u, -, rfl, ⟨c, info, rfl⟩ | ⟨i, -, hi⟩⟩ := engineStep_next h
  · exact .inl ⟨rfl, rfl⟩
  · exact (record_faultPairMove c w info s).trans (complete_faultPairMove _)
  · exact (exec_faultPairMove hi).trans (complete_faultPairMove u)

/-- An input written while BUSY = 0 keeps FAULT and FCODE; while BUSY = 1 it records BUSY_WRITE. -/
theorem writeReg_input_faultPairMove (s : State) (off : Nat) (v : Word) {r : Reg}
    (hi : isInput r = true) : faultPairMove s (writeReg s off v r) := by
  cases hp : s.pending with
  | some p => rw [writeReg_input_busy s off v hi hp]; exact record_faultPairMove _ _ _ s
  | none =>
    rw [writeReg_input_idle s off v hi hp]
    left
    cases r <;> simp [writeInput]

/-- A write to CMD records an overrun or leaves FAULT and FCODE as they are (R20). -/
theorem writeCmd_faultPairMove (s : State) (off : Nat) (v : Word) :
    faultPairMove s (writeReg s off v .cmd) := by
  cases hp : s.pending with
  | some p => rw [writeReg_cmd_busy s off v hp]; exact record_faultPairMove _ _ _ s
  | none =>
    cases hf : s.fault with
    | true => rw [writeReg_cmd_faulted s off v hp hf]; exact .inl ⟨rfl, rfl⟩
    | false => rw [writeReg_cmd_accepted s off v hp hf]; exact .inl ⟨rfl, rfl⟩

theorem writeReg_faultPairMove (s : State) (off : Nat) (v : Word) (r : Reg) :
    faultPairMove s (writeReg s off v r) := by
  cases r with
  | cmd => exact writeCmd_faultPairMove s off v
  | status =>
    rw [writeReg_status]
    cases hv : v.getLsbD 1 with
    | true => exact .inr (.inl ⟨rfl, rfl⟩)
    | false => exact .inl ⟨rfl, rfl⟩
  | ctrl =>
    simp only [writeReg, writeCtrl]
    split
    · split
      · exact .inl ⟨rfl, rfl⟩
      · exact .inr (.inl ⟨rfl, rfl⟩)
    · exact .inl ⟨rfl, rfl⟩
  | pos | bitEnd | port | buf => exact writeReg_input_faultPairMove s off v rfl
  | id | cfg | res | fcmd | finfo | obuf | reserved =>
    rw [writeReg_of_ignoresWrites s off v rfl]
    exact .inl ⟨rfl, rfl⟩

/-- Every step moves FAULT and FCODE together. -/
theorem step_faultPairMove {s t : State} (h : step s = .next t) : faultPairMove s t := by
  obtain ⟨off, bytes, rest, -, -, hr⟩ | ⟨off, bytes, v, rest, -, -, rfl⟩ | ⟨rest, -, he⟩ |
    ⟨rest, -, -, rfl⟩ := step_next h
  · obtain ⟨v, n, rfl⟩ := readReg_next hr
    exact .inl ⟨rfl, rfl⟩
  · exact writeReg_faultPairMove (afterTurn s rest) off v _
  · exact engineStep_faultPairMove (s := afterTurn s rest) he
  · exact .inr (.inl ⟨rfl, rfl⟩)

end Sys2Proof.Proofs
end

section
/-! The registers of 10_state.md: CMD, STATUS, POS and END, and the offsets that ignore writes. -/

namespace Sys2Proof.Proofs

open Sys2Proof.Machine Sys2Proof.Claims

/-- Settles O41: with BUSY = 1 an overrun is recorded, with FAULT = 1 the word is dropped, else accepted. -/
theorem cmdRule : Obligations.CmdRule := by
  intro s rest
  have hr := regAt_cmd s.build
  refine ⟨fun w h => ?_, fun hp h => step_hostRead_value h rfl (by decide) hr (.inl hp) rfl⟩
  have hs := step_hostWrite_reg h rfl (by decide) hr
  refine ⟨fun p hp => ?_, fun hp hf => ?_, fun hp hf => ?_⟩
  · rw [hs, writeReg_cmd_busy (afterTurn s rest) 0x10 w hp]
  · rw [hs, writeReg_cmd_faulted (afterTurn s rest) 0x10 w hp hf]
  · rw [hs, writeReg_cmd_accepted (afterTurn s rest) 0x10 w hp hf]

/-- Settles O42: the fields of the word STATUS reads as, the write-1-to-clear rule, and FCODE 0 while
FAULT is 0, kept because every step moves the two together. -/
theorem statusRule : Obligations.StatusRule := by
  intro s rest
  have hr := regAt_status s.build
  refine ⟨fun h => ?_, fun v h => ?_, rfl, fun t ht => (step_faultPairMove ht).fcode_zero⟩
  · obtain ⟨hbusy, hfault, hdrop⟩ := statusWord_flags s
    exact ⟨statusWord s, step_hostRead_value h rfl (by decide) hr (.inr rfl) rfl,
      hbusy, hfault, hdrop, statusWord_fcode s⟩
  · rw [step_hostWrite_reg h rfl (by decide) hr, writeReg_status]
    rfl

/-- Settles O43: POS and END are inputs that take a write while BUSY = 0, END clamped, and reads hand them
back; a command's next state has the END it started with. -/
theorem cursorRegistersRule : Obligations.CursorRegistersRule := by
  refine ⟨fun s rest hp => ⟨fun v h => ?_, fun v h => ?_, fun h => ?_, fun h => ?_⟩, rfl, rfl,
    fun i s t h => exec_bitEnd h⟩
  · rw [step_hostWrite_reg h rfl (by decide) (regAt_pos _),
      writeReg_input_idle (afterTurn s rest) 0x18 v rfl hp]
    rfl
  · rw [step_hostWrite_reg h rfl (by decide) (regAt_bitEnd _),
      writeReg_input_idle (afterTurn s rest) 0x1C v rfl hp]
    rfl
  · exact step_hostRead_value h rfl (by decide) (regAt_pos _) (.inl hp) rfl
  · exact step_hostRead_value h rfl (by decide) (regAt_bitEnd _) (.inl hp) rfl

/-- Settles O45: a reserved offset names no register, and every offset of the two kinds names one that
ignores writes. -/
theorem reservedAndReadOnlyRule : Obligations.ReservedAndReadOnlyRule := by
  intro s rest off hb
  refine ⟨fun ho h => ?_, fun v ho h => ?_⟩
  · obtain ⟨h4, hl⟩ := reservedOffset_bounds ho
    exact step_hostRead_value h h4 hl (regAt_of_reservedOffset ho) (.inr rfl) rfl
  · obtain ⟨h4, hl⟩ : off % 4 = 0 ∧ off < 0x30000 :=
      ho.elim reservedOffset_bounds (readOnlyOffset_bounds hb)
    have hi : ignoresWrites (regAt s.build off) = true :=
      ho.elim (fun hr => congrArg ignoresWrites (regAt_of_reservedOffset hr))
        ignoresWrites_of_readOnlyOffset
    rw [step_hostWrite_reg h h4 hl rfl, writeReg_of_ignoresWrites _ off v hi]

end Sys2Proof.Proofs
end

section
/-! Host accesses: the ones refused for their shape (R42), what a read of four lanes can answer, and the
BUF window (R43). -/

namespace Sys2Proof.Proofs

open Sys2Proof.Machine Sys2Proof.Claims

/-! ### The shape of an access -/

/-- An access of another shape than R42's is not one the window answers. -/
theorem accessOk_eq_false {off bytes : Nat} (h : ¬(bytes = 4 ∧ off % 4 = 0 ∧ off ≤ 0x2FFFF)) :
    accessOk off bytes = false := by
  refine decide_eq_false fun ⟨hw, h4, hl⟩ => h ⟨hw, h4, ?_⟩
  omega

/-- The step of a host read of another shape is refused (R42). -/
theorem step_hostRead_refused {s : State} {off bytes : Nat} {rest : List Turn}
    (h : s.script = .hostRead off bytes :: rest) (ho : accessOk off bytes = false) :
    step s = .refused (.accessShape off bytes) := by
  simp [step, stepTurn, h, takeTurn, hostRead, ho]

/-- The step of a host write of another shape is refused (R42). -/
theorem step_hostWrite_refused {s : State} {off bytes : Nat} {v : Word} {rest : List Turn}
    (h : s.script = .hostWrite off bytes v :: rest) (ho : accessOk off bytes = false) :
    step s = .refused (.accessShape off bytes) := by
  simp [step, stepTurn, h, takeTurn, hostWrite, ho]

/-! ### Reads of the buffer windows -/

/-- The step of a host read whose value is not defined stops the model (R32). -/
theorem step_hostRead_fault {s : State} {off : Nat} {rest : List Turn} {r : Reg} {f : Fault}
    (h : s.script = .hostRead off 4 :: rest) (h4 : off % 4 = 0) (hl : off < 0x30000)
    (hr : regAt s.build off = r) (hb : s.pending = none ∨ unspecifiedWhileBusy r = false)
    (hf : regValue s r = .error f) :
    step s = .fault f := by
  have hfree : (busy s && unspecifiedWhileBusy r) = false := by
    obtain hb | hb := hb <;> simp [busy, hb]
  rw [step_hostRead h h4 hl, hr]
  change readReg (afterTurn s rest) r = .fault f
  simp only [readReg, regValue_afterTurn, hf]
  exact if_neg (ne_true_of_eq_false hfree)

/-- A read of four lanes answers the word of their values, or stops as one of them does (R43, R45). -/
theorem readLanes_cases (lane : Nat → Except Fault Byte) (b : Nat) :
    (∃ v, readLanes lane b = .ok v ∧ ∀ k, k < 4 → lane (b + k) = .ok (laneOf v k)) ∨
    ∃ k f, k < 4 ∧ lane (b + k) = .error f ∧ readLanes lane b = .error f := by
  cases h0 : lane b with
  | error f => exact .inr ⟨0, f, by decide, h0, by rw [readLanes, h0]; rfl⟩
  | ok b0 =>
  cases h1 : lane (b + 1) with
  | error f => exact .inr ⟨1, f, by decide, h1, by rw [readLanes, h0, h1]; rfl⟩
  | ok b1 =>
  cases h2 : lane (b + 2) with
  | error f => exact .inr ⟨2, f, by decide, h2, by rw [readLanes, h0, h1, h2]; rfl⟩
  | ok b2 =>
  cases h3 : lane (b + 3) with
  | error f => exact .inr ⟨3, f, by decide, h3, by rw [readLanes, h0, h1, h2, h3]; rfl⟩
  | ok b3 =>
  refine .inl ⟨laneWord b0 b1 b2 b3, by rw [readLanes, h0, h1, h2, h3]; rfl, fun k hk => ?_⟩
  obtain ⟨e0, e1, e2, e3⟩ := laneOf_laneWord b0 b1 b2 b3
  interval_cases k
  · rw [e0, ← h0, Nat.add_zero]
  · rw [e1, h1]
  · rw [e2, h2]
  · rw [e3, h3]

/-- A lane of BUF has the value of the byte written there, and 0 at or beyond BUF_BYTES (R43). -/
theorem bufLane_eq_ok {s : State} {b : Nat} {v : Byte} :
    bufLane s b = .ok v ↔ if b < s.build.bufBytes then storeGet s.buf b = some v else v = 0 := by
  unfold bufLane
  split
  · cases storeGet s.buf b <;> simp
  · rw [Except.ok.injEq, eq_comm]

/-- A lane of BUF stops a read exactly when it is below BUF_BYTES and nothing has written it (R43). -/
theorem bufLane_eq_error {s : State} {b : Nat} {f : Fault} :
    bufLane s b = .error f ↔
      b < s.build.bufBytes ∧ storeGet s.buf b = none ∧ f = .bufUnwritten b := by
  unfold bufLane
  split
  · next h => cases storeGet s.buf b <;> simp [h, eq_comm]
  · next h => simp [h]

/-! ### The BUF window -/

/-- The offset of word `j` of BUF names the byte of its lane 0 (R13, R43). -/
theorem regAt_bufWord {b : Build} {j : Nat} (hb : b.Legal) (hj : 4 * j < b.bufBytes) :
    regAt b (0x10000 + 4 * j) = .buf (4 * j) := by
  obtain ⟨-, -, ⟨-, hmax⟩, -⟩ := hb
  rw [regAt_buf b hmax _ (by omega) (by omega), Nat.add_sub_cancel_left]

/-- The offset of a word of BUF is aligned and inside the window. -/
theorem bufWordOffset_bounds {b : Build} {j : Nat} (hb : b.Legal) (hj : 4 * j < b.bufBytes) :
    (0x10000 + 4 * j) % 4 = 0 ∧ 0x10000 + 4 * j < 0x30000 := by
  obtain ⟨-, -, ⟨-, hmax⟩, -⟩ := hb
  omega

/-- A host read of a word of BUF hands back its lanes or stops at one nothing has written, BUSY or not
(R43). -/
theorem step_hostRead_readsBufWord {s : State} {rest : List Turn} {j : Nat} (hb : s.build.Legal)
    (hj : 4 * j < s.build.bufBytes) (h : s.script = .hostRead (0x10000 + 4 * j) 4 :: rest) :
    readsBufWord s rest j := by
  obtain ⟨h4, hl⟩ := bufWordOffset_bounds hb hj
  have hr := regAt_bufWord hb hj
  obtain ⟨v, hv, hlane⟩ | ⟨k, f, hk, hf, hv⟩ := readLanes_cases (bufLane s) (4 * j)
  · refine ⟨fun _ => ⟨v, step_hostRead_value h h4 hl hr (.inr rfl) hv, fun k hk => ?_⟩,
      fun b h0 h1 hlt hn => ?_⟩
    · have hbyte := bufLane_eq_ok.mp (hlane k hk)
      change laneOf v k = _
      split at hbyte
      · next hlt => rw [if_pos hlt, hbyte, Option.getD_some]
      · next hlt => rw [if_neg hlt, hbyte]
    · have hok := hlane (b - 4 * j) (by omega)
      rw [Nat.add_sub_cancel' h0, bufLane_eq_error.mpr ⟨hlt, hn, rfl⟩] at hok
      cases hok
  · obtain ⟨hlt, hn, rfl⟩ := bufLane_eq_error.mp hf
    refine ⟨fun hw => ?_, fun _ _ _ _ _ =>
      ⟨4 * j + k, step_hostRead_fault h h4 hl hr (.inr rfl) hv, hn⟩⟩
    have hsome := hw (4 * j + k) (by omega) (by omega) hlt
    simp [hn] at hsome

/-- No command writes BUF (R43). -/
theorem exec_buf {i : Instr} {s t : State} (h : exec i s = .next t) : t.buf = s.buf := by
  obtain ⟨c, info, rfl⟩ | he := exec_next h
  · exact record_buf s c _ info
  · exact (congrArg State.buf (commandEffect_frame he) :)

end Sys2Proof.Proofs
end

section
/-! The memories of 20_memory.md: the shape of a host access and the BUF window. -/

namespace Sys2Proof.Proofs

open Sys2Proof.Machine Sys2Proof.Claims

/-- Settles O47: a word of BUF is an input that stores its lanes below BUF_BYTES while BUSY = 0, a read
answers by its lanes, and a command's next state has the BUF it started with. -/
theorem bufWindowRule : Obligations.BufWindowRule := by
  refine ⟨fun s rest j hb hj hp => ⟨fun v h => ?_, step_hostRead_readsBufWord hb hj⟩,
    fun i s t h => exec_buf h⟩
  obtain ⟨h4, hl⟩ := bufWordOffset_bounds hb hj
  refine ⟨bufStore s.build.bufBytes v (4 * j) 4 0 s.buf, ?_,
    fun b => storeGet_bufStore s.build.bufBytes v (4 * j) 4 0 s.buf b⟩
  rw [step_hostWrite_reg h h4 hl (regAt_bufWord hb hj),
    writeReg_input_idle (afterTurn s rest) _ v rfl hp]
  rfl

/-- Settles O51: another shape fails the check of the access, and the right one is a write of the register
at its offset. -/
theorem accessShapeRule : Obligations.AccessShapeRule := by
  refine fun s rest off bytes v => ⟨fun hn => ?_, ?_⟩
  · exact ⟨fun h => step_hostRead_refused h (accessOk_eq_false hn),
      fun h => step_hostWrite_refused h (accessOk_eq_false hn)⟩
  · rintro rfl h4 hl h
    exact ⟨_, step_hostWrite h h4 (by omega)⟩

end Sys2Proof.Proofs
end

section
/-! What the bit parser commands share: the word of a command decodes to it, and the rules by which the
body of a command is run one read at a time until it ends in a next state or in a recorded fault. -/

namespace Sys2Proof.Proofs

open Sys2Proof.Machine Sys2Proof.Claims

/-! ### The word of a command, format by format (R61) -/

section
variable {w : Word}

theorem decodeFZ_ok {i : Instr} (h : bits w 23 0 = 0) : decodeFZ w i = .ok i := if_pos h

theorem decodeFN_ok {mk : Nat → Instr} {n : Nat} (h : bits w 23 0 = n) (hn : n < 2 ^ 6) :
    decodeFN w mk = .ok (mk n) := by
  have hz : bits w 23 6 = 0 := by simp only [bits] at h ⊢; omega
  have hf : bits w 5 0 = n := by simp only [bits] at h ⊢; omega
  rw [decodeFN, if_pos hz, hf]

theorem decodeFNM_ok {mk : Nat → Nat → Instr} {n m : Nat} (h : bits w 23 0 = m * 2 ^ 6 + n)
    (hn : n < 2 ^ 6) (hm : m < 2 ^ 6) : decodeFNM w mk = .ok (mk n m) := by
  have hz : bits w 23 12 = 0 := by simp only [bits] at h ⊢; omega
  have hf : bits w 5 0 = n := by simp only [bits] at h ⊢; omega
  have hg : bits w 11 6 = m := by simp only [bits] at h ⊢; omega
  rw [decodeFNM, if_pos hz, hf, hg]

theorem decodeFC_ok {mk : Nat → Instr} {c : Nat} (h : bits w 23 0 = c) :
    decodeFC w mk = .ok (mk c) := by
  rw [decodeFC, h]

theorem decodeFI_ok {mk : Nat → Instr} {x : Nat} (h : bits w 23 0 = x) (hx : x < 2 ^ 8) :
    decodeFI w mk = .ok (mk x) := by
  have hz : bits w 23 8 = 0 := by simp only [bits] at h ⊢; omega
  have hf : bits w 7 0 = x := by simp only [bits] at h ⊢; omega
  rw [decodeFI, if_pos hz, hf]

end

/-- The word of a well-formed command decodes to it: its opcode selects the format that its operands were
put in (R61, R62). -/
theorem decode_encode {i : Instr} (h : i.wellFormed = true) : decode (encode i) = .ok i := by
  obtain ⟨hop, hv⟩ := Laws.OpcodeField.all i h
  cases i with
  | nop | readbit =>
    rw [decode, hop]
    exact decodeFZ_ok hv
  | skip | readbytes =>
    rw [decode, hop]
    exact decodeFC_ok hv
  | read | peek | varlen =>
    rw [decode, hop]
    exact decodeFN_ok hv (of_decide_eq_true h)
  | escf | escv =>
    obtain ⟨hn, hm⟩ := (Bool.and_eq_true _ _).mp h
    rw [decode, hop]
    exact decodeFNM_ok hv (of_decide_eq_true hn) (of_decide_eq_true hm)
  | hmat | hvec | hidx | lutbands | lutchan | qfwd | qinv | qclr =>
    rw [decode, hop]
    exact decodeFI_ok hv (of_decide_eq_true h)

/-- A well-formed command is spelled by its opcode above its operand bits (R60, R61). -/
theorem spelled_of_wellFormed {i : Instr} {w : Nat} (h : i.wellFormed = true)
    (hw : opcodeOf i * 2 ^ 24 + operandBits i = w := by simp only [opcodeOf, operandBits]; omega) :
    spelled i w :=
  ⟨hw ▸ rfl, hw ▸ decode_encode h⟩

/-! ### Running a body -/

/-- The command is carried out in state `s` by committing the body `r` under its own word (R119, R121). -/
def Commits (i : Instr) (s : State) (r : Run State) : Prop :=
  exec i s = commitCommand (encode i) s r

section
variable {i : Instr} {s t : State} {α : Type} {r : Run α} {k : α → Run State} {c : FaultCode}
  {info : Nat}

/-- A body that returns gives the command's next state. -/
theorem Commits.next (h : Commits i s (.ok t)) : exec i s = .next t := h

/-- A body that raises makes the command fault. -/
theorem Commits.fault (h : Commits i s (.raise c (BitVec.ofNat 32 info))) : faults i s c info := h

/-- The body goes on with what its first part returns. -/
theorem Commits.bind_ok {a : α} (h : Commits i s (r.bind k)) (hr : r = .ok a) : Commits i s (k a) := by
  subst hr
  exact h

/-- The body ends in the fault that its first part raises. -/
theorem Commits.bind_raise (h : Commits i s (r.bind k)) (hr : r = .raise c (BitVec.ofNat 32 info)) :
    faults i s c info := by
  subst hr
  exact h

end

/-- A legal operand passes its check (R119). -/
theorem checkOperand_of_legal (f : OperandField) (v : Nat) {P : Prop} [Decidable P] (h : P) :
    checkOperand f (decide P) v = .ok () := by
  rw [decide_eq_true h, checkOperand_legal]

/-- An operand outside its range raises BAD_OPERAND with its field and value (R119, R127). -/
theorem checkOperand_of_illegal (f : OperandField) (v : Nat) {P : Prop} [Decidable P] (h : ¬P) :
    checkOperand f (decide P) v =
      .raise .badOperand (BitVec.ofNat 32 (fieldValue (operandFieldCode f) v)) := by
  rw [decide_eq_false h, checkOperand_illegal, fieldInfo]

end Sys2Proof.Proofs
end

section
/-! The reads of the bit parser by what the stream holds: a read of written bits inside END gives their
value, and one that passes END raises BIT_UNDERRUN (R71, R77). -/

namespace Sys2Proof.Proofs

open Sys2Proof.Machine Sys2Proof.Claims

section
variable {s : State} {p n m : Nat}

/-! ### Values and marks of the stream -/

theorem streamValue_one (s : State) (p : Nat) : streamValue s p 1 = (streamBit s p).toNat := by
  simp [streamValue]

/-- The first bit of a field is its most significant one (R71). -/
theorem streamValue_succ_first (s : State) (p n : Nat) :
    streamValue s p (n + 1) = (streamBit s p).toNat * 2 ^ n + streamValue s (p + 1) n := by
  induction n with
  | zero => simp [streamValue]
  | succ n ih =>
    rw [streamValue, ih, streamValue, Nat.add_right_comm p 1 n, Nat.add_assoc p n 1]
    ring

/-- A run of written bits is two such runs, one after the other. -/
theorem streamWritten_add :
    streamWritten s p (n + m) ↔ streamWritten s p n ∧ streamWritten s (p + n) m := by
  constructor
  · exact fun h => ⟨fun a h0 h1 => h a h0 (by omega), fun a h0 h1 => h a (by omega) (by omega)⟩
  · rintro ⟨hn, hm⟩ a h0 h1
    obtain h | h := Nat.lt_or_ge a (p + n)
    · exact hn a h0 h
    · exact hm a h (by omega)

theorem streamWritten_one : streamWritten s p 1 ↔ (storeGet s.buf (p / 8)).isSome = true := by
  constructor
  · exact fun h => h p (le_refl p) (Nat.lt_succ_self p)
  · intro h a h0 h1
    obtain rfl : a = p := by omega
    exact h

/-! ### Reads inside END -/

/-- A bit of a written byte is the stream's bit (R46). -/
theorem bitAt_of_written (h : streamWritten s p 1) : bitAt s p = .ok (streamBit s p).toNat := by
  obtain ⟨v, hv⟩ := Option.isSome_iff_exists.mp (streamWritten_one.mp h)
  simp only [bitAt, bufByte, streamBit, hv, bind_ok, Option.getD_some, BitVec.getLsbD,
    Nat.toNat_testBit]

/-- The loop of ReadBits shifts the field into what was read before it (R71). -/
theorem bitsFrom_of_written {v : Nat} (h : streamWritten s p n) :
    bitsFrom s n p v = .ok (v * 2 ^ n + streamValue s p n) := by
  induction n generalizing p v with
  | zero => simp [bitsFrom, streamValue]
  | succ n ih =>
    obtain ⟨hfirst, hrest⟩ := streamWritten_add.mp (Nat.add_comm n 1 ▸ h)
    rw [bitsFrom, bitAt_of_written hfirst, bind_ok, ih hrest, streamValue_succ_first]
    congr 1
    ring

/-- `ReadBits(n)` of written bits inside END gives their value (R71). -/
theorem readBits_of_written (he : p + n ≤ endOf s) (hw : streamWritten s p n) :
    readBits s p n = .ok (streamValue s p n) := by
  rw [readBits, if_neg (Nat.not_lt.mpr he), bitsFrom_of_written hw, Nat.zero_mul, Nat.zero_add]

/-- The 8-bit groups that READBYTES copies are the stream's, whether or not they are aligned (R77). -/
theorem bytesFrom_of_written {c : Nat} (he : p + 8 * c ≤ endOf s) (hw : streamWritten s p (8 * c)) :
    bytesFrom s c p =
      .ok ((List.range c).map fun b => BitVec.ofNat 8 (streamValue s (p + 8 * b) 8)) := by
  induction c generalizing p with
  | zero => rfl
  | succ c ih =>
    obtain ⟨hbyte, hrest⟩ := streamWritten_add.mp (show streamWritten s p (8 + 8 * c) by
      rwa [Nat.add_comm, ← Nat.mul_succ])
    rw [bytesFrom, readBits_of_written (by omega) hbyte, bind_ok, ih (by omega) hrest,
      bind_ok, List.range_succ_eq_map, List.map_cons, List.map_map]
    simp only [Function.comp_def, Nat.mul_zero, Nat.add_zero, Nat.mul_succ, Nat.add_assoc, Nat.add_comm 8]

/-! ### Reads beyond END -/

/-- `ReadBits(n)` past END raises BIT_UNDERRUN at the larger of its cursor and END (R71). -/
theorem readBits_underrun (h : endOf s < p + n) :
    readBits s p n = .raise .bitUnderrun (BitVec.ofNat 32 (max p (endOf s))) :=
  readBits_raise.mpr ⟨h, rfl, rfl⟩

end

end Sys2Proof.Proofs
end

section
/-! Variable-length integers: `VarBits(n)` by the groups the stream holds, each continued, and by how the
group after them ends it (R78). -/

namespace Sys2Proof.Proofs

open Sys2Proof.Machine Sys2Proof.Claims

/-- The accumulator never falls, so one below 2^32 was below it after every group. -/
theorem le_accumulate (n v : Nat) (gs : List Nat) : v ≤ accumulate n v gs := by
  induction gs generalizing v with
  | nil => exact le_refl v
  | cons g gs ih =>
    calc v ≤ v + g := Nat.le_add_right v g
      _ ≤ (v + g) * 2 ^ n := Nat.le_mul_of_pos_right _ (by positivity)
      _ ≤ (v + g) * 2 ^ n + 2 ^ n := Nat.le_add_right _ _
      _ ≤ accumulate n v (g :: gs) := ih _

section
variable {s : State} {n p v : Nat}

/-- One turn of the loop on a written group and its continuation bit, both inside END (R78). -/
theorem varBitsFrom_group (he : p + n + 1 ≤ endOf s) (hw : streamWritten s p (n + 1)) :
    varBitsFrom s n (endOf s - p) p v =
      if streamBit s (p + n) = false then .ok (v + streamValue s p n, p + n + 1)
      else if 2 ^ 32 ≤ (v + streamValue s p n) * 2 ^ n + 2 ^ n then
        .raise .varlenOverflow (BitVec.ofNat 32 (p + n + 1))
      else varBitsFrom s n (endOf s - (p + n + 1)) (p + n + 1)
        ((v + streamValue s p n) * 2 ^ n + 2 ^ n) := by
  obtain ⟨hgroup, hmore⟩ := streamWritten_add.mp hw
  rw [varBitsFrom_loop, readBits_of_written (by omega) hgroup, bind_ok,
    readBits_of_written he hmore, bind_ok, streamValue_one]
  simp only [Bool.toNat_eq_zero]

/-- The loop raises BIT_UNDERRUN at the group's cursor when the group or its continuation bit lies beyond
END (R78). -/
theorem varBitsFrom_underrun (he : endOf s < p + n + 1)
    (hw : p + n ≤ endOf s → streamWritten s p n) :
    varBitsFrom s n (endOf s - p) p v =
      .raise .bitUnderrun (BitVec.ofNat 32 (max p (endOf s))) := by
  rw [varBitsFrom_loop]
  obtain h | h := Nat.lt_or_ge (endOf s) (p + n)
  · rw [readBits_underrun h, bind_raise]
  · have hmax : max (p + n) (endOf s) = max p (endOf s) := by omega
    rw [readBits_of_written h (hw h), bind_ok, readBits_underrun he, bind_raise, hmax]

/-- The loop reads every continued group and goes on behind them. -/
theorem varBitsFrom_groups {gs : List Nat} (hg : groupsContinue s n p gs)
    (hv : accumulate n v gs < 2 ^ 32) :
    varBitsFrom s n (endOf s - p) p v =
      varBitsFrom s n (endOf s - (p + gs.length * (n + 1))) (p + gs.length * (n + 1))
        (accumulate n v gs) := by
  induction gs generalizing p v with
  | nil => simp [accumulate]
  | cons g gs ih =>
    obtain ⟨hw, he, rfl, hbit, hrest⟩ := hg
    have hnext : p + n + 1 + gs.length * (n + 1) = p + (gs.length + 1) * (n + 1) := by ring
    have hlt : (v + streamValue s p n) * 2 ^ n + 2 ^ n < 2 ^ 32 :=
      (le_accumulate n _ gs).trans_lt hv
    rw [varBitsFrom_group he hw, if_neg (by simp [hbit]), if_neg (Nat.not_le.mpr hlt), ih hrest hv,
      hnext]
    rfl

end

section
variable {s : State} {n p q e : Nat} {gs : List Nat}
  (hg : groupsContinue s n p gs) (hv : accumulate n 0 gs < 2 ^ 32)
  (hq : q = p + gs.length * (n + 1)) (hsum : e = accumulate n 0 gs + streamValue s q n)
include hg hv hq

/-- `VarBits(n)` whose next group or continuation bit lies beyond END (R78). -/
theorem varBits_underrun (he : endOf s < q + n + 1) (hw : q + n ≤ endOf s → streamWritten s q n) :
    varBits s p n = .raise .bitUnderrun (BitVec.ofNat 32 (max q (endOf s))) := by
  subst hq
  exact (varBitsFrom_groups hg hv).trans (varBitsFrom_underrun he hw)

include hsum

/-- `VarBits(n)` whose next group is the last: the accumulator plus that group (R78). -/
theorem varBits_ends (he : q + n + 1 ≤ endOf s) (hw : streamWritten s q (n + 1))
    (hb : streamBit s (q + n) = false) : varBits s p n = .ok (e, q + n + 1) := by
  subst hq hsum
  rw [varBits, varBitsFrom_groups hg hv, varBitsFrom_group he hw, if_pos hb]

/-- `VarBits(n)` whose next group is continued and takes the accumulator to 2^32 (R78). -/
theorem varBits_overflows (he : q + n + 1 ≤ endOf s) (hw : streamWritten s q (n + 1))
    (hb : streamBit s (q + n) = true) (ho : 2 ^ 32 ≤ e * 2 ^ n + 2 ^ n) :
    varBits s p n = .raise .varlenOverflow (BitVec.ofNat 32 (q + n + 1)) := by
  subst hq hsum
  rw [varBits, varBitsFrom_groups hg hv, varBitsFrom_group he hw, if_neg (by simp [hb]), if_pos ho]

end

end Sys2Proof.Proofs
end

section
/-! The bodies of the bit parser commands: what each runs once its operands have passed their checks, and
the body that ESCF and ESCV share. -/

namespace Sys2Proof.Proofs

open Sys2Proof.Machine Sys2Proof.Claims

/-- A command that checks n, reads a field of n bits at the cursor and finishes with its value: the three
outcomes of R73 and R74. -/
theorem fieldRead_outcomes {i : Instr} {s : State} {n : Nat} {finish : Nat → State}
    (hrun : Commits i s ((checkOperand .n (decide (n ≤ 32)) n).bind fun _ =>
      (readBits s (cursor s) n).bind fun v => .ok (finish v))) :
    (32 < n → faults i s .badOperand (fieldValue 0x01 n)) ∧
    (n ≤ 32 → endOf s < cursor s + n → faults i s .bitUnderrun (max (cursor s) (endOf s))) ∧
    (n ≤ 32 → cursor s + n ≤ endOf s → streamWritten s (cursor s) n →
      exec i s = .next (finish (streamValue s (cursor s) n))) := by
  refine ⟨fun hn => ?_, fun hn he => ?_, fun hn he hw => ?_⟩
  · exact hrun.bind_raise (checkOperand_of_illegal .n n (Nat.not_le.mpr hn))
  · exact (hrun.bind_ok (checkOperand_of_legal .n n hn)).bind_raise (readBits_underrun he)
  · exact ((hrun.bind_ok (checkOperand_of_legal .n n hn)).bind_ok (readBits_of_written he hw)).next

/-- The body of an escape command, by what it does after an all-ones field (R80, R81). -/
def escapeBody (s : State) (n m : Nat) (extend : Nat → Run State) : Run State :=
  (checkOperand .n (decide (1 ≤ n ∧ n ≤ 32)) n).bind fun _ =>
  (checkOperand .m (decide (m ≤ 32)) m).bind fun _ =>
  (readBits s (cursor s) n).bind fun v =>
    if v = 2 ^ n - 1 then extend v else .ok (withResult s v (cursor s + n))

theorem commits_escf (n m : Nat) (s : State) :
    Commits (.escf n m) s <| escapeBody s n m fun v =>
      (readBits s (cursor s + n) m).bind fun e => escapeSum s v (e, cursor s + n + m) := rfl

theorem commits_escv (n m : Nat) (s : State) :
    Commits (.escv n m) s <| escapeBody s n m fun v =>
      (varBits s (cursor s + n) m).bind (escapeSum s v) := rfl

section
variable {i : Instr} {s : State} {n m : Nat} {extend : Nat → Run State}
  (h : Commits i s (escapeBody s n m extend))
include h

theorem escape_illegal_n (hn : n < 1 ∨ 32 < n) : faults i s .badOperand (fieldValue 0x01 n) :=
  h.bind_raise (checkOperand_of_illegal .n n (by omega))

theorem escape_illegal_m (hn : 1 ≤ n ∧ n ≤ 32) (hm : 32 < m) :
    faults i s .badOperand (fieldValue 0x02 m) :=
  (h.bind_ok (checkOperand_of_legal .n n hn)).bind_raise (checkOperand_of_illegal .m m (by omega))

variable (hn : 1 ≤ n ∧ n ≤ 32) (hm : m ≤ 32)
include hn hm

/-- With legal operands an escape command begins with its field. -/
theorem escape_reads_field :
    Commits i s ((readBits s (cursor s) n).bind fun v =>
      if v = 2 ^ n - 1 then extend v else .ok (withResult s v (cursor s + n))) :=
  (h.bind_ok (checkOperand_of_legal .n n hn)).bind_ok (checkOperand_of_legal .m m hm)

theorem escape_underrun (he : endOf s < cursor s + n) :
    faults i s .bitUnderrun (max (cursor s) (endOf s)) :=
  (escape_reads_field h hn hm).bind_raise (readBits_underrun he)

variable (he : cursor s + n ≤ endOf s) (hw : streamWritten s (cursor s) n)
include he hw

/-- A field that is not all ones is the result. -/
theorem escape_plain (hv : streamValue s (cursor s) n ≠ 2 ^ n - 1) :
    exec i s = .next (withResult s (streamValue s (cursor s) n) (cursor s + n)) := by
  have hrun := (escape_reads_field h hn hm).bind_ok (readBits_of_written he hw)
  rw [if_neg hv] at hrun
  exact hrun.next

/-- An all-ones field is extended. -/
theorem escape_extends (hv : streamValue s (cursor s) n = 2 ^ n - 1) :
    Commits i s (extend (2 ^ n - 1)) := by
  have hrun := (escape_reads_field h hn hm).bind_ok (readBits_of_written he hw)
  rwa [if_pos hv, hv] at hrun

end

/-- ESCF on an all-ones field with its extension inside END comes to their sum (R80). -/
theorem escf_adds_extension {s : State} {n m : Nat} (hn : 1 ≤ n ∧ n ≤ 32) (hm : m ≤ 32)
    (he : cursor s + n + m ≤ endOf s) (hw : streamWritten s (cursor s) (n + m))
    (hv : streamValue s (cursor s) n = 2 ^ n - 1) :
    Commits (.escf n m) s
      (escapeSum s (2 ^ n - 1) (streamValue s (cursor s + n) m, cursor s + n + m)) := by
  obtain ⟨hfield, hext⟩ := streamWritten_add.mp hw
  have hrun := escape_extends (commits_escf n m s) hn hm (Nat.le_of_add_right_le he) hfield hv
  exact hrun.bind_ok (readBits_of_written he hext)

section
variable {i : Instr} {s : State} {v e q : Nat} (h : Commits i s (escapeSum s v (e, q)))
include h

/-- The sum of a field and its extension that reaches 2^32 (R80, R81). -/
theorem escapeSum_overflows (ho : 2 ^ 32 ≤ v + e) : faults i s .varlenOverflow q := by
  rw [escapeSum, if_pos ho] at h
  exact h.fault

/-- The sum of a field and its extension below 2^32 is the result (R80, R81). -/
theorem escapeSum_fits (hf : v + e < 2 ^ 32) : exec i s = .next (withResult s (v + e) q) := by
  rw [escapeSum, if_neg (Nat.not_le.mpr hf)] at h
  exact h.next

end

end Sys2Proof.Proofs
end

section
/-! The commands of 40_bitparser.md. -/

namespace Sys2Proof.Proofs

open Sys2Proof.Machine Sys2Proof.Claims

/-- Settles O16: the field read at the cursor is the result, and the cursor moves past it. -/
theorem readRule : Obligations.ReadRule :=
  ⟨fun _ hn => spelled_of_wellFormed (decide_eq_true hn),
    fun n s => fieldRead_outcomes (finish := fun v => withResult s v (cursor s + n)) rfl⟩

/-- Settles O17: the field read at the cursor is the result, and the cursor stays. -/
theorem peekRule : Obligations.PeekRule :=
  ⟨fun _ hn => spelled_of_wellFormed (decide_eq_true hn),
    fun _ s => fieldRead_outcomes (finish := setRes s) rfl⟩

/-- Settles O18: a read of one bit, which is a field of its own. -/
theorem readbitRule : Obligations.ReadbitRule := by
  refine ⟨spelled_of_wellFormed rfl rfl, fun s => ?_⟩
  have hrun : Commits .readbit s
      ((readBits s (cursor s) 1).bind fun v => .ok (withResult s v (cursor s + 1))) := rfl
  refine ⟨fun he => hrun.bind_raise (readBits_underrun (by omega)), fun he hw => ?_⟩
  rw [← streamValue_one]
  exact (hrun.bind_ok (readBits_of_written he hw)).next

/-- Settles O19: the range is checked and no bit is read. -/
theorem skipRule : Obligations.SkipRule := by
  refine ⟨fun c hc => spelled_of_wellFormed (decide_eq_true hc), fun c s => ?_⟩
  have hrun : Commits (.skip c) s (if endOf s < cursor s + c then
      .raise .bitUnderrun (underrunInfo s (cursor s)) else .ok (setPos s (cursor s + c))) := rfl
  refine ⟨fun he => ?_, fun he => ?_⟩
  · rw [if_pos he] at hrun
    exact hrun.fault
  · rw [if_neg (Nat.not_lt.mpr he)] at hrun
    exact hrun.next

/-- Settles O20: the operand and the range are checked before the bytes are read, and the bytes read are
stored from index 0 on. -/
theorem readbytesRule : Obligations.ReadbytesRule := by
  refine ⟨fun c hc => spelled_of_wellFormed (decide_eq_true hc), fun c s => ?_⟩
  have hrun : Commits (.readbytes c) s
      ((checkOperand .c (decide (c ≤ s.build.obufBytes)) c).bind fun _ =>
        if endOf s < cursor s + 8 * c then .raise .bitUnderrun (underrunInfo s (cursor s))
        else (bytesFrom s c (cursor s)).bind fun vs =>
          .ok (setPos (setObuf s vs) (cursor s + 8 * c))) := rfl
  refine ⟨fun hc => hrun.bind_raise (checkOperand_of_illegal .c c (Nat.not_le.mpr hc)),
    fun hc he => ?_, fun hc he hw => ?_⟩
  · have hrange := hrun.bind_ok (checkOperand_of_legal .c c hc)
    rw [if_pos he] at hrange
    exact hrange.fault
  · have hrange := hrun.bind_ok (checkOperand_of_legal .c c hc)
    rw [if_neg (Nat.not_lt.mpr he)] at hrange
    refine ⟨_, (hrange.bind_ok (bytesFrom_of_written he hw)).next, fun b => ?_⟩
    rw [setObuf_obuf, storeGet_storePutAll]
    by_cases hb : b < c
    · simp [hb]
    · simp [hb]

/-- Settles O21: the operand check, then `VarBits(n)` by how the group after `gs` ends it. -/
theorem varlenRule : Obligations.VarlenRule := by
  refine ⟨fun n hn => spelled_of_wellFormed (decide_eq_true hn), fun n s => ?_⟩
  have hrun : Commits (.varlen n) s ((checkOperand .n (decide (n ≤ 32)) n).bind fun _ =>
      (varBits s (cursor s) n).bind fun r => .ok (withResult s r.1 r.2)) := rfl
  refine ⟨fun hn => hrun.bind_raise (checkOperand_of_illegal .n n (Nat.not_le.mpr hn)),
    fun gs hn hg hv => ?_⟩
  have hread := hrun.bind_ok (checkOperand_of_legal .n n hn)
  refine ⟨fun he hw => ?_, fun he hw hb => ?_, fun he hw hb ho => ?_⟩
  · exact hread.bind_raise (varBits_underrun hg hv rfl he hw)
  · exact (hread.bind_ok (varBits_ends hg hv rfl rfl he hw hb)).next
  · exact hread.bind_raise (varBits_overflows hg hv rfl rfl he hw hb ho)

/-- Settles O23: an escape command whose extension is a field of m bits. -/
theorem escfRule : Obligations.EscfRule := by
  refine ⟨fun n m hn hm => spelled_of_wellFormed ((Bool.and_eq_true _ _).mpr
    ⟨decide_eq_true hn, decide_eq_true hm⟩), fun n m s => ?_⟩
  have hrun := commits_escf n m s
  refine ⟨escape_illegal_n hrun, fun h1 hn => escape_illegal_m hrun ⟨h1, hn⟩,
    fun h1 hn hm => escape_underrun hrun ⟨h1, hn⟩ hm,
    fun h1 hn hm => escape_plain hrun ⟨h1, hn⟩ hm, ?_, ?_, ?_⟩
  · intro h1 hn hm he hw hv hu
    exact (escape_extends hrun ⟨h1, hn⟩ hm he hw hv).bind_raise (readBits_underrun hu)
  · intro h1 hn hm he hw hv ho
    exact escapeSum_overflows (escf_adds_extension ⟨h1, hn⟩ hm he hw hv) ho
  · intro h1 hn hm he hw hv hf
    exact escapeSum_fits (escf_adds_extension ⟨h1, hn⟩ hm he hw hv) hf

/-- Settles O24: an escape command whose extension is `VarBits(m)` behind the field. -/
theorem escvRule : Obligations.EscvRule := by
  refine ⟨fun n m hn hm => spelled_of_wellFormed ((Bool.and_eq_true _ _).mpr
    ⟨decide_eq_true hn, decide_eq_true hm⟩), fun n m s => ?_⟩
  have hrun := commits_escv n m s
  refine ⟨escape_illegal_n hrun, fun h1 hn => escape_illegal_m hrun ⟨h1, hn⟩,
    fun h1 hn hm => escape_underrun hrun ⟨h1, hn⟩ hm,
    fun h1 hn hm => escape_plain hrun ⟨h1, hn⟩ hm, ?_⟩
  intro gs h1 hn hm he hw hv hg ha
  have hext := escape_extends hrun ⟨h1, hn⟩ hm he hw hv
  refine ⟨fun hq hwq => ?_, fun hq hwq hb ho => ?_, fun hq hwq hb ho => ?_, fun hq hwq hb hf => ?_⟩
  · exact hext.bind_raise (varBits_underrun hg ha rfl hq hwq)
  · exact hext.bind_raise (varBits_overflows hg ha rfl rfl hq hwq hb ho)
  · exact escapeSum_overflows (hext.bind_ok (varBits_ends hg ha rfl rfl hq hwq hb)) ho
  · exact escapeSum_fits (hext.bind_ok (varBits_ends hg ha rfl rfl hq hwq hb)) hf

end Sys2Proof.Proofs
end

section
/-! `HuffDecode` by the bits the stream holds: the walk goes with them to an internal node or to a leaf, and
ends in a node by a bit beyond END, an index outside the tree or the step limit (R89). -/

namespace Sys2Proof.Proofs

open Sys2Proof.Machine Sys2Proof.Claims

/-- The bit that ReadBits returns chooses the child (R89). -/
theorem entryChild_toNat (e : Entry) (b : Bool) : entryChild e b.toNat = childOf e b := by
  cases b <;> rfl

/-- The symbol of a leaf is the complement of its value as a signed number (R87). -/
theorem leafSymbol_eq {c : BitVec 16} (h : c.toInt < 0) : leafSymbol c = (-c.toInt - 1).toNat := by
  rw [BitVec.toInt_eq_toNat_cond] at h ⊢
  rw [leafSymbol, BitVec.toNat_not]
  omega

/-- A child that is no leaf is its own index (R87). -/
theorem toInt_toNat_of_internal {c : BitVec 16} (h : ¬c.toInt < 0) : c.toInt.toNat = c.toNat := by
  rw [BitVec.toInt_eq_toNat_cond] at h ⊢
  omega

/-- A stream that holds a bit and more holds that bit in a written byte, and the rest behind it. -/
theorem streamHolds_cons {s : State} {p : Nat} {b : Bool} {bs : List Bool} :
    streamHolds s p (b :: bs) ↔
      streamWritten s p 1 ∧ streamBit s p = b ∧ streamHolds s (p + 1) bs := by
  rw [streamHolds, streamWritten_one]

section
variable {s : State} {t : Tree} {left node p : Nat} {e : Entry}

/-! ### One step of the walk -/

/-- A step on a written bit inside END ends at the leaf the bit chooses, or goes on at the child. -/
theorem huffFrom_step (hn : t.entries[node]? = some e) (he : p + 1 ≤ endOf s)
    (hw : streamWritten s p 1) :
    huffFrom s t (left + 1) node p =
      if (childOf e (streamBit s p)).toInt < 0 then
        .ok ((-(childOf e (streamBit s p)).toInt - 1).toNat, p + 1)
      else huffFrom s t left (childOf e (streamBit s p)).toInt.toNat (p + 1) := by
  rw [huffFrom, hn]
  simp only [readBits_of_written he hw, bind_ok, streamValue_one, entryChild_toNat, isLeaf,
    decide_eq_true_eq]
  split
  · next hleaf => rw [leafSymbol_eq hleaf]
  · next hleaf => rw [toInt_toNat_of_internal hleaf]

/-- A step at END raises BIT_UNDERRUN (R89, R71). -/
theorem huffFrom_underrun (hl : 0 < left) (hn : node < t.len) (he : endOf s ≤ p) :
    huffFrom s t left node p = .raise .bitUnderrun (BitVec.ofNat 32 (max p (endOf s))) := by
  obtain ⟨left, rfl⟩ := Nat.exists_eq_add_one.mpr hl
  have hread : endOf s < p + 1 := Nat.lt_succ_of_le he
  rw [huffFrom, List.getElem?_eq_getElem hn]
  simp only [readBits_underrun hread, bind_raise]

/-- An index outside the tree raises HUFF_BAD_INDEX, whether or not a step is left (R89). -/
theorem huffFrom_badIndex (hn : t.len ≤ node) :
    huffFrom s t left node p = .raise .huffBadIndex (BitVec.ofNat 32 node) := by
  cases left with
  | zero => rw [huffFrom, if_pos hn]
  | succ left => rw [huffFrom, List.getElem?_eq_none hn]

/-- A node of the tree with no step left raises HUFF_NO_LEAF (R89). -/
theorem huffFrom_noLeaf (hn : node < t.len) :
    huffFrom s t 0 node p = .raise .huffNoLeaf (BitVec.ofNat 32 node) := by
  rw [huffFrom, if_neg (Nat.not_le.mpr hn)]

/-! ### The walk along the bits of the stream -/

/-- Bits that lead to an internal node take the walk there, one step each. -/
theorem huffFrom_walkNode {bs : List Bool} {n : Nat} (h : streamHolds s p bs)
    (he : bs = [] ∨ p + bs.length ≤ endOf s) (hn : walkNode t node bs = some n) :
    huffFrom s t (left + bs.length) node p = huffFrom s t left n (p + bs.length) := by
  induction bs generalizing node p with
  | nil =>
    obtain rfl : node = n := Option.some.inj hn
    rfl
  | cons b bs ih =>
    obtain ⟨hw, rfl, hrest⟩ := streamHolds_cons.mp h
    have hend := he.resolve_left (List.cons_ne_nil _ _)
    rw [List.length_cons, Nat.add_comm bs.length, ← Nat.add_assoc] at hend
    rw [walkNode] at hn
    split at hn
    · cases hn
    · next e hentry =>
      split at hn
      · cases hn
      · next hleaf =>
        rw [List.length_cons, ← Nat.add_assoc, huffFrom_step hentry (by omega) hw, if_neg hleaf,
          ih hrest (.inr hend) hn, Nat.add_right_comm, Nat.add_assoc]

/-- Bits that end at a leaf take the walk to its symbol, with the cursor behind them. -/
theorem huffFrom_walkLeaf {bs : List Bool} {c : Int} (h : streamHolds s p bs)
    (he : p + bs.length ≤ endOf s) (hc : walkLeaf t node bs = some c) :
    huffFrom s t (left + bs.length) node p = .ok ((-c - 1).toNat, p + bs.length) := by
  induction bs generalizing node p with
  | nil => cases hc
  | cons b bs ih =>
    obtain ⟨hw, rfl, hrest⟩ := streamHolds_cons.mp h
    rw [List.length_cons, Nat.add_comm bs.length, ← Nat.add_assoc] at he
    rw [walkLeaf] at hc
    split at hc
    · cases hc
    · next e hentry =>
      rw [List.length_cons, ← Nat.add_assoc, huffFrom_step hentry (by omega) hw]
      split at hc
      · next hleaf =>
        obtain ⟨rfl, rfl⟩ : bs = [] ∧ (childOf e (streamBit s p)).toInt = c := by simpa using hc
        rw [if_pos hleaf]
        rfl
      · next hleaf => rw [if_neg hleaf, ih hrest he hc, Nat.add_right_comm, Nat.add_assoc]

end

section
variable {s : State} {t : Tree} {p : Nat} {bs : List Bool} (h : streamHolds s p bs)
include h

/-- `HuffDecode` of bits that end at a leaf within HT_LEN steps (R89). -/
theorem huffDecode_leaf {c : Int} (hc : walkLeaf t 0 bs = some c) (hlen : bs.length ≤ t.len)
    (he : p + bs.length ≤ endOf s) : huffDecode s t p = .ok ((-c - 1).toNat, p + bs.length) := by
  obtain ⟨left, hleft⟩ := Nat.exists_eq_add_of_le' hlen
  rw [huffDecode, hleft]
  exact huffFrom_walkLeaf h he hc

/-- `HuffDecode` of bits that lead to an internal node goes on there with the steps that are left. -/
theorem huffDecode_node {node : Nat} (hn : walkNode t 0 bs = some node) (hlen : bs.length ≤ t.len)
    (he : bs = [] ∨ p + bs.length ≤ endOf s) :
    huffDecode s t p = huffFrom s t (t.len - bs.length) node (p + bs.length) := by
  rw [← huffFrom_walkNode h he hn, Nat.sub_add_cancel hlen, huffDecode]

end

end Sys2Proof.Proofs
end

section
/-! What the commands of 41_huffman.md run: one symbol of a tree, or one entry of a table. -/

namespace Sys2Proof.Proofs

open Sys2Proof.Machine Sys2Proof.Claims

/-! ### The bodies -/

theorem commits_hidx (x : Nat) (s : State) :
    Commits (.hidx x) s ((checkOperand .x (decide (x = 5 ∨ x = 7)) x).bind fun _ =>
      huffCommand s (indexTree s.build x)) := rfl

theorem commits_lutbands (x : Nat) (s : State) :
    Commits (.lutbands x) s ((checkOperand .x (decide (x ≤ 7)) x).bind fun _ =>
      .ok (setRes s (bandLut.getD x 0))) := rfl

theorem commits_lutchan (x : Nat) (s : State) :
    Commits (.lutchan x) s ((checkOperand .x (decide (x ≤ 7)) x).bind fun _ =>
      if 4 < x then .raise .unsupported (fieldInfo 0x01 x)
      else .ok (setRes s (chanLut.getD x 0))) := rfl

/-- HIDX of a legal channel count decodes a symbol of that count's tree (R88, R92). -/
theorem commits_hidx_of_legal {x : Nat} (s : State) (hx : x = 5 ∨ x = 7) :
    Commits (.hidx x) s (huffCommand s (indexTree s.build x)) :=
  (commits_hidx x s).bind_ok (checkOperand_of_legal .x x hx)

/-- A command that uses a tree decodes one symbol of it (R88, R90 to R92). -/
theorem commits_huffCommand {i : Instr} {s : State} {t : Tree} (h : treeOf s.build i = some t) :
    Commits i s (huffCommand s t) := by
  cases i with
  | hmat | hvec =>
    obtain rfl := Option.some.inj h
    rfl
  | hidx x =>
    rw [treeOf] at h
    split at h
    · next hx =>
      obtain rfl := Option.some.inj h
      subst hx
      exact commits_hidx_of_legal s (.inr rfl)
    · split at h
      · next hx =>
        obtain rfl := Option.some.inj h
        subst hx
        exact commits_hidx_of_legal s (.inl rfl)
      · cases h
  | nop | read | peek | readbit | skip | readbytes | varlen | escf | escv | lutbands | lutchan
  | qfwd | qinv | qclr => cases h

/-! ### The lookup tables by their operand -/

section
variable {x : Nat} (s : State)

/-- LUTBANDS of a legal operand gives its entry of BAND_LUT (R98). -/
theorem lutbands_entry (hx : x ≤ 7) : exec (.lutbands x) s = .next (setRes s (bandLut.getD x 0)) :=
  ((commits_lutbands x s).bind_ok (checkOperand_of_legal .x x hx)).next

theorem lutbands_illegal (hx : 7 < x) : faults (.lutbands x) s .badOperand (fieldValue 0x04 x) :=
  (commits_lutbands x s).bind_raise (checkOperand_of_illegal .x x (Nat.not_le.mpr hx))

/-- LUTCHAN of a supported operand gives its entry of CHAN_LUT (R99). -/
theorem lutchan_entry (hx : x ≤ 4) : exec (.lutchan x) s = .next (setRes s (chanLut.getD x 0)) := by
  have hrun := (commits_lutchan x s).bind_ok (checkOperand_of_legal .x x (by omega))
  rw [if_neg (Nat.not_lt.mpr hx)] at hrun
  exact hrun.next

/-- LUTCHAN of 5, 6 or 7 is well-formed but unsupported (R99). -/
theorem lutchan_unsupported (h4 : 4 < x) (h7 : x ≤ 7) :
    faults (.lutchan x) s .unsupported (fieldValue 0x01 x) := by
  have hrun := (commits_lutchan x s).bind_ok (checkOperand_of_legal .x x h7)
  rw [if_pos h4] at hrun
  exact hrun.fault

theorem lutchan_illegal (hx : 7 < x) : faults (.lutchan x) s .badOperand (fieldValue 0x04 x) :=
  (commits_lutchan x s).bind_raise (checkOperand_of_illegal .x x (Nat.not_le.mpr hx))

end

end Sys2Proof.Proofs
end

section
/-! The commands of 41_huffman.md. -/

namespace Sys2Proof.Proofs

open Sys2Proof.Machine Sys2Proof.Claims

/-- Settles O28: the walk follows the stream's bits to a leaf, or to a node where it ends in a fault. -/
theorem huffmanRule : Obligations.HuffmanRule := by
  refine ⟨fun x hx => ?_, fun x s h5 h7 => ?_, fun i s t bs ht h => ?_⟩
  · have hwf : decide (x < 2 ^ 8) = true := decide_eq_true hx
    exact ⟨spelled_of_wellFormed hwf, spelled_of_wellFormed hwf, spelled_of_wellFormed hwf⟩
  · exact (commits_hidx x s).bind_raise (checkOperand_of_illegal .x x (not_or.mpr ⟨h5, h7⟩))
  · have hrun : Commits i s ((huffDecode s t (cursor s)).bind fun r => .ok (withResult s r.1 r.2)) :=
      commits_huffCommand ht
    refine ⟨fun c hc hlen he => ?_, fun node hn hin hlen he hend => ?_,
      fun node hn hout hlen he => ?_, fun node hn hin hlen he => ?_⟩
    · exact (hrun.bind_ok (huffDecode_leaf h hc hlen he)).next
    · exact hrun.bind_raise ((huffDecode_node h hn hlen.le he).trans
        (huffFrom_underrun (Nat.sub_pos_of_lt hlen) hin hend))
    · exact hrun.bind_raise ((huffDecode_node h hn hlen (.inr he)).trans (huffFrom_badIndex hout))
    · refine hrun.bind_raise ((huffDecode_node h hn hlen.le (.inr he)).trans ?_)
      rw [hlen, Nat.sub_self, huffFrom_noLeaf hin]

/-- Settles O30: both tables entry by entry, and the operands that fault. -/
theorem lookupRule : Obligations.LookupRule := by
  refine ⟨fun x hx => ?_, fun s => ⟨fun x => ?_, fun x => ?_⟩⟩
  · have hwf : decide (x < 2 ^ 8) = true := decide_eq_true hx
    exact ⟨spelled_of_wellFormed hwf, spelled_of_wellFormed hwf⟩
  · match x with
    | 0 | 1 | 2 | 3 | 4 | 5 | 6 | 7 => exact lutbands_entry s (by decide)
    | x + 8 => exact lutbands_illegal s (by omega)
  · match x with
    | 0 | 1 | 2 | 3 | 4 => exact lutchan_entry s (by decide)
    | 5 | 6 | 7 => exact lutchan_unsupported s (by decide) (by decide)
    | x + 8 => exact lutchan_illegal s (by omega)

end Sys2Proof.Proofs
end

section
/-! The filter-bank command QCLR of 42_qmf.md: what it runs, and what it leaves in its instance. -/

namespace Sys2Proof.Proofs

open Sys2Proof.Machine Sys2Proof.Claims

theorem commits_qclr (x : Nat) (s : State) :
    Commits (.qclr x) s ((checkInstance s x).bind fun _ => .ok (setInstance s x Instance.fresh)) := rfl

section
variable {x : Nat} {s : State}

/-- QCLR of an instance that does not exist faults (R107, R119). -/
theorem qclr_illegal (hx : s.build.qmfInst ≤ x) :
    faults (.qclr x) s .badOperand (fieldValue 0x04 x) :=
  (commits_qclr x s).bind_raise (checkInstance_raise hx)

/-- An instance that exists holds what it was replaced by (R27). -/
theorem instanceAt_setInstance_same (h : hasInstance s x) (q : Instance) :
    instanceAt (setInstance s x q) x = q := by
  obtain ⟨hx, hlen⟩ := h
  rw [instanceAt_setInstance, if_pos ⟨rfl, hlen ▸ hx⟩]

end

/-- Both arrays of a fresh instance read +0.0 at every index (R27). -/
theorem elementAt_fresh (n : Nat) :
    elementAt Instance.fresh.aw n = 0 ∧ elementAt Instance.fresh.sh n = 0 :=
  ⟨elementAt_nil n, elementAt_nil n⟩

/-- Settles O34: QCLR puts a fresh instance in the place of x, or faults when there is no instance x. -/
theorem qclrRule : Obligations.QclrRule := by
  refine ⟨fun x hx => spelled_of_wellFormed (decide_eq_true hx), fun x s => ⟨qclr_illegal, fun h => ?_⟩⟩
  have hread := instanceAt_setInstance_same h Instance.fresh
  refine ⟨setInstance s x Instance.fresh, execQclr_next h.1, rfl, ?_⟩
  rw [hread]
  exact ⟨rfl, elementAt_fresh⟩

end Sys2Proof.Proofs
end

section
/-! The engine's turn (R6, R121): the step is the engine's, it executes the pending word, and with no soft
reset requested completion only clears PENDING (R120). -/

namespace Sys2Proof.Proofs

open Sys2Proof.Machine Sys2Proof.Claims

section
variable {s u t : State} {w : Word}

/-- When the engine has the next turn, the step is the engine's, whether or not a turn is taken up. -/
theorem step_of_engineTurn (h : engineTurn s u) : step s = engineStep u := by
  obtain ⟨hs, rfl⟩ | ⟨rest, hs, rfl⟩ := h
  · exact step_no_turn hs
  · exact step_engine hs

/-- Taking up the engine's turn touches neither PENDING nor SRST_REQ. -/
theorem engineTurn_frame (h : engineTurn s u) : u.pending = s.pending ∧ u.srstReq = s.srstReq := by
  obtain ⟨-, rfl⟩ | ⟨rest, -, rfl⟩ := h <;> exact ⟨rfl, rfl⟩

/-- The step of the engine's turn executes the pending word and completes it (R120, R121). -/
theorem step_pending_of_engineTurn (h : engineTurn s u) (hp : s.pending = some w)
    (hx : execWord w u = .next t) : step s = .next (complete t) := by
  obtain ⟨hpend, -⟩ := engineTurn_frame h
  rw [step_of_engineTurn h, engineStep_pending (hpend.trans hp), hx, completeOutcome_next]

/-- A word that decodes is executed as its command (R119). -/
theorem execWord_of_decode {i : Instr} (h : decode w = .ok i) : execWord w s = exec i s := by
  rw [execWord, h]

/-- A word that spells no command records ILLEGAL_CMD with information 0 (R65). -/
theorem execWord_of_reject {r : DecodeReject} (h : decode w = .error r) :
    execWord w s = .next (record .illegalCmd w 0 s) := by
  rw [execWord, h]
  rfl

/-- A word with the opcode of NOP and an operand bit set spells no command: format FZ reserves all of
bits[23:0] (R61, R65). -/
theorem decode_nop_operand (hop : bits w 31 24 = 0) (hv : bits w 23 0 ≠ 0) :
    decode w = .error (.reservedBits 0) := by
  rw [decode, hop]
  exact (if_neg hv).trans (by rw [hop])

end

/-- NOP returns the state it starts in (R117). -/
theorem exec_nop (s : State) : exec .nop s = .next s := rfl

end Sys2Proof.Proofs
end

section
/-! The control command NOP of 43_control.md. -/

namespace Sys2Proof.Proofs

open Sys2Proof.Machine Sys2Proof.Claims

/-- Settles O31: NOP and its illegal form are the engine's step of the pending word, completed without a
soft reset; the dropped form is the rule of CMD while FAULT = 1. -/
theorem nopRule : Obligations.NopRule := by
  have hspell : spelled .nop 0 := spelled_of_wellFormed rfl
  refine ⟨hspell, exec_nop, fun s => ⟨fun u hu hp hr => ?_, fun u w hu hop hv hp hr => ?_,
    fun rest hp hf hs => ?_⟩⟩
  · obtain ⟨-, hreq⟩ := engineTurn_frame hu
    have hx : execWord 0 u = .next u := (execWord_of_decode hspell.2).trans (exec_nop u)
    rw [step_pending_of_engineTurn hu hp hx, complete_of_no_request _ (hreq.trans hr)]
  · obtain ⟨-, hreq⟩ := engineTurn_frame hu
    have hx := execWord_of_reject (s := u) (decode_nop_operand hop hv)
    rw [step_pending_of_engineTurn hu hp hx,
      complete_of_no_request _ ((record_srstReq _ _ _ _).trans (hreq.trans hr))]
  · obtain ⟨hwrite, -⟩ := cmdRule s rest
    obtain ⟨-, hdrop, -⟩ := hwrite 0 hs
    exact hdrop hp hf

end Sys2Proof.Proofs
end

section
/-! The fault registers FAULT, FCODE, FCMD and FINFO as one part of the state: no body of a command reads or
writes them, so its reads, its ends and its raises are the same beside any recorded fault (R121, R128). -/

namespace Sys2Proof.Proofs

open Sys2Proof.Machine Sys2Proof.Claims

/-- `s` with the fault registers of `a` (R19, R24, R25). -/
def withFaultOf (a s : State) : State :=
  { s with fault := a.fault, fcode := a.fcode, fcmd := a.fcmd, finfo := a.finfo }

/-- Undoing a record in the fault registers undoes all of it (R125, R130). -/
theorem withFaultOf_record (c : FaultCode) (w info : Word) (s : State) :
    withFaultOf s (record c w info s) = s := by
  cases hf : s.fault with
  | true => rw [record_of_fault s c w info hf]; rfl
  | false => rw [record_of_clear s c w info hf]; rfl

section
variable (a s : State)

/-! ### What a body reads -/

@[simp] theorem withFaultOf_pos : (withFaultOf a s).pos = s.pos := rfl
@[simp] theorem withFaultOf_bitEnd : (withFaultOf a s).bitEnd = s.bitEnd := rfl
@[simp] theorem withFaultOf_build : (withFaultOf a s).build = s.build := rfl

@[simp] theorem underrunInfo_withFaultOf (p : Nat) :
    underrunInfo (withFaultOf a s) p = underrunInfo s p := rfl

@[simp] theorem bitAt_withFaultOf (p : Nat) : bitAt (withFaultOf a s) p = bitAt s p := rfl

@[simp] theorem bitsFrom_withFaultOf (n p v : Nat) :
    bitsFrom (withFaultOf a s) n p v = bitsFrom s n p v := by
  induction n generalizing p v with
  | zero => rfl
  | succ n ih => simp [bitsFrom, ih]

@[simp] theorem readBits_withFaultOf (p n : Nat) : readBits (withFaultOf a s) p n = readBits s p n := by
  simp [readBits]

@[simp] theorem varBitsFrom_withFaultOf (n fuel p v : Nat) :
    varBitsFrom (withFaultOf a s) n fuel p v = varBitsFrom s n fuel p v := by
  induction fuel generalizing p v with
  | zero => rfl
  | succ fuel ih => simp [varBitsFrom, ih]

@[simp] theorem varBits_withFaultOf (p n : Nat) : varBits (withFaultOf a s) p n = varBits s p n := by
  simp [varBits]

@[simp] theorem bytesFrom_withFaultOf (c p : Nat) :
    bytesFrom (withFaultOf a s) c p = bytesFrom s c p := by
  induction c generalizing p with
  | zero => rfl
  | succ c ih => simp [bytesFrom, ih]

@[simp] theorem huffFrom_withFaultOf (t : Tree) (left node p : Nat) :
    huffFrom (withFaultOf a s) t left node p = huffFrom s t left node p := by
  induction left generalizing node p with
  | zero => rfl
  | succ left ih => simp [huffFrom, ih]

@[simp] theorem checkInstance_withFaultOf (x : Nat) :
    checkInstance (withFaultOf a s) x = checkInstance s x := rfl

@[simp] theorem instanceAt_withFaultOf (x : Nat) :
    instanceAt (withFaultOf a s) x = instanceAt s x := rfl

@[simp] theorem readPorts_withFaultOf (f : PortFile) :
    readPorts (withFaultOf a s) f = readPorts s f := by
  cases f <;> rfl

/-! ### What a body writes -/

@[simp] theorem setPos_withFaultOf (p : Nat) :
    setPos (withFaultOf a s) p = withFaultOf a (setPos s p) := rfl

@[simp] theorem setRes_withFaultOf (v : Nat) :
    setRes (withFaultOf a s) v = withFaultOf a (setRes s v) := rfl

@[simp] theorem setObuf_withFaultOf (vs : List Byte) :
    setObuf (withFaultOf a s) vs = withFaultOf a (setObuf s vs) := rfl

@[simp] theorem setInstance_withFaultOf (x : Nat) (q : Instance) :
    setInstance (withFaultOf a s) x q = withFaultOf a (setInstance s x q) := rfl

@[simp] theorem writePorts_withFaultOf (f : PortFile) (vs : List Word) :
    writePorts (withFaultOf a s) f vs = withFaultOf a (writePorts s f vs) := by
  cases f <;> rfl

end

/-! ### The bodies -/

section
variable {α β γ : Type}

/-- Two binds in a row are one. -/
theorem bind_bind (r : Run α) (k : α → Run β) (l : β → Run γ) :
    (r.bind k).bind l = r.bind fun x => (k x).bind l := by
  cases r <;> rfl

theorem ite_bind (P : Prop) [Decidable P] (r r' : Run α) (k : α → Run β) :
    (if P then r else r').bind k = if P then r.bind k else r'.bind k := by
  split <;> rfl

end

/-- A body run beside other fault registers ends as before, with those registers in its result. -/
def FaultBlind (body : State → Run State) : Prop :=
  ∀ a s : State, body (withFaultOf a s) = (body s).bind fun t => .ok (withFaultOf a t)

@[simp] theorem escapeSum_withFaultOf (a s : State) (v : Nat) (e : Nat × Nat) :
    escapeSum (withFaultOf a s) v e = (escapeSum s v e).bind fun t => .ok (withFaultOf a t) := by
  simp [escapeSum, ite_bind]

@[simp] theorem huffCommand_withFaultOf (a s : State) (t : Tree) :
    huffCommand (withFaultOf a s) t = (huffCommand s t).bind fun u => .ok (withFaultOf a u) := by
  simp [huffCommand, huffDecode, bind_bind]

/-- Every command commits one body, whatever the state, and that body is blind to the fault registers: its
reads do not see them, and its writes commute with their replacement. -/
theorem exec_faultBlind (i : Instr) :
    ∃ body : State → Run State, (∀ s, Commits i s (body s)) ∧ FaultBlind body := by
  cases i with
  | nop => exact ⟨.ok, fun _ => rfl, fun _ _ => rfl⟩
  | skip c =>
    refine ⟨_, fun _ => rfl, fun a s => ?_⟩
    by_cases hend : s.bitEnd.toNat < s.pos.toNat + c <;> simp [hend]
  | readbytes c =>
    refine ⟨_, fun _ => rfl, fun a s => ?_⟩
    by_cases hc : c ≤ s.build.obufBytes
    · by_cases hend : s.bitEnd.toNat < s.pos.toNat + 8 * c <;>
        simp [checkOperand, hc, hend, bind_bind]
    · simp [checkOperand, hc]
  | read | peek | readbit | varlen | escf | escv | hmat | hvec | hidx | lutbands | lutchan | qfwd
  | qinv | qclr =>
    exact ⟨_, fun _ => rfl, fun a s => by simp [bind_bind, ite_bind]⟩

end Sys2Proof.Proofs
end

section
/-! What raises FAULT raises it by `record` alone (R128): a body of a command that returns hands FAULT through,
so a command that raises it has recorded; and so has a host write that raises it (R20, R33). -/

namespace Sys2Proof.Proofs

open Sys2Proof.Machine Sys2Proof.Claims

/-! ### Commands -/

/-- A body blind to the fault registers leaves FAULT as it was when it returns. -/
theorem FaultBlind.fault_of_ok {body : State → Run State} {s t : State} (hblind : FaultBlind body)
    (h : body s = .ok t) : t.fault = s.fault := by
  have hself : body s = (body s).bind fun u => .ok (withFaultOf s u) := hblind s s
  rw [h, bind_ok, Run.ok.injEq] at hself
  rw [hself]
  rfl

/-- A body blind to the fault registers raises beside any of them what it raises. -/
theorem FaultBlind.raise {body : State → Run State} {s : State} {c : FaultCode} {info : Word}
    (hblind : FaultBlind body) (h : body s = .raise c info) (a : State) :
    body (withFaultOf a s) = .raise c info := by
  rw [hblind a s, h, bind_raise]

/-- A command that raises FAULT records it over the state it started in, and started with FAULT = 1 it
leaves that state as it is, whatever fault stands there (R124, R128). -/
theorem exec_raises_fault {i : Instr} {s t : State} (h : exec i s = .next t) (hs : s.fault = false)
    (ht : t.fault = true) :
    (∃ c info, t = record c (encode i) info s) ∧
      ∀ a : State, a.fault = true → exec i (withFaultOf a s) = .next (withFaultOf a s) := by
  obtain ⟨body, hrun, hblind⟩ := exec_faultBlind i
  obtain hok | ⟨c, info, hraise, rfl⟩ := (commitCommand_next _ s t (body s)).mp ((hrun s).symm.trans h)
  · have hkept : t.fault = s.fault := hblind.fault_of_ok hok
    simp [hs, ht] at hkept
  · refine ⟨⟨c, info, rfl⟩, fun a ha => ?_⟩
    rw [hrun (withFaultOf a s), hblind.raise hraise a, commitCommand_raise,
      record_of_fault (withFaultOf a s) c _ info ha]

/-! ### Host writes -/

section
variable {s t : State} {off bytes : Nat} {v : Word} {r : Reg} {rest : List Turn}

/-- The step of a host write leaves what the write to its register leaves. -/
theorem step_hostWrite_next (h : s.script = .hostWrite off bytes v :: rest) (ht : step s = .next t) :
    t = writeReg (afterTurn s rest) off v (regAt s.build off) := by
  obtain ⟨_, _, _, hscript, -⟩ | ⟨_, _, _, _, hscript, -, rfl⟩ | ⟨_, ⟨hscript, -⟩ | hscript, -⟩ |
    ⟨_, hscript, -⟩ := step_next ht
  · cases h.symm.trans hscript
  · cases h.symm.trans hscript
    rfl
  · cases h.symm.trans hscript
  · cases h.symm.trans hscript
  · cases h.symm.trans hscript

/-- A write of an input that raises FAULT does so while BUSY = 1 (R33). -/
theorem writeReg_input_raises_fault (hi : isInput r = true) (hs : s.fault = false)
    (ht : (writeReg s off v r).fault = true) : ∃ c w info, writeReg s off v r = record c w info s := by
  cases hp : s.pending with
  | some p => exact ⟨_, _, _, writeReg_input_busy s off v hi hp⟩
  | none =>
    rw [writeReg_input_idle s off v hi hp] at ht
    cases r <;> simp [writeInput, hs] at ht

/-- A write to CMD that raises FAULT does so while BUSY = 1 (R20). -/
theorem writeReg_cmd_raises_fault (hs : s.fault = false) (ht : (writeReg s off v .cmd).fault = true) :
    ∃ c w info, writeReg s off v .cmd = record c w info s := by
  cases hp : s.pending with
  | some p => exact ⟨_, _, _, writeReg_cmd_busy s off v hp⟩
  | none =>
    rw [writeReg_cmd_accepted s off v hp hs] at ht
    simp [hs] at ht

/-- A host write that raises FAULT has recorded a fault and done nothing else (R128). -/
theorem writeReg_raises_fault (hs : s.fault = false) (ht : (writeReg s off v r).fault = true) :
    ∃ c w info, writeReg s off v r = record c w info s := by
  cases r with
  | cmd => exact writeReg_cmd_raises_fault hs ht
  | pos | bitEnd | port | buf => exact writeReg_input_raises_fault rfl hs ht
  | status =>
    rw [writeReg_status] at ht
    simp [hs] at ht
  | ctrl =>
    simp only [writeReg, writeCtrl] at ht
    split at ht
    · split at ht
      · simp [hs] at ht
      · simp at ht
    · simp [hs] at ht
  | id | cfg | res | fcmd | finfo | obuf | reserved =>
    rw [writeReg_of_ignoresWrites s off v rfl] at ht
    simp [hs] at ht

end

end Sys2Proof.Proofs
end

section
/-! The faults of 60_exceptions.md: the record of a fault, and its precision. -/

namespace Sys2Proof.Proofs

open Sys2Proof.Machine Sys2Proof.Claims

/-- Settles O11: `record` by the FAULT it finds, and the nine numbers of FCODE. -/
theorem firstFaultStands : Obligations.FirstFaultStands :=
  ⟨fun code w info s => ⟨record_of_fault s code w info, record_of_clear s code w info⟩,
    rfl, rfl, rfl, rfl, rfl, rfl, rfl, rfl, rfl⟩

/-- Settles O12: whatever raises FAULT has only recorded it over the state it found, and a record undone in
the fault registers is undone altogether. -/
theorem faultsArePrecise : Obligations.FaultsArePrecise := by
  refine ⟨fun i s t h hs ht => ?_, fun s t rest off bytes v hscript h hs ht => ?_⟩
  · obtain ⟨⟨c, info, rfl⟩, hagain⟩ := exec_raises_fault h hs ht
    exact ⟨withFaultOf_record c _ info s, fun c' w' info' =>
      hagain { s with fault := true, fcode := c', fcmd := w', finfo := info' } rfl⟩
  · obtain rfl := step_hostWrite_next hscript h
    obtain ⟨c, w, info, hrec⟩ := writeReg_raises_fault (s := afterTurn s rest) hs ht
    rw [hrec]
    exact withFaultOf_record c w info (afterTurn s rest)

end Sys2Proof.Proofs
end

section
/-! The hardware reset of 70_reset_and_hazards.md: when it is taken (R145), and what reads back in a state
whose registers, element stores and instances have their reset values (R144). -/

namespace Sys2Proof.Proofs

open Sys2Proof.Machine Sys2Proof.Claims

/-! ### The turn of a hardware reset -/

section
variable {s : State} {rest : List Turn}

/-- The step of a hardware-reset turn (R144). -/
theorem step_hardReset (h : s.script = .hardReset :: rest) :
    step s = arriveReset (afterTurn s rest) := by
  simp [step, stepTurn, h, takeTurn, afterTurn]

/-- A hardware reset while a command is pending is not modelled (R145). -/
theorem arriveReset_pending {w : Word} (h : s.pending = some w) :
    arriveReset s = .refused .resetWhilePending := by
  rw [arriveReset, h]

/-- An idle block takes a hardware reset (R145). -/
theorem arriveReset_idle (h : s.pending = none) : arriveReset s = .next (hardReset s) := by
  rw [arriveReset, h]

end

/-! ### Reading what the reset leaves -/

section
variable {t : State}

/-- STATUS reads 0 when the block is idle and its fields are clear (R19). -/
theorem statusWord_eq_zero (hp : t.pending = none) (hf : t.fault = false) (hd : t.drop = false)
    (hc : t.fcode = 0) : statusWord t = 0 := by
  simp [statusWord, busy, hp, hf, hd, hc]

/-- No element of a data port is marked when all three files are empty (R32). -/
theorem storeGet_portStore_of_empty (hts : t.ts = []) (hxr : t.xr = []) (hxi : t.xi = [])
    (f : PortFile) (k : Nat) : storeGet (portStore t f) k = none := by
  cases f with
  | ts => rw [portStore_ts, hts, storeGet_nil]
  | xr => rw [portStore_xr, hxr, storeGet_nil]
  | xi => rw [portStore_xi, hxi, storeGet_nil]

/-- When every instance was put back to fresh, every number reads a fresh one (R27). -/
theorem instanceAt_of_all_fresh {count : Nat} (h : t.inst = List.replicate count Instance.fresh)
    (x : Nat) : instanceAt t x = Instance.fresh := by
  rw [instanceAt, h, List.getD_eq_getElem?_getD, List.getElem?_getD_replicate_default_eq]

/-- When every instance was put back to fresh, every element of both arrays reads +0.0 (R27). -/
theorem elementAt_of_all_fresh {count : Nat} (h : t.inst = List.replicate count Instance.fresh)
    (x n : Nat) : elementAt (instanceAt t x).aw n = 0 ∧ elementAt (instanceAt t x).sh n = 0 := by
  rw [instanceAt_of_all_fresh h]
  exact elementAt_fresh n

end

/-- Settles O54: the step of a reset turn is `arriveReset`, which refuses or answers `hardReset`; there,
and in the reset state, STATUS, the marks and the instances are read by the lemmas above. -/
theorem hardwareResetRule : Obligations.HardwareResetRule := by
  refine ⟨fun s rest hscript => ⟨fun p hp => ?_, fun hp => ?_⟩, rfl, rfl, rfl, rfl, rfl,
    statusWord_eq_zero rfl rfl rfl rfl, rfl, rfl, rfl, fun b => ⟨storeGet_nil b, storeGet_nil b⟩,
    storeGet_portStore_of_empty rfl rfl rfl, elementAt_of_all_fresh rfl⟩
  · rw [step_hardReset hscript]
    exact arriveReset_pending (s := afterTurn s rest) hp
  · refine ⟨hardReset (afterTurn s rest), ?_, rfl, rfl, rfl, rfl, rfl,
      statusWord_eq_zero rfl rfl rfl rfl, rfl, rfl, rfl, rfl,
      fun b => ⟨storeGet_nil b, storeGet_nil b⟩, storeGet_portStore_of_empty rfl rfl rfl,
      List.length_replicate, elementAt_of_all_fresh rfl⟩
    rw [step_hardReset hscript]
    exact arriveReset_idle (s := afterTurn s rest) hp

end Sys2Proof.Proofs
end

section
/-! The decoder read backwards (R61 to R65): what a word that decodes holds in its fields, and which words
each format rejects. -/

namespace Sys2Proof.Proofs

open Sys2Proof.Machine Sys2Proof.Claims

/-! ### A word by its fields -/

/-- A word is its opcode above its operand bits (R60). -/
theorem ofNat_opcode_operands (w : Word) :
    BitVec.ofNat 32 (bits w 31 24 * 2 ^ 24 + bits w 23 0) = w := by
  have hw := w.isLt
  have hsplit : bits w 31 24 * 2 ^ 24 + bits w 23 0 = w.toNat := by
    simp only [bits]
    omega
  rw [hsplit, BitVec.ofNat_toNat, BitVec.setWidth_eq]

/-- A command with the opcode and the operand fields of a word is encoded by that word. -/
theorem encode_of_fields {w : Word} {i : Instr} (hop : opcodeOf i = bits w 31 24)
    (hv : operandBits i = bits w 23 0) : encode i = w := by
  rw [encode, hop, hv, ofNat_opcode_operands]

/-! ### The formats (R61) -/

section
variable {w : Word} {i j : Instr} {mk : Nat → Instr} {mk2 : Nat → Nat → Instr}

theorem decodeFZ_eq_ok (h : decodeFZ w i = .ok j) : j = i ∧ bits w 23 0 = 0 := by
  unfold decodeFZ at h
  split at h
  · next hz => exact ⟨(Except.ok.inj h).symm, hz⟩
  · cases h

theorem decodeFN_eq_ok (h : decodeFN w mk = .ok i) : ∃ n < 2 ^ 6, i = mk n ∧ n = bits w 23 0 := by
  unfold decodeFN at h
  split at h
  · next hz =>
    refine ⟨bits w 5 0, ?_, (Except.ok.inj h).symm, ?_⟩ <;> simp only [bits] at hz ⊢ <;> omega
  · cases h

theorem decodeFNM_eq_ok (h : decodeFNM w mk2 = .ok i) :
    ∃ n < 2 ^ 6, ∃ m < 2 ^ 6, i = mk2 n m ∧ m * 2 ^ 6 + n = bits w 23 0 := by
  unfold decodeFNM at h
  split at h
  · next hz =>
    refine ⟨bits w 5 0, ?_, bits w 11 6, ?_, (Except.ok.inj h).symm, ?_⟩ <;>
      simp only [bits] at hz ⊢ <;> omega
  · cases h

theorem decodeFC_eq_ok (h : decodeFC w mk = .ok i) : ∃ c < 2 ^ 24, i = mk c ∧ c = bits w 23 0 :=
  ⟨bits w 23 0, Nat.mod_lt _ (by decide), (Except.ok.inj h).symm, rfl⟩

theorem decodeFI_eq_ok (h : decodeFI w mk = .ok i) : ∃ x < 2 ^ 8, i = mk x ∧ x = bits w 23 0 := by
  unfold decodeFI at h
  split at h
  · next hz =>
    refine ⟨bits w 7 0, ?_, (Except.ok.inj h).symm, ?_⟩ <;> simp only [bits] at hz ⊢ <;> omega
  · cases h

theorem decodeFZ_rejects : (∃ r, decodeFZ w i = .error r) ↔ bits w 23 0 ≠ 0 := by
  unfold decodeFZ
  split <;> simp [*]

theorem decodeFN_rejects : (∃ r, decodeFN w mk = .error r) ↔ bits w 23 6 ≠ 0 := by
  unfold decodeFN
  split <;> simp [*]

theorem decodeFNM_rejects : (∃ r, decodeFNM w mk2 = .error r) ↔ bits w 23 12 ≠ 0 := by
  unfold decodeFNM
  split <;> simp [*]

theorem decodeFC_rejects : ¬∃ r, decodeFC w mk = .error r := by simp [decodeFC]

theorem decodeFI_rejects : (∃ r, decodeFI w mk = .error r) ↔ bits w 23 8 ≠ 0 := by
  unfold decodeFI
  split <;> simp [*]

end

/-! ### Every word -/

/-- What a word decodes to has the word's opcode and its operand fields (R61 to R64). -/
theorem decode_ok_fields {w : Word} {i : Instr} (h : decode w = .ok i) :
    i.wellFormed = true ∧ opcodeOf i = bits w 31 24 ∧ operandBits i = bits w 23 0 := by
  unfold decode at h
  split at h
  case h_1 | h_4 =>
    obtain ⟨rfl, hz⟩ := decodeFZ_eq_ok h
    exact ⟨rfl, Eq.symm ‹_›, hz.symm⟩
  case h_2 | h_3 | h_7 =>
    obtain ⟨n, hn, rfl, hv⟩ := decodeFN_eq_ok h
    exact ⟨decide_eq_true hn, Eq.symm ‹_›, hv⟩
  case h_5 | h_6 =>
    obtain ⟨c, hc, rfl, hv⟩ := decodeFC_eq_ok h
    exact ⟨decide_eq_true hc, Eq.symm ‹_›, hv⟩
  case h_8 | h_9 =>
    obtain ⟨n, hn, m, hm, rfl, hv⟩ := decodeFNM_eq_ok h
    exact ⟨(Bool.and_eq_true _ _).mpr ⟨decide_eq_true hn, decide_eq_true hm⟩, Eq.symm ‹_›, hv⟩
  case h_10 | h_11 | h_12 | h_13 | h_14 | h_15 | h_16 | h_17 =>
    obtain ⟨x, hx, rfl, hv⟩ := decodeFI_eq_ok h
    exact ⟨decide_eq_true hx, Eq.symm ‹_›, hv⟩
  case h_18 => cases h

/-! ### The encoding of 30_encoding.md -/

/-- Settles O1: the opcode of a word selects the format that its operands were put in. -/
theorem decodeEncodeEveryCommand : Obligations.DecodeEncodeEveryCommand := fun _ => decode_encode

/-- Settles O2: a word that decodes has the opcode and the operand fields of its command. -/
theorem encodeDecodeEveryWord : Obligations.EncodeDecodeEveryWord := by
  intro w i h
  obtain ⟨hwf, hop, hv⟩ := decode_ok_fields h
  exact ⟨hwf, encode_of_fields hop hv⟩

/-- Settles O3: each opcode of the map rejects by the reserved bits of its format, and every other opcode
is rejected. -/
theorem reservedWordsRejected : Obligations.ReservedWordsRejected := by
  intro w
  unfold decode
  split
  case h_1 | h_4 => next hop => simp [hop, decodeFZ_rejects]
  case h_2 | h_3 | h_7 => next hop => simp [hop, decodeFN_rejects]
  case h_5 | h_6 => next hop => simp [hop, decodeFC_rejects]
  case h_8 | h_9 => next hop => simp [hop, decodeFNM_rejects]
  case h_10 | h_11 | h_12 | h_13 | h_14 | h_15 | h_16 | h_17 => next hop => simp [hop, decodeFI_rejects]
  case h_18 => simp_all

/-- Settles O4: the eight words, by running the decoder. -/
theorem sampleWordsDecode : Obligations.SampleWordsDecode := by
  refine ⟨?_, ?_, ?_, ?_, ?_, ?_, ?_, ?_⟩ <;> rfl

end Sys2Proof.Proofs
end

section
/-! The frames of the commands: a next state is a recorded fault or the command's own effect, so what both
leave as it was, every command does (R23, R128, R151); and where a command stops (R32). -/

namespace Sys2Proof.Proofs

open Sys2Proof.Machine Sys2Proof.Claims

section
variable {i : Instr} {s t : State}

/-! ### What a recorded fault and a replaced instance leave as they were -/

@[simp] theorem readPort_record (c : FaultCode) (w info : Word) (s : State) (f : PortFile) (k : Nat) :
    readPort (record c w info s) f k = readPort s f k := by
  refine readPort_congr f k ?_ (record_resets s c w info)
  cases f <;> simp

@[simp] theorem readPort_setInstance (s : State) (x : Nat) (q : Instance) (f : PortFile) (k : Nat) :
    readPort (setInstance s x q) f k = readPort s f k :=
  readPort_congr f k (by cases f <;> rfl) rfl

@[simp] theorem instanceAt_record (c : FaultCode) (w info : Word) (s : State) (x : Nat) :
    instanceAt (record c w info s) x = instanceAt s x := by
  simp [instanceAt]

/-! ### What every command leaves as it was -/

/-- No command writes END, DROP, PENDING, SRST_REQ, the build, BUF or the model's own fields. -/
theorem exec_commandFrame (h : exec i s = .next t) : commandFrame s t := by
  obtain ⟨c, info, rfl⟩ | he := exec_next h
  · simp [commandFrame]
  · rw [commandEffect_frame he]
    simp [commandFrame]

/-- A command leaves the fault registers alone, or its whole effect is one record (R128, R130). -/
theorem exec_faultFrame (h : exec i s = .next t) : faultFrame i s t := by
  obtain ⟨c, info, rfl⟩ | he := exec_next h
  · exact .inr ⟨c, info, rfl⟩
  · rw [commandEffect_frame he]
    exact .inl ⟨rfl, rfl, rfl, rfl⟩

/-- The commands that keep the cursor keep it, fault or not (R74, R98, R99, R104, R117). -/
theorem exec_pos_of_keepsCursor (hk : keepsCursor i = true) (h : exec i s = .next t) :
    t.pos = s.pos := by
  obtain ⟨c, info, rfl⟩ | he := exec_next h
  · exact record_pos s c _ info
  · cases i with
    | nop => exact congrArg State.pos he
    | peek | lutbands | lutchan => obtain ⟨v, rfl⟩ := he; rfl
    | qfwd => obtain ⟨-, aw, xr, xi, -, -, -, rfl⟩ := he; rfl
    | qinv => obtain ⟨-, sh, ts, -, -, rfl⟩ := he; rfl
    | qclr => obtain ⟨-, rfl⟩ := he; rfl
    | read | readbit | skip | readbytes | varlen | escf | escv | hmat | hvec | hidx => cases hk

/-- The commands that keep RES keep it, fault or not (R23). -/
theorem exec_res_of_keepsResult (hk : keepsResult i = true) (h : exec i s = .next t) :
    t.res = s.res := by
  obtain ⟨c, info, rfl⟩ | he := exec_next h
  · exact record_res s c _ info
  · cases i with
    | nop => exact congrArg State.res he
    | skip => obtain ⟨rfl, -⟩ := he; rfl
    | readbytes => obtain ⟨-, -, vs, -, rfl⟩ := he; rfl
    | qfwd => obtain ⟨-, aw, xr, xi, -, -, -, rfl⟩ := he; rfl
    | qinv => obtain ⟨-, sh, ts, -, -, rfl⟩ := he; rfl
    | qclr => obtain ⟨-, rfl⟩ := he; rfl
    | read | peek | readbit | varlen | escf | escv | hmat | hvec | hidx | lutbands | lutchan => cases hk

/-- Of the commands only READBYTES writes OBUF (R45, R77). -/
theorem exec_obuf (hi : ∀ c, i ≠ .readbytes c) (h : exec i s = .next t) : t.obuf = s.obuf := by
  obtain ⟨c, info, rfl⟩ | he := exec_next h
  · exact record_obuf s c _ info
  · cases i with
    | nop => exact congrArg State.obuf he
    | peek | lutbands | lutchan => obtain ⟨v, rfl⟩ := he; rfl
    | read | readbit | varlen | escf | escv | hmat | hvec | hidx => obtain ⟨v, p, rfl, -⟩ := he; rfl
    | skip => obtain ⟨rfl, -⟩ := he; rfl
    | readbytes c => exact absurd rfl (hi c)
    | qfwd => obtain ⟨-, aw, xr, xi, -, -, -, rfl⟩ := he; rfl
    | qinv => obtain ⟨-, sh, ts, -, -, rfl⟩ := he; rfl
    | qclr => obtain ⟨-, rfl⟩ := he; rfl

/-- Only QFWD, QINV and QCLR write the data ports or the instances (R104 to R107). -/
theorem exec_ports_inst (hi : filterInstance i = none) (h : exec i s = .next t) :
    portsFrame s t ∧ t.inst = s.inst := by
  obtain ⟨c, info, rfl⟩ | he := exec_next h
  · exact ⟨readPort_record c _ info s, record_inst s c _ info⟩
  · have hkept : t = { s with pos := t.pos, res := t.res, obuf := t.obuf } := by
      cases i with
      | nop => exact he ▸ rfl
      | peek | lutbands | lutchan => obtain ⟨v, rfl⟩ := he; rfl
      | read | readbit | varlen | escf | escv | hmat | hvec | hidx => obtain ⟨v, p, rfl, -⟩ := he; rfl
      | skip => obtain ⟨rfl, -⟩ := he; rfl
      | readbytes => obtain ⟨-, -, vs, -, rfl⟩ := he; rfl
      | qfwd | qinv | qclr => cases hi
    rw [hkept]
    exact ⟨fun f k => readPort_congr f k (by cases f <;> rfl) rfl, rfl⟩

theorem filterInstance_of_scalar (h : scalarCommand i = true) : filterInstance i = none := by
  cases i with
  | qfwd | qinv | qclr => cases h
  | nop | read | peek | readbit | skip | readbytes | varlen | escf | escv | hmat | hvec | hidx
  | lutbands | lutchan => rfl

/-! ### The filter-bank commands -/

/-- What QFWD, QINV and QCLR have in common: no command frame is broken, and OBUF, RES and POS are kept. -/
theorem exec_filter_frame {x : Nat} (hi : filterInstance i = some x) (h : exec i s = .next t) :
    commandFrame s t ∧ faultFrame i s t ∧ obufFrame s t ∧ t.res = s.res ∧ t.pos = s.pos := by
  have keeps : keepsCursor i = true ∧ keepsResult i = true ∧ ∀ c, i ≠ .readbytes c := by
    cases i with
    | qfwd | qinv | qclr => exact ⟨rfl, rfl, by simp⟩
    | nop | read | peek | readbit | skip | readbytes | varlen | escf | escv | hmat | hvec | hidx
    | lutbands | lutchan => cases hi
  obtain ⟨hcursor, hresult, hbytes⟩ := keeps
  exact ⟨exec_commandFrame h, exec_faultFrame h, fun b => by rw [exec_obuf hbytes h],
    exec_res_of_keepsResult hresult h, exec_pos_of_keepsCursor hcursor h⟩

section
variable {x : Nat}

/-- QFWD x keeps TS, the history of x and the other instances (R105). -/
theorem exec_qfwd_keeps (h : exec (.qfwd x) s = .next t) :
    (∀ k, readPort t .ts k = readPort s .ts k) ∧ (instanceAt t x).sh = (instanceAt s x).sh ∧
      ∀ y, y ≠ x → instanceAt t y = instanceAt s y := by
  obtain ⟨c, info, rfl⟩ | ⟨-, aw, xr, xi, -, -, -, rfl⟩ := exec_next h
  · simp
  · refine ⟨fun k => ?_, ?_, fun y hy => ?_⟩
    · simp [readPort_writePorts]
    · rw [instanceAt_writePorts, instanceAt_writePorts, instanceAt_setInstance]
      split <;> rfl
    · simp [instanceAt_setInstance, hy]

/-- QINV x keeps XR, XI, the window of x and the other instances (R106). -/
theorem exec_qinv_keeps (h : exec (.qinv x) s = .next t) :
    (∀ k, readPort t .xr k = readPort s .xr k) ∧ (∀ k, readPort t .xi k = readPort s .xi k) ∧
      (instanceAt t x).aw = (instanceAt s x).aw ∧ ∀ y, y ≠ x → instanceAt t y = instanceAt s y := by
  obtain ⟨c, info, rfl⟩ | ⟨-, sh, ts, -, -, rfl⟩ := exec_next h
  · simp
  · refine ⟨fun k => ?_, fun k => ?_, ?_, fun y hy => ?_⟩
    · simp [readPort_writePorts]
    · simp [readPort_writePorts]
    · rw [instanceAt_writePorts, instanceAt_setInstance]
      split <;> rfl
    · simp [instanceAt_setInstance, hy]

/-- QCLR x keeps the data ports and the other instances (R107). -/
theorem exec_qclr_keeps (h : exec (.qclr x) s = .next t) :
    portsFrame s t ∧ ∀ y, y ≠ x → instanceAt t y = instanceAt s y := by
  obtain ⟨c, info, rfl⟩ | ⟨-, rfl⟩ := exec_next h
  · simp [portsFrame]
  · exact ⟨fun f k => readPort_setInstance s x _ f k, fun y hy => by simp [instanceAt_setInstance, hy]⟩

end

/-! ### The cursor -/

/-- A command leaves the cursor or moves it forward to at most END (R83). -/
theorem exec_pos_bounds (h : exec i s = .next t) :
    t.pos = s.pos ∨ (cursor s ≤ cursor t ∧ cursor t ≤ endOf s) := by
  have moved : ∀ p, cursor s ≤ p → p ≤ endOf s →
      cursor s ≤ (BitVec.ofNat 32 p).toNat ∧ (BitVec.ofNat 32 p).toNat ≤ endOf s := by
    intro p hlo hhi
    have hend := s.bitEnd.isLt
    rw [BitVec.toNat_ofNat, Nat.mod_eq_of_lt (hhi.trans_lt hend)]
    exact ⟨hlo, hhi⟩
  cases hk : keepsCursor i with
  | true => exact .inl (exec_pos_of_keepsCursor hk h)
  | false =>
    obtain ⟨c, info, rfl⟩ | he := exec_next h
    · exact .inl (record_pos s c _ info)
    · right
      cases i with
      | read | readbit | varlen | escf | escv | hmat | hvec | hidx =>
        obtain ⟨v, p, rfl, hlo, hhi⟩ := he
        exact moved p hlo hhi
      | skip c =>
        obtain ⟨rfl, hhi⟩ := he
        exact moved _ (Nat.le_add_right _ _) hhi
      | readbytes c =>
        obtain ⟨-, hhi, vs, -, rfl⟩ := he
        exact moved _ (Nat.le_add_right _ _) hhi
      | nop | peek | lutbands | lutchan | qfwd | qinv | qclr => cases hk

/-! ### Stops -/

/-- With every byte before END written no command stops (R32). -/
theorem exec_not_fault (hw : dataWritten s) (f : Fault) : exec i s ≠ .fault f := by
  intro h
  obtain ⟨a, ha, -, hnone⟩ := exec_fault h
  have hsome := hw a ha
  simp [hnone] at hsome

/-- READBIT of a bit of a byte nothing has written stops the model there (R32, R75). -/
theorem readbit_stops (he : cursor s < endOf s) (hn : storeGet s.buf (cursor s / 8) = none) :
    exec .readbit s = .fault (.bufUnwritten (cursor s / 8)) := by
  have hread : readBits s (cursor s) 1 = .stop (.bufUnwritten (cursor s / 8)) := by
    rw [readBits, if_neg (Nat.not_lt.mpr he)]
    simp only [bitsFrom, bitAt, bufByte, hn, bind_stop]
  rw [exec, execReadbit, hread, bind_stop, commitCommand_stop]

end

/-! ### The statements -/

/-- Settles O13: a scalar command is neither READBYTES nor a filter-bank command, so OBUF, the ports and
the instances are as before. -/
theorem scalarCommandsFrame : Obligations.ScalarCommandsFrame := by
  intro i s t hi h
  have hobuf : t.obuf = s.obuf := exec_obuf (by rintro c rfl; cases hi) h
  obtain ⟨hports, hinst⟩ := exec_ports_inst (filterInstance_of_scalar hi) h
  exact ⟨exec_commandFrame h, exec_faultFrame h, fun b => by rw [hobuf], hports, hinst,
    fun hk => exec_pos_of_keepsCursor hk h, fun hk => exec_res_of_keepsResult hk h⟩

/-- Settles O14: READBYTES c stores c bytes from index 0 on, or records a fault. -/
theorem readbytesFrame : Obligations.ReadbytesFrame := by
  intro c s t h
  obtain ⟨hports, hinst⟩ := exec_ports_inst rfl h
  refine ⟨exec_commandFrame h, exec_faultFrame h, hports, hinst, exec_res_of_keepsResult rfl h,
    fun b hb => ?_⟩
  obtain ⟨d, info, rfl⟩ | ⟨-, -, vs, rfl, rfl⟩ := exec_next h
  · rw [record_obuf]
  · rw [setPos_obuf, setObuf_obuf, storeGet_storePutAll, if_neg (by omega)]

/-- Settles O15: what the three commands share, and what each keeps of the ports and the instances. -/
theorem filterCommandsFrame : Obligations.FilterCommandsFrame := by
  refine fun x s t => ⟨fun h => ?_, fun h => ?_, fun h => ?_⟩
  · obtain ⟨hcmd, hfault, hobuf, hres, hpos⟩ := exec_filter_frame rfl h
    exact ⟨hcmd, hfault, hobuf, hres, hpos, exec_qfwd_keeps h⟩
  · obtain ⟨hcmd, hfault, hobuf, hres, hpos⟩ := exec_filter_frame rfl h
    exact ⟨hcmd, hfault, hobuf, hres, hpos, exec_qinv_keeps h⟩
  · obtain ⟨hcmd, hfault, hobuf, hres, hpos⟩ := exec_filter_frame rfl h
    exact ⟨hcmd, hfault, hobuf, hres, hpos, exec_qclr_keeps h⟩

/-- Settles O26: a command keeps the cursor or leaves it where its reads have ended, inside END. -/
theorem cursorStaysInsideEnd : Obligations.CursorStaysInsideEnd := fun _ _ _ => exec_pos_bounds

/-- Settles O27: a stop names a byte before END that nothing has written, and READBIT shows one. -/
theorem onlyUnwrittenBytesStop : Obligations.OnlyUnwrittenBytesStop :=
  ⟨fun _ => readbit_stops, fun _ _ hw f => exec_not_fault hw f, exec_not_refused⟩

end Sys2Proof.Proofs
end

section
/-! The engine's turn (R119 to R121): what the step of a pending word answers, its completion, and a host
that waits for it (R70). -/

namespace Sys2Proof.Proofs

open Sys2Proof.Machine Sys2Proof.Claims

section
variable {s u t : State} {w : Word}

/-! ### The execution of a pending word -/

/-- Taking up the engine's turn changes the script alone. -/
theorem eq_afterTurn_of_engineTurn (h : engineTurn s u) : u = afterTurn s u.script := by
  obtain ⟨-, rfl⟩ | ⟨rest, -, rfl⟩ := h <;> rfl

/-- The step of the engine's turn with a word pending (R121). -/
theorem step_eq_completeOutcome (h : engineTurn s u) (hp : s.pending = some w) :
    step s = completeOutcome (execWord w u) := by
  obtain ⟨hpend, -⟩ := engineTurn_frame h
  rw [step_of_engineTurn h, engineStep_pending (hpend.trans hp)]

/-- A word is executed as a command or records ILLEGAL_CMD (R65, R119). -/
theorem execWord_cases (w : Word) (s : State) :
    (∃ i, execWord w s = exec i s) ∨
      execWord w s = .next (record .illegalCmd w 0 s) := by
  cases h : decode w with
  | ok i => exact .inl ⟨i, execWord_of_decode h⟩
  | error r => exact .inr (execWord_of_reject h)

/-- No word is refused. -/
theorem execWord_not_refused (w : Word) (s : State) (r : Refusal) : execWord w s ≠ .refused r := by
  obtain ⟨i, hx⟩ | hx := execWord_cases w s <;> rw [hx]
  · exact exec_not_refused i s r
  · simp

/-- The execution of a word stops only at a byte before END that nothing has written (R32). -/
theorem execWord_fault {f : Fault} (h : execWord w s = .fault f) :
    ∃ a, a < s.bitEnd.toNat ∧ f = .bufUnwritten (a / 8) ∧ storeGet s.buf (a / 8) = none := by
  obtain ⟨i, hx⟩ | hx := execWord_cases w s <;> rw [hx] at h
  · exact exec_fault h
  · cases h

/-- The execution of a word keeps what no command writes. -/
theorem execWord_commandFrame (h : execWord w s = .next t) : commandFrame s t := by
  obtain ⟨i, hx⟩ | hx := execWord_cases w s <;> rw [hx] at h
  · exact exec_commandFrame h
  · obtain rfl := Host.Outcome.next.inj h
    simp [commandFrame]

/-- The execution of a word answers a next state, or stops and then some byte before END has never been
written. -/
theorem execWord_total (w : Word) (s : State) :
    (∃ t, execWord w s = .next t) ∨ ((∃ f, execWord w s = .fault f) ∧ ¬dataWritten s) := by
  cases h : execWord w s with
  | next t => exact .inl ⟨t, rfl⟩
  | fault f =>
    obtain ⟨a, ha, -, hnone⟩ := execWord_fault h
    refine .inr ⟨⟨f, rfl⟩, fun hw => ?_⟩
    have hsome := hw a ha
    simp [hnone] at hsome
  | refused r => exact absurd h (execWord_not_refused w s r)

/-! ### A host that waits -/

/-- A run goes on with the next state of its first step. -/
theorem run_of_step_next {k : Nat} (h : step s = .next t) :
    Host.Core.run Sys2Proof.core (k + 1) s = Host.Core.run Sys2Proof.core k t := by
  simp only [Host.Core.run, show Sys2Proof.core.step s = _ from h]

/-- A run stops where its first step does. -/
theorem run_of_step_fault {k : Nat} {f : Fault} (h : step s = .fault f) :
    Host.Core.run Sys2Proof.core (k + 1) s = .fault f := by
  simp only [Host.Core.run, show Sys2Proof.core.step s = _ from h]

/-- The step of a poll of STATUS hands back the status word (R19, R70). -/
theorem step_poll {rest : List Turn} (h : s.script = opRead 0x0C :: rest) :
    step s = .next { afterTurn s rest with rdata := statusWord s } :=
  step_hostRead_value h rfl (by decide) (regAt_status _) (.inr rfl) rfl

/-- The engine's step and one poll after it: the wait of a command that is executed at once. -/
theorem run_engine_then_poll {rest : List Turn} (hp : s.pending = some w)
    (hs : s.script = opWait 0 ++ rest) :
    (∃ t : State, Host.Core.run Sys2Proof.core 2 s = .next t ∧ t.rdata.getLsbD 0 = false ∧
      t.pending = none ∧ t.script = rest) ∨
    ((∃ f, Host.Core.run Sys2Proof.core 2 s = .fault f) ∧ ¬dataWritten s) := by
  have hturn : engineTurn s (afterTurn s (opRead 0x0C :: rest)) := .inr ⟨_, hs, rfl⟩
  have hstep := step_eq_completeOutcome hturn hp
  obtain ⟨t, ht⟩ | ⟨⟨f, hf⟩, hw⟩ := execWord_total w (afterTurn s (opRead 0x0C :: rest))
  · obtain ⟨-, -, -, -, -, -, hscript, -⟩ := execWord_commandFrame ht
    have hpoll := step_poll ((complete_script t).trans hscript)
    obtain ⟨hbusy, -⟩ := statusWord_flags (complete t)
    rw [ht, completeOutcome_next] at hstep
    refine .inl ⟨_, (run_of_step_next hstep).trans (run_of_step_next hpoll), ?_,
      complete_pending t, rfl⟩
    exact hbusy.trans (by rw [busy, complete_pending, Option.isSome_none])
  · rw [hf, completeOutcome_fault] at hstep
    exact .inr ⟨⟨f, run_of_step_fault hstep⟩, hw⟩

end

/-! ### The statements -/

/-- Settles O5: the engine moves in the state after its turn and executes the word as its command. -/
theorem stepRunsDecodedCommand : Obligations.StepRunsDecodedCommand := by
  intro s u w i hu hp hd
  rw [step_eq_completeOutcome hu hp, execWord_of_decode hd]

/-- Settles O6: a rejected word is executed as the record of ILLEGAL_CMD. -/
theorem illegalWordFaults : Obligations.IllegalWordFaults := fun _ _ _ _ hu hp hd =>
  step_pending_of_engineTurn hu hp (execWord_of_reject hd)

/-- Settles O7: with nothing pending the engine's step is the state after its turn. -/
theorem idleEngineDoesNothing : Obligations.IdleEngineDoesNothing := by
  intro s u hu hp
  obtain ⟨hpend, -⟩ := engineTurn_frame hu
  rw [step_of_engineTurn hu, engineStep, hpend, hp]

/-- Settles O8: the step completes what the execution of the word answers, which is no refusal, and no stop
when the data is written. -/
theorem everyCommandCompletes : Obligations.EveryCommandCompletes := by
  intro s u w hu hp
  have hstep := step_eq_completeOutcome hu hp
  refine ⟨fun r h => ?_, fun t h => ?_, fun hw => ?_⟩
  · cases hx : execWord w u with
    | refused q => exact execWord_not_refused w u q hx
    | next | fault => rw [hstep, hx] at h; cases h
  · obtain ⟨v, -, rfl⟩ := (completeOutcome_eq_next _ t).mp (hstep.symm.trans h)
    exact ⟨complete_pending v, by simp [busy], complete_srstReq v⟩
  · rw [eq_afterTurn_of_engineTurn hu] at hstep
    obtain ⟨t, ht⟩ | ⟨-, hn⟩ := execWord_total w (afterTurn s u.script)
    · exact ⟨complete t, by rw [hstep, ht, completeOutcome_next]⟩
    · exact absurd hw hn

/-- Settles O9: the command keeps SRST_REQ and the build, so completion goes by the request in `s`. -/
theorem completionAppliesSoftReset : Obligations.CompletionAppliesSoftReset := by
  intro s u t i w hu hp hd ht
  obtain ⟨-, -, -, hreq, hbuild, -⟩ := exec_commandFrame ht
  have hstep : step s = .next (complete t) :=
    step_pending_of_engineTurn hu hp ((execWord_of_decode hd).trans ht)
  obtain ⟨-, hureq⟩ := engineTurn_frame hu
  have hubuild : u.build = s.build := by rw [eq_afterTurn_of_engineTurn hu]; rfl
  refine ⟨fun h => ?_, fun h => ?_⟩
  · rw [hstep, complete_of_no_request t (hreq.trans (hureq.trans h))]
  · rw [hstep, complete_of_request t (hreq.trans (hureq.trans h)), ← hubuild, ← hbuild]
    rfl

/-- Settles O10, by induction on the polls before the engine's turn: a poll changes nothing that the wait
depends on. -/
theorem waitReadsIdle : Obligations.WaitReadsIdle := by
  intro k
  induction k with
  | zero => exact fun s w rest hp hs => run_engine_then_poll hp hs
  | succ k ih =>
    intro s w rest hp hs
    have hrun : Host.Core.run Sys2Proof.core (k + 1 + 2) s = Host.Core.run Sys2Proof.core (k + 2)
        { afterTurn s (opWait k ++ rest) with rdata := statusWord s } :=
      run_of_step_next (step_poll hs)
    rw [hrun]
    exact ih { afterTurn s (opWait k ++ rest) with rdata := statusWord s } w rest hp rfl

end Sys2Proof.Proofs
end

section
/-! The window once more: the registers that a read hands back as they stand, the data ports and OBUF, the
accesses while BUSY = 1, and the soft reset (R16 to R26, R33, R45, R146). -/

namespace Sys2Proof.Proofs

open Sys2Proof.Machine Sys2Proof.Claims

/-! ### The register map -/

/-- The offset of an element of a data port names it (R13). -/
theorem regAt_portOffset (b : Build) (f : PortFile) {k : Nat} (hk : k < 64) :
    regAt b (portOffset f k) = .port f k := by
  cases f with
  | ts => exact regAt_ts b k hk
  | xr => exact regAt_xr b k hk
  | xi => exact regAt_xi b k hk

/-- The offset of an element of a data port is aligned and inside the window. -/
theorem portOffset_bounds (f : PortFile) {k : Nat} (hk : k < 64) :
    portOffset f k % 4 = 0 ∧ portOffset f k < 0x30000 := by
  cases f <;> simp only [portOffset] <;> omega

/-- The offset of word `j` of OBUF names the byte of its lane 0 (R13, R45). -/
theorem regAt_obufWord {b : Build} {j : Nat} (hj : 4 * j < b.obufBytes) :
    regAt b (0x20000 + 4 * j) = .obuf (4 * j) := by
  rw [regAt_obuf b _ (by omega) (by omega), Nat.add_sub_cancel_left]

/-- The offset of a word of OBUF is aligned and inside the window. -/
theorem obufWordOffset_bounds {b : Build} {j : Nat} (hb : b.Legal) (hj : 4 * j < b.obufBytes) :
    (0x20000 + 4 * j) % 4 = 0 ∧ 0x20000 + 4 * j < 0x30000 := by
  obtain ⟨-, -, -, ⟨-, hmax⟩, -⟩ := hb
  omega

/-- The offsets from 0x100 to 0x3FF name data ports (R13, R26). -/
theorem regAt_ports (b : Build) {off : Nat} (h0 : 0x100 ≤ off) (h1 : off < 0x400) :
    ∃ f k, regAt b off = .port f k := by
  rw [regAt, if_neg (Nat.not_lt.mpr h0), if_pos h1]
  unfold portAt
  split
  · exact ⟨_, _, rfl⟩
  · split <;> exact ⟨_, _, rfl⟩

/-- An offset whose read while BUSY = 1 is unspecified names a result (R33). -/
theorem unspecified_of_resultOffset {b : Build} {off : Nat} (h : resultOffset b off) :
    unspecifiedWhileBusy (regAt b off) = true := by
  obtain rfl | rfl | rfl | rfl | rfl | ⟨-, h0, h1⟩ | ⟨-, h0, h1⟩ := h
  · rfl
  · rfl
  · rfl
  · rfl
  · rfl
  · obtain ⟨f, k, hr⟩ := regAt_ports b h0 h1
    rw [hr]
    rfl
  · rw [regAt_obuf b off h0 h1]
    rfl

/-- An offset whose write while BUSY = 1 faults names an input (R33). -/
theorem isInput_of_inputOffset {b : Build} {off : Nat} (hb : b.Legal) (h : inputOffset b off) :
    isInput (regAt b off) = true := by
  obtain ⟨-, -, ⟨-, hmax⟩, -⟩ := hb
  obtain rfl | rfl | ⟨-, h0, h1⟩ | ⟨-, h0, h1⟩ := h
  · rfl
  · rfl
  · obtain ⟨f, k, hr⟩ := regAt_ports b h0 h1
    rw [hr]
    rfl
  · rw [regAt_buf b hmax off h0 h1]
    rfl

/-- The offset of a result is aligned and inside the window of a legal build. -/
theorem resultOffset_bounds {b : Build} {off : Nat} (hb : b.Legal) (h : resultOffset b off) :
    off % 4 = 0 ∧ off < 0x30000 := by
  obtain ⟨-, -, -, ⟨-, ho⟩, -⟩ := hb
  unfold resultOffset at h
  omega

/-- The offset of an input is aligned and inside the window of a legal build. -/
theorem inputOffset_bounds {b : Build} {off : Nat} (hb : b.Legal) (h : inputOffset b off) :
    off % 4 = 0 ∧ off < 0x30000 := by
  obtain ⟨-, -, ⟨-, hmax⟩, -⟩ := hb
  unfold inputOffset at h
  omega

/-! ### The values of registers -/

/-- The fields of CFG do not overlap in a legal build (R17). -/
theorem cfgWord_fields {b : Build} (hb : b.Legal) :
    ((cfgWord b).extractLsb' 0 8).toNat = b.qmfInst - 1 ∧
      ((cfgWord b).extractLsb' 8 8).toNat = b.qmfJ ∧ (cfgWord b).extractLsb' 16 16 = 0 := by
  obtain ⟨⟨hi1, hi⟩, ⟨hj1, hj⟩, -⟩ := hb
  have hw : (cfgWord b).toNat = (b.qmfInst - 1) + 2 ^ 8 * b.qmfJ := by
    rw [cfgWord, BitVec.toNat_ofNat]
    omega
  refine ⟨?_, ?_, BitVec.eq_of_toNat_eq ?_⟩ <;>
    simp only [BitVec.extractLsb'_toNat, Nat.shiftRight_eq_div_pow, hw, BitVec.ofNat_eq_ofNat,
      BitVec.toNat_ofNat] <;>
    omega

/-- A lane of OBUF has the value of the byte written there, and 0 at or beyond OBUF_BYTES (R45). -/
theorem obufLane_eq_ok {s : State} {b : Nat} {v : Byte} :
    obufLane s b = .ok v ↔ if b < s.build.obufBytes then storeGet s.obuf b = some v else v = 0 := by
  unfold obufLane
  split
  · cases storeGet s.obuf b <;> simp
  · rw [Except.ok.injEq, eq_comm]

/-- A lane of OBUF stops a read exactly when it is below OBUF_BYTES and nothing has written it (R45). -/
theorem obufLane_eq_error {s : State} {b : Nat} {f : Fault} :
    obufLane s b = .error f ↔
      b < s.build.obufBytes ∧ storeGet s.obuf b = none ∧ f = .obufUnwritten b := by
  unfold obufLane
  split
  · next h => cases storeGet s.obuf b <;> simp [h, eq_comm]
  · next h => simp [h]

/-- A word of OBUF whose lanes have all been written has their value (R45). -/
theorem obufWord_value {s : State} {j : Nat}
    (hw : ∀ b, 4 * j ≤ b → b < 4 * j + 4 → b < s.build.obufBytes → (storeGet s.obuf b).isSome = true) :
    ∃ v : Word, regValue s (.obuf (4 * j)) = .ok v ∧ ∀ lane, lane < 4 → v.extractLsb' (8 * lane) 8 =
      if 4 * j + lane < s.build.obufBytes then (storeGet s.obuf (4 * j + lane)).getD 0 else 0 := by
  obtain ⟨v, hv, hlane⟩ | ⟨k, f, hk, hf, -⟩ := readLanes_cases (obufLane s) (4 * j)
  · refine ⟨v, hv, fun k hk => ?_⟩
    have hbyte := obufLane_eq_ok.mp (hlane k hk)
    change laneOf v k = _
    split at hbyte
    · next hlt => rw [if_pos hlt, hbyte, Option.getD_some]
    · next hlt => rw [if_neg hlt, hbyte]
  · obtain ⟨hlt, hn, -⟩ := obufLane_eq_error.mp hf
    have hsome := hw (4 * j + k) (by omega) (by omega) hlt
    simp [hn] at hsome

/-- A word of OBUF with a lane that nothing has written has no value (R32, R45). -/
theorem obufWord_fault {s : State} {j b : Nat} (h0 : 4 * j ≤ b) (h1 : b < 4 * j + 4)
    (hlt : b < s.build.obufBytes) (hn : storeGet s.obuf b = none) :
    ∃ b', regValue s (.obuf (4 * j)) = .error (.obufUnwritten b') ∧ storeGet s.obuf b' = none := by
  obtain ⟨v, -, hlane⟩ | ⟨k, f, -, hf, hv⟩ := readLanes_cases (obufLane s) (4 * j)
  · have hok := hlane (b - 4 * j) (by omega)
    rw [Nat.add_sub_cancel' h0, obufLane_eq_error.mpr ⟨hlt, hn, rfl⟩] at hok
    cases hok
  · obtain ⟨-, hnone, rfl⟩ := obufLane_eq_error.mp hf
    exact ⟨4 * j + k, hv, hnone⟩

/-! ### Writes to CTRL (R18, R146) -/

section
variable {s : State} (off : Nat) {v : Word}

theorem writeReg_ctrl_nothing (hv : v.getLsbD 0 = false) : writeReg s off v .ctrl = s := by
  simp only [writeReg, writeCtrl, hv, Bool.false_eq_true, if_false]

theorem writeReg_ctrl_remembered {p : Word} (hv : v.getLsbD 0 = true) (hp : s.pending = some p) :
    writeReg s off v .ctrl = { s with srstReq := true } := by
  simp [writeReg, writeCtrl, hv, busy, hp]

theorem writeReg_ctrl_at_once (hv : v.getLsbD 0 = true) (hp : s.pending = none) :
    writeReg s off v .ctrl = softReset s := by
  simp [writeReg, writeCtrl, hv, busy, hp]

end

/-! ### The statements -/

/-- Settles O44: each of the registers is read at its offset, CFG by its fields. -/
theorem registerReads : Obligations.RegisterReads := by
  refine fun s rest => ⟨fun h => ?_, fun h hb => ?_, fun h => ?_, fun hp => ⟨fun h => ?_, fun h => ?_,
    fun h => ?_⟩⟩
  · exact step_hostRead_value (r := .id) h rfl (by decide) rfl (.inr rfl) rfl
  · exact ⟨cfgWord s.build, step_hostRead_value (r := .cfg) h rfl (by decide) rfl (.inr rfl) rfl,
      cfgWord_fields hb⟩
  · exact step_hostRead_value (r := .ctrl) h rfl (by decide) rfl (.inr rfl) rfl
  · exact step_hostRead_value (r := .res) h rfl (by decide) rfl (.inl hp) rfl
  · exact step_hostRead_value (r := .fcmd) h rfl (by decide) rfl (.inl hp) rfl
  · exact step_hostRead_value (r := .finfo) h rfl (by decide) rfl (.inl hp) rfl

/-- Settles O46: the offset names the element, which is an input that takes a write while BUSY = 0. -/
theorem dataPortsRule : Obligations.DataPortsRule := by
  intro s rest f k hk hp
  obtain ⟨h4, hl⟩ := portOffset_bounds f hk
  have hr := regAt_portOffset s.build f hk
  refine ⟨fun v h => ⟨writePort (afterTurn s rest) f k v, ?_,
    fun g j => readPort_writePort (afterTurn s rest) f g k j v, ?_⟩,
    fun h => step_hostRead_value h h4 hl hr (.inl hp) rfl⟩
  · rw [step_hostWrite_reg h h4 hl hr, writeReg_input_idle (afterTurn s rest) _ v rfl hp]
    rfl
  · cases f <;> rfl

/-- Settles O48: OBUF ignores writes, a read answers by its lanes, and READBYTES alone writes it. -/
theorem obufWindowRule : Obligations.ObufWindowRule := by
  refine ⟨fun s rest j hb hj => ?_, fun i s t => exec_obuf⟩
  obtain ⟨h4, hl⟩ := obufWordOffset_bounds hb hj
  have hr := regAt_obufWord hj
  refine ⟨fun v h => ?_, fun hp h hw => ?_, fun b hp h h0 h1 hlt hn => ?_⟩
  · rw [step_hostWrite_reg h h4 hl hr, writeReg_of_ignoresWrites _ _ v rfl]
  · obtain ⟨v, hv, hlanes⟩ := obufWord_value hw
    exact ⟨v, step_hostRead_value h h4 hl hr (.inl hp) hv, hlanes⟩
  · obtain ⟨b', hf, hnone⟩ := obufWord_fault h0 h1 hlt hn
    exact ⟨b', step_hostRead_fault h h4 hl hr (.inl hp) hf, hnone⟩

/-- Settles O49: the offset names an input, whose write while BUSY = 1 is recorded. -/
theorem busyWritesFault : Obligations.BusyWritesFault := by
  intro s rest off p v hb hp ho h
  obtain ⟨h4, hl⟩ := inputOffset_bounds hb ho
  rw [step_hostWrite_reg h h4 hl rfl,
    writeReg_input_busy (afterTurn s rest) off v (isInput_of_inputOffset hb ho) hp]

/-- Settles O50: a result draws a free word; CMD and BUF are no results and answer as while BUSY = 0. -/
theorem busyReadsRule : Obligations.BusyReadsRule := by
  refine fun s rest p hb hp => ⟨fun off ho h => ?_, fun h => ?_, fun j hj h => ?_⟩
  · obtain ⟨h4, hl⟩ := resultOffset_bounds hb ho
    rw [step_hostRead h h4 hl]
    exact readReg_busy (s := afterTurn s rest) hp (unspecified_of_resultOffset ho)
  · exact step_hostRead_value h rfl (by decide) (regAt_cmd _) (.inr rfl) rfl
  · exact step_hostRead_readsBufWord hb hj h

/-- Settles O53: a write to CTRL by its bit 0 and by BUSY. -/
theorem softResetRule : Obligations.SoftResetRule := by
  intro s rest v h
  have hstep := step_hostWrite_reg (r := .ctrl) h rfl (by decide) rfl
  refine ⟨fun hv => ?_, fun hv p hp => ?_, fun hv hp => ?_⟩
  · rw [hstep, writeReg_ctrl_nothing _ hv]
  · rw [hstep, writeReg_ctrl_remembered (s := afterTurn s rest) _ hv hp]
  · rw [hstep, writeReg_ctrl_at_once (s := afterTurn s rest) _ hv hp]
    rfl

end Sys2Proof.Proofs
end

section
/-! What every step keeps, said from the four ways a step answers: the build, a pending word, a standing
fault; and what stops a step (R28, R29, R32, R124). -/

namespace Sys2Proof.Proofs

open Sys2Proof.Machine Sys2Proof.Claims

section
variable {s t : State}

/-! ### What a host write can do -/

/-- What a host write of `v` to a register of the window does to state `s`, said once (R18 to R22, R26, R31,
R33): it is ignored, recorded as a fault, stored in an input, dropped, accepted as a command, clears STATUS,
or asks for a soft reset, which is remembered or done at once. -/
inductive WriteEffect (s : State) (v : Word) : Reg → State → Prop where
  | ignored (r : Reg) : WriteEffect s v r s
  | recorded (r : Reg) (c : FaultCode) (w info : Word) : WriteEffect s v r (record c w info s)
  | stored (r : Reg) (hp : s.pending = none) : WriteEffect s v r (writeInput s v r)
  | dropped : WriteEffect s v .cmd { s with drop := true }
  | accepted (hp : s.pending = none) (hf : s.fault = false) :
    WriteEffect s v .cmd { s with pending := some v }
  | cleared : WriteEffect s v .status
      { s with
        fault := if v.getLsbD 1 then false else s.fault
        fcode := if v.getLsbD 1 then 0 else s.fcode
        drop := if v.getLsbD 2 then false else s.drop }
  | remembered (hb : busy s = true) : WriteEffect s v .ctrl { s with srstReq := true }
  | reset (hv : v.getLsbD 0 = true) (hp : s.pending = none) : WriteEffect s v .ctrl (softReset s)

/-- A host write to CMD: overrun, dropped or accepted (R20). -/
theorem writeReg_cmd_effect (s : State) (off : Nat) (v : Word) :
    WriteEffect s v .cmd (writeReg s off v .cmd) := by
  cases hp : s.pending with
  | some p => rw [writeReg_cmd_busy s off v hp]; exact .recorded _ _ _ _
  | none =>
    cases hf : s.fault with
    | true => rw [writeReg_cmd_faulted s off v hp hf]; exact .dropped
    | false => rw [writeReg_cmd_accepted s off v hp hf]; exact .accepted hp hf

/-- A host write to CTRL: nothing, remembered or at once (R18, R146). -/
theorem writeReg_ctrl_effect (s : State) (off : Nat) (v : Word) :
    WriteEffect s v .ctrl (writeReg s off v .ctrl) := by
  cases hv : v.getLsbD 0 with
  | false => rw [writeReg_ctrl_nothing off hv]; exact .ignored _
  | true =>
    cases hp : s.pending with
    | some p => rw [writeReg_ctrl_remembered off hv hp]; exact .remembered (by simp [busy, hp])
    | none => rw [writeReg_ctrl_at_once off hv hp]; exact .reset hv hp

/-- A host write to an input: stored while BUSY = 0, recorded while BUSY = 1 (R33). -/
theorem writeReg_input_effect (s : State) (off : Nat) (v : Word) {r : Reg} (hi : isInput r = true) :
    WriteEffect s v r (writeReg s off v r) := by
  cases hp : s.pending with
  | some p => rw [writeReg_input_busy s off v hi hp]; exact .recorded _ _ _ _
  | none => rw [writeReg_input_idle s off v hi hp]; exact .stored _ hp

/-- Every host write is one of these. -/
theorem writeReg_effect (s : State) (off : Nat) (v : Word) (r : Reg) :
    WriteEffect s v r (writeReg s off v r) := by
  cases r with
  | pos | bitEnd | port | buf => exact writeReg_input_effect s off v rfl
  | status => rw [writeReg_status]; exact .cleared
  | cmd => exact writeReg_cmd_effect s off v
  | ctrl => exact writeReg_ctrl_effect s off v
  | id | cfg | res | fcmd | finfo | obuf | reserved =>
    rw [writeReg_of_ignoresWrites s off v rfl]
    exact .ignored _

/-- What an input takes while BUSY = 0 leaves everything but the inputs alone. -/
theorem writeInput_frame (s : State) (v : Word) (r : Reg) :
    writeInput s v r = { s with
      pos := (writeInput s v r).pos, bitEnd := (writeInput s v r).bitEnd, buf := (writeInput s v r).buf,
      ts := (writeInput s v r).ts, xr := (writeInput s v r).xr, xi := (writeInput s v r).xi } := by
  cases r with
  | port f k => cases f <;> rfl
  | id | cfg | ctrl | status | cmd | res | pos | bitEnd | fcmd | finfo | buf | obuf | reserved => rfl

section
variable {v : Word} {r : Reg}

/-- A host write keeps the build (R28). -/
theorem WriteEffect.build (h : WriteEffect s v r t) : t.build = s.build := by
  cases h with
  | ignored | dropped | accepted | cleared | remembered | reset => rfl
  | recorded => exact record_build s _ _ _
  | stored => rw [writeInput_frame]

/-- A host write keeps PENDING, but for an accepted write to CMD (R20, R29). -/
theorem WriteEffect.pending (h : WriteEffect s v r t) :
    t.pending = s.pending ∨
      (r = .cmd ∧ s.pending = none ∧ s.fault = false ∧ t.pending = some v) := by
  cases h with
  | ignored | dropped | cleared | remembered => exact .inl rfl
  | accepted hp hf => exact .inr ⟨rfl, hp, hf, rfl⟩
  | reset hv hp => exact .inl hp.symm
  | recorded => exact .inl (record_pending s _ _ _)
  | stored => rw [writeInput_frame]; exact .inl rfl

end

/-! ### A standing fault (R124, R132) -/

/-- FAULT, FCODE, FCMD and FINFO are as before. -/
def keepsFault (s t : State) : Prop :=
  t.fault = s.fault ∧ t.fcode = s.fcode ∧ t.fcmd = s.fcmd ∧ t.finfo = s.finfo

theorem keepsFault_refl (s : State) : keepsFault s s := ⟨rfl, rfl, rfl, rfl⟩

theorem keepsFault_record (c : FaultCode) (w info : Word) (hf : s.fault = true) :
    keepsFault s (record c w info s) := by
  rw [record_of_fault s c w info hf]
  exact keepsFault_refl s

/-- While FAULT = 1 a host write keeps the fault unless it clears it through STATUS or resets through
CTRL. -/
theorem WriteEffect.keepsFault {v : Word} {r : Reg} (h : WriteEffect s v r t) (hf : s.fault = true)
    (hstatus : r = .status → v.getLsbD 1 = false) (hctrl : r = .ctrl → v.getLsbD 0 = false) :
    keepsFault s t := by
  cases h with
  | ignored | dropped | accepted | remembered => exact ⟨rfl, rfl, rfl, rfl⟩
  | recorded => exact keepsFault_record _ _ _ hf
  | stored => rw [writeInput_frame]; exact ⟨rfl, rfl, rfl, rfl⟩
  | cleared => rw [hstatus rfl]; exact ⟨rfl, rfl, rfl, rfl⟩
  | reset hv => rw [hctrl rfl] at hv; cases hv

/-- While FAULT = 1 the execution of a command keeps the fault. -/
theorem exec_keepsFault {i : Instr} (hf : s.fault = true) (h : exec i s = .next t) :
    keepsFault s t := by
  obtain hkept | ⟨c, info, rfl⟩ := exec_faultFrame h
  · exact hkept
  · exact keepsFault_record _ _ _ hf

/-- While FAULT = 1 the engine's step without a soft-reset request keeps the fault. -/
theorem engineStep_keepsFault (hf : s.fault = true) (hr : s.srstReq = false)
    (h : engineStep s = .next t) : keepsFault s t := by
  obtain ⟨-, rfl⟩ | ⟨w, u, -, rfl, hu⟩ := engineStep_next h
  · exact ⟨rfl, rfl, rfl, rfl⟩
  · obtain ⟨hkept, hreq⟩ : keepsFault s u ∧ u.srstReq = s.srstReq := by
      obtain ⟨c, info, rfl⟩ | ⟨i, -, hi⟩ := hu
      · exact ⟨keepsFault_record _ _ _ hf, record_srstReq s c w info⟩
      · obtain ⟨-, -, -, hreq, -⟩ := exec_commandFrame hi
        exact ⟨exec_keepsFault hf hi, hreq⟩
    rw [complete_of_no_request u (hreq.trans hr)]
    exact hkept

/-! ### The engine's step and the build -/

/-- The engine's step keeps the build (R28). -/
theorem engineStep_build (h : engineStep s = .next t) : t.build = s.build := by
  obtain ⟨-, rfl⟩ | ⟨w, u, -, rfl, hu⟩ := engineStep_next h
  · rfl
  · rw [complete_build]
    obtain ⟨c, info, rfl⟩ | ⟨i, -, hi⟩ := hu
    · exact record_build s c w info
    · obtain ⟨-, -, -, -, hbuild, -⟩ := exec_commandFrame hi
      exact hbuild

/-- After the engine's step nothing is pending (R120). -/
theorem engineStep_pending_none (h : engineStep s = .next t) : t.pending = none := by
  obtain ⟨hp, rfl⟩ | ⟨w, u, -, rfl, -⟩ := engineStep_next h
  · exact hp
  · exact complete_pending u

/-! ### What stops a step -/

/-- The access of a turn that is not the shape of R42. -/
theorem not_shape_of_not_accessOk {off bytes : Nat} (h : ¬accessOk off bytes = true) :
    ¬(bytes = 4 ∧ off % 4 = 0 ∧ off < 0x30000) := fun hs => h (decide_eq_true hs)

/-- The engine's step stops only at a byte of BUF that nothing has written (R32). -/
theorem engineStep_fault {f : Fault} (h : engineStep s = .fault f) :
    ∃ b, f = .bufUnwritten b ∧ storeGet s.buf b = none := by
  unfold engineStep at h
  split at h
  · cases h
  · next w hw =>
    cases hx : execWord w s with
    | next u => rw [hx] at h; cases h
    | refused r => rw [hx] at h; cases h
    | fault g =>
      obtain rfl : g = f := by rw [hx] at h; exact Host.Outcome.fault.inj h
      obtain ⟨a, -, hg, hn⟩ := execWord_fault hx
      exact ⟨a / 8, hg, hn⟩

/-- The engine's step is never refused. -/
theorem engineStep_not_refused (s : State) (r : Refusal) : engineStep s ≠ .refused r := by
  unfold engineStep
  split
  · simp
  · next w hw =>
    cases hx : execWord w s with
    | next u | fault f => simp
    | refused q => exact absurd hx (execWord_not_refused w s q)

/-- A step stops only at a byte of BUF or OBUF that nothing has written (R32, R43, R45). -/
theorem step_fault {f : Fault} (h : step s = .fault f) :
    (∃ b, f = .bufUnwritten b ∧ storeGet s.buf b = none) ∨
      (∃ b, f = .obufUnwritten b ∧ storeGet s.obuf b = none) := by
  cases hs : s.script with
  | nil => exact .inl (engineStep_fault (step_no_turn hs ▸ h))
  | cons turn rest =>
    simp only [step, stepTurn, hs] at h
    cases turn with
    | hostRead off bytes =>
      simp only [takeTurn, hostRead] at h
      split at h
      · exact readReg_fault (s := afterTurn s rest) h
      · cases h
    | hostWrite off bytes v =>
      simp only [takeTurn, hostWrite] at h
      split at h <;> cases h
    | engine => exact .inl (engineStep_fault (s := afterTurn s rest) h)
    | hardReset =>
      simp only [takeTurn, arriveReset] at h
      split at h <;> cases h

/-- A step is refused only for the shape of an access, or for a hardware reset while a command is pending
(R42, R145). -/
theorem step_refused {r : Refusal} (h : step s = .refused r) :
    (∃ off bytes, r = .accessShape off bytes ∧ ¬(bytes = 4 ∧ off % 4 = 0 ∧ off < 0x30000)) ∨
      (r = .resetWhilePending ∧ s.pending ≠ none) := by
  cases hs : s.script with
  | nil => exact absurd (step_no_turn hs ▸ h) (engineStep_not_refused s r)
  | cons turn rest =>
    simp only [step, stepTurn, hs] at h
    cases turn with
    | hostRead off bytes =>
      simp only [takeTurn, hostRead] at h
      split at h
      · exact absurd h (readReg_not_refused _ _ r)
      · next ho =>
        exact .inl ⟨off, bytes, (Host.Outcome.refused.inj h).symm, not_shape_of_not_accessOk ho⟩
    | hostWrite off bytes v =>
      simp only [takeTurn, hostWrite] at h
      split at h
      · cases h
      · next ho =>
        exact .inl ⟨off, bytes, (Host.Outcome.refused.inj h).symm, not_shape_of_not_accessOk ho⟩
    | engine => exact absurd h (engineStep_not_refused _ r)
    | hardReset =>
      simp only [takeTurn, arriveReset] at h
      split at h
      · next p hp => exact .inr ⟨(Host.Outcome.refused.inj h).symm, by simp [hp]⟩
      · cases h

end

/-! ### The statements -/

/-- Settles O52: a read's next state is the one before it but for the value and the count of free words. -/
theorem readsHaveNoSideEffect : Obligations.ReadsHaveNoSideEffect := by
  intro s t rest off bytes hs h
  simp only [step, stepTurn, hs, takeTurn, hostRead] at h
  split at h
  · obtain ⟨v, n, rfl⟩ := readReg_next h
    rfl
  · cases h

/-- Settles O57: no host access, no command and no reset writes the build. -/
theorem tablesNeverChange : Obligations.TablesNeverChange := by
  intro s t h
  obtain ⟨off, bytes, rest, -, -, hr⟩ | ⟨off, bytes, v, rest, -, -, rfl⟩ | ⟨rest, -, he⟩ |
    ⟨rest, -, -, rfl⟩ := step_next h
  · obtain ⟨v, n, rfl⟩ := readReg_next hr
    rfl
  · exact (writeReg_effect (afterTurn s rest) off v _).build
  · exact engineStep_build (s := afterTurn s rest) he
  · rfl

/-- Settles O58: the stops of a step by the turn it takes. -/
theorem stopsAreNamed : Obligations.StopsAreNamed := fun _ =>
  ⟨fun _ => step_fault, fun _ => step_refused⟩

/-- Settles O59: reads and writes keep PENDING but for an accepted CMD write, the engine leaves it none, and
a hardware reset finds it none. -/
theorem onlyCmdSetsAndEngineClearsPending : Obligations.OnlyCmdSetsAndEngineClearsPending := by
  intro s t w h
  obtain ⟨off, bytes, rest, -, -, hr⟩ | ⟨off, bytes, v, rest, hs, ho, rfl⟩ | ⟨rest, hs, he⟩ |
    ⟨rest, -, hp, rfl⟩ := step_next h
  · obtain ⟨v, n, rfl⟩ := readReg_next hr
    exact ⟨.inl, fun hp _ => hp⟩
  · obtain ⟨rfl, -, -⟩ := of_decide_eq_true ho
    obtain hkept | ⟨hr, hp, hf, hset⟩ :=
      (writeReg_effect (afterTurn s rest) off v (regAt s.build off)).pending
    · exact ⟨fun ht => .inl (hkept.symm.trans ht), fun hp _ => hkept.trans hp⟩
    · refine ⟨fun ht => .inr ⟨hp, hf, rest, ?_⟩, fun hw _ => ?_⟩
      · obtain rfl : v = w := Option.some.inj (hset.symm.trans ht)
        rw [hs, regAt_eq_cmd hr]
      · exact absurd (hp.symm.trans hw) (by simp)
  · have hnone := engineStep_pending_none he
    refine ⟨fun ht => absurd (hnone.symm.trans ht) (by simp), fun _ hturn => absurd ?_ hturn⟩
    obtain ⟨hs, -⟩ | hs := hs
    · exact ⟨s, .inl ⟨hs, rfl⟩⟩
    · exact ⟨afterTurn s rest, .inr ⟨rest, hs, rfl⟩⟩
  · refine ⟨fun ht => absurd ht (by simp), fun hw _ => absurd (hp.symm.trans hw) (by simp)⟩

/-- Settles O60: while FAULT = 1 every turn but the three excluded ones keeps the fault registers. -/
theorem onlyClearAndResetDropFault : Obligations.OnlyClearAndResetDropFault := by
  intro s t h hf hr hstatus hctrl hreset
  have kept : keepsFault s t := by
    obtain ⟨off, bytes, rest, -, -, hread⟩ | ⟨off, bytes, v, rest, hs, ho, rfl⟩ | ⟨rest, -, he⟩ |
      ⟨rest, hs, -⟩ := step_next h
    · obtain ⟨v, n, rfl⟩ := readReg_next hread
      exact ⟨rfl, rfl, rfl, rfl⟩
    · obtain ⟨rfl, -, -⟩ := of_decide_eq_true ho
      refine (writeReg_effect (afterTurn s rest) off v _).keepsFault hf (fun hreg => ?_) fun hreg => ?_
      · exact hstatus v rest (by rw [hs, regAt_eq_status hreg])
      · exact hctrl v rest (by rw [hs, regAt_eq_ctrl hreg])
    · exact engineStep_keepsFault (s := afterTurn s rest) hf hr he
    · exact absurd hs (hreset rest)
  obtain ⟨hfault, hregs⟩ := kept
  exact ⟨hfault.trans hf, hregs⟩

end Sys2Proof.Proofs
end

section
/-! The invariant `Inv`: every operation of the machine keeps it, so every step does. Inv reads only some
fields of the state, so an update of the others keeps it as it stands. -/

namespace Sys2Proof.Proofs

open Sys2Proof.Machine Sys2Proof.Claims

/-! ### STATUS (R19, R123, R124) -/

/-- A recorded fault is a code from 1 to 9 (R123). -/
theorem faultCodeBits_bounds (c : FaultCode) : faultCodeBits c ≠ 0 ∧ (faultCodeBits c).toNat ≤ 9 := by
  cases c <;> decide

/-- A move of FAULT and FCODE keeps STATUS within R19 and R124. -/
theorem faultPairMove.statusOk {s t : State} (h : faultPairMove s t) (hs : statusOk s) :
    statusOk t := by
  obtain ⟨hf, hc⟩ | ⟨hf, hc⟩ | ⟨hf, c, hc⟩ := h
  · simpa only [Machine.statusOk, hf, hc] using hs
  · simp [Machine.statusOk, hf, hc]
  · simpa [Machine.statusOk, hf, hc] using faultCodeBits_bounds c

section
variable {s t : State}

/-! ### The instances and the ports -/

/-- Fresh instances fit every build (R27). -/
theorem instancesOk_of_all_fresh (h : t.inst = List.replicate t.build.qmfInst Instance.fresh) :
    instancesOk t := by
  refine ⟨by simp [h], fun q hq => ?_⟩
  obtain rfl := List.eq_of_mem_replicate (h ▸ hq)
  exact ⟨fresh_arrayOk _, fresh_arrayOk _⟩

/-- An instance of a state whose instances fit the build fits it, present or not. -/
theorem instanceAt_arrayOk (h : instancesOk s) (x : Nat) :
    arrayOk s.build.qmfL (instanceAt s x).aw ∧ arrayOk s.build.qmfH (instanceAt s x).sh := by
  obtain ⟨-, hall⟩ := h
  rw [instanceAt, List.getD_eq_getElem?_getD]
  cases hx : s.inst[x]? with
  | none => exact ⟨fresh_arrayOk _, fresh_arrayOk _⟩
  | some q => exact hall q (List.mem_of_getElem? hx)

/-- Replacing an instance by one that fits the build keeps the invariant. -/
theorem inv_setInstance {q : Instance} (x : Nat) (h : Inv s)
    (hq : arrayOk s.build.qmfL q.aw ∧ arrayOk s.build.qmfH q.sh) : Inv (setInstance s x q) := by
  obtain ⟨hlegal, hstatus, hend, hreq, hstores, hlen, hall⟩ := h
  refine ⟨hlegal, hstatus, hend, hreq, hstores, by simpa using hlen, fun p hp => ?_⟩
  obtain hp | rfl := List.mem_or_eq_of_mem_set hp
  · exact hall p hp
  · exact hq

/-- Replacing the store of a port by a canonical one keeps the invariant (R26). -/
theorem inv_setPortStore (f : PortFile) {m : List (Nat × Word)} (h : Inv s) (hm : storeWf 64 m) :
    Inv (setPortStore s f m) := by
  obtain ⟨hlegal, hstatus, hend, hreq, ⟨hbuf, hobuf, hts, hxr, hxi⟩, hinst⟩ := h
  cases f with
  | ts => exact ⟨hlegal, hstatus, hend, hreq, ⟨hbuf, hobuf, hm, hxr, hxi⟩, hinst⟩
  | xr => exact ⟨hlegal, hstatus, hend, hreq, ⟨hbuf, hobuf, hts, hm, hxi⟩, hinst⟩
  | xi => exact ⟨hlegal, hstatus, hend, hreq, ⟨hbuf, hobuf, hts, hxr, hm⟩, hinst⟩

theorem portStore_wf (h : Inv s) (f : PortFile) : storeWf 64 (portStore s f) := by
  obtain ⟨-, -, -, -, ⟨-, -, hts, hxr, hxi⟩, -⟩ := h
  cases f
  · exact hts
  · exact hxr
  · exact hxi

/-- A transform's 64 results keep the invariant (R105, R106). -/
theorem inv_writePorts (f : PortFile) {vs : List Word} (h : Inv s) (hlen : vs.length ≤ 64) :
    Inv (writePorts s f vs) :=
  inv_setPortStore f h (storeWf_storePutAll 64 vs _ 0 (portStore_wf h f) (by omega))

/-- A write of one of the 64 elements of a port keeps the invariant (R26). -/
theorem inv_writePort (f : PortFile) {k : Nat} (v : Word) (h : Inv s) (hk : k < 64) :
    Inv (writePort s f k v) :=
  inv_setPortStore f h (storeWf_storePut 64 _ k v (portStore_wf h f) hk)

@[simp] theorem forwardBands_length (b : Build) (rotation : List (List Word)) (aw : List Word) :
    (forwardBands b rotation aw).length = 64 := by
  simp [forwardBands]

@[simp] theorem inverseSamples_length (b : Build) (sh : List Word) :
    (inverseSamples b sh).length = 64 := by
  simp [inverseSamples]

/-! ### Commands -/

/-- A recorded fault keeps the invariant (R125). -/
theorem inv_record (c : FaultCode) (w info : Word) (h : Inv s) : Inv (record c w info s) := by
  cases hf : s.fault with
  | true => rwa [record_of_fault s c w info hf]
  | false =>
    obtain ⟨hlegal, hstatus, hrest⟩ := h
    have hmoved := (record_faultPairMove c w info s).statusOk hstatus
    rw [record_of_clear s c w info hf] at hmoved ⊢
    exact ⟨hlegal, hmoved, hrest⟩

/-- The effect of a command keeps the invariant: READBYTES stays inside OBUF, a slide keeps the length of
its array, and a transform writes 64 elements. -/
theorem inv_commandEffect {i : Instr} (h : Inv s) (he : commandEffect i s t) : Inv t := by
  obtain ⟨hlegal, hstatus, hend, hreq, ⟨hbuf, hobuf, hports⟩, hinst⟩ := id h
  cases i with
  | nop => exact he ▸ h
  | peek | lutbands | lutchan => obtain ⟨v, rfl⟩ := he; exact h
  | read | readbit | varlen | escf | escv | hmat | hvec | hidx =>
    obtain ⟨v, p, rfl, -⟩ := he
    exact h
  | skip => obtain ⟨rfl, -⟩ := he; exact h
  | readbytes c =>
    obtain ⟨hc, -, vs, rfl, rfl⟩ := he
    have hwritten : Memory.wf s.build.obufBytes (storePutAll s.obuf 0 vs) :=
      storeWf_storePutAll _ vs s.obuf 0 hobuf (by omega)
    exact ⟨hlegal, hstatus, hend, hreq, ⟨hbuf, hwritten, hports⟩, hinst⟩
  | qfwd x =>
    obtain ⟨-, aw, xr, xi, rfl, rfl, rfl, rfl⟩ := he
    obtain ⟨-, hsh⟩ := instanceAt_arrayOk hinst x
    exact inv_writePorts .xi (inv_writePorts .xr
      (inv_setInstance x h ⟨slideIn_arrayOk _ _ _, hsh⟩) (by simp)) (by simp)
  | qinv x =>
    obtain ⟨-, sh, ts, rfl, rfl, rfl⟩ := he
    obtain ⟨haw, -⟩ := instanceAt_arrayOk hinst x
    exact inv_writePorts .ts (inv_setInstance x h ⟨haw, slideIn_arrayOk _ _ _⟩) (by simp)
  | qclr x =>
    obtain ⟨-, rfl⟩ := he
    exact inv_setInstance x h ⟨fresh_arrayOk _, fresh_arrayOk _⟩

theorem inv_exec {i : Instr} (h : Inv s) (he : exec i s = .next t) : Inv t := by
  obtain ⟨c, info, rfl⟩ | he := exec_next he
  · exact inv_record c _ info h
  · exact inv_commandEffect h he

/-! ### Completion and the engine's step -/

/-- A soft reset keeps the invariant, even while SRST_REQ waits for no command (R146). -/
theorem inv_softReset (hlegal : s.build.Legal) (hstores : storesOk s) : Inv (softReset s) :=
  ⟨hlegal, by simp [statusOk], by simp, by simp [softRequestOk], hstores, instancesOk_of_all_fresh rfl⟩

/-- Completion keeps the invariant: it clears SRST_REQ with PENDING (R120). -/
theorem inv_complete (h : Inv s) : Inv (complete s) := by
  obtain ⟨hlegal, hstatus, hend, -, hstores, hinst⟩ := h
  cases hr : s.srstReq with
  | true =>
    rw [complete_of_request s hr]
    exact inv_softReset hlegal hstores
  | false =>
    rw [complete_of_no_request s hr]
    exact ⟨hlegal, hstatus, hend, by simp [softRequestOk, hr], hstores, hinst⟩

theorem inv_engineStep (h : Inv s) (he : engineStep s = .next t) : Inv t := by
  obtain ⟨-, rfl⟩ | ⟨w, u, -, rfl, ⟨c, info, rfl⟩ | ⟨i, -, hi⟩⟩ := engineStep_next he
  · exact h
  · exact inv_complete (inv_record c w info h)
  · exact inv_complete (inv_exec h hi)

/-! ### Host writes -/

/-- What END stores lies inside BUF (R22). -/
theorem clampEnd_le {b : Build} (hb : b.Legal) (v : Word) : (clampEnd b v).toNat ≤ 8 * b.bufBytes := by
  obtain ⟨-, -, ⟨-, hmax⟩, -⟩ := hb
  rw [clampEnd, BitVec.toNat_ofNat]
  omega

/-- The elements of the data ports are numbered below 64 (R26). -/
theorem port_index_lt {b : Build} {off k : Nat} {f : PortFile} (h : regAt b off = .port f k) : k < 64 := by
  by_cases hlow : off < 0x100
  · rw [regAt_low b off hlow] at h
    revert h
    simp only [registerAt]
    split <;> simp
  · obtain hmid | hhigh := Nat.lt_or_ge off 0x400
    · rw [regAt, if_neg hlow, if_pos hmid] at h
      unfold portAt at h
      split at h
      · obtain ⟨-, rfl⟩ := Reg.port.inj h
        omega
      · split at h <;>
        · obtain ⟨-, rfl⟩ := Reg.port.inj h
          omega
    · revert h
      rw [regAt, if_neg hlow, if_neg (Nat.not_lt.mpr hhigh)]
      repeat' split
      all_goals simp

/-- An input stored while BUSY = 0 keeps the invariant: END is clamped, ports and BUF are written inside
their sizes. -/
theorem inv_writeInput {v : Word} {r : Reg} (h : Inv s) (hk : ∀ f k, r = .port f k → k < 64) :
    Inv (writeInput s v r) := by
  obtain ⟨hlegal, hstatus, hend, hreq, ⟨hbuf, hrest⟩, hinst⟩ := id h
  cases r with
  | id | cfg | ctrl | status | cmd | res | fcmd | finfo | obuf | reserved | pos => exact h
  | bitEnd => exact ⟨hlegal, hstatus, clampEnd_le hlegal v, hreq, ⟨hbuf, hrest⟩, hinst⟩
  | port f k => exact inv_writePort f v h (hk f k rfl)
  | buf b =>
    exact ⟨hlegal, hstatus, hend, hreq, ⟨bufStore_wf _ v b 4 0 s.buf hbuf, hrest⟩, hinst⟩

/-- Every host write keeps the invariant. -/
theorem inv_writeEffect {v : Word} {r : Reg} (h : Inv s) (hk : ∀ f k, r = .port f k → k < 64)
    (hw : WriteEffect s v r t) : Inv t := by
  obtain ⟨hlegal, hstatus, hend, hreq, hstores, hinst⟩ := id h
  cases hw with
  | ignored | dropped => exact h
  | recorded => exact inv_record _ _ _ h
  | stored => exact inv_writeInput h hk
  | accepted => exact ⟨hlegal, hstatus, hend, fun _ => rfl, hstores, hinst⟩
  | cleared =>
    have hmoved : statusOk (writeReg s 0 v .status) :=
      (writeReg_faultPairMove s 0 v .status).statusOk hstatus
    rw [writeReg_status] at hmoved
    exact ⟨hlegal, hmoved, hend, hreq, hstores, hinst⟩
  | remembered hb => exact ⟨hlegal, hstatus, hend, fun _ => hb, hstores, hinst⟩
  | reset => exact inv_softReset hlegal hstores

/-! ### Resets -/

/-- A block right after a hardware reset meets the invariant when its build is legal (R144). -/
theorem inv_resetOf {b : Build} (hb : b.Legal) : Inv (State.resetOf b) :=
  ⟨hb, by simp [statusOk, State.resetOf], by simp [State.resetOf], by simp [softRequestOk, State.resetOf],
    ⟨storeWf_nil _, storeWf_nil _, storeWf_nil _, storeWf_nil _, storeWf_nil _⟩,
    instancesOk_of_all_fresh rfl⟩

end

/-! ### The statements -/

/-- Settles O55: the build behind the reset state is legal. -/
theorem resetMeetsInvariant : Obligations.ResetMeetsInvariant := inv_resetOf Config.build_legal

/-- Settles O56: a host read changes no field that Inv reads; a host write, the engine's step and a
hardware reset keep it. -/
theorem stepKeepsInvariant : Obligations.StepKeepsInvariant := by
  intro s t hs h
  obtain ⟨off, bytes, rest, -, -, hr⟩ | ⟨off, bytes, v, rest, -, -, rfl⟩ | ⟨rest, -, he⟩ |
    ⟨rest, -, -, rfl⟩ := step_next h
  · obtain ⟨v, n, rfl⟩ := readReg_next hr
    exact hs
  · exact inv_writeEffect (s := afterTurn s rest) hs (fun f k => port_index_lt)
      (writeReg_effect (afterTurn s rest) off v _)
  · exact inv_engineStep (s := afterTurn s rest) hs he
  · exact inv_resetOf hs.1

end Sys2Proof.Proofs
end

section
/-! The values of variable-length codes (R82): a code of k groups gives a value in its own range, and the
groups are read back from the value. -/

namespace Sys2Proof.Proofs

open Sys2Proof.Machine Sys2Proof.Claims

/-! ### The accumulator -/

section
variable {n : Nat}

/-- One more continued group. -/
theorem accumulate_concat (v : Nat) (gs : List Nat) (g : Nat) :
    accumulate n v (gs ++ [g]) = (accumulate n v gs + g) * 2 ^ n + 2 ^ n := by
  induction gs generalizing v with
  | nil => rfl
  | cons a gs ih => exact ih _

/-- The accumulator is a multiple of 2^n: the place of the next group is empty. -/
theorem dvd_accumulate (gs : List Nat) : 2 ^ n ∣ accumulate n 0 gs := by
  induction gs using List.reverseRecOn with
  | nil => exact dvd_zero _
  | append_singleton init g =>
    rw [accumulate_concat]
    exact dvd_add (dvd_mul_left _ _) dvd_rfl

/-- An accumulator below 2^32 has room for one more group. -/
theorem accumulate_add_lt {gs : List Nat} {g : Nat} (hn : n ≤ 32) (hv : accumulate n 0 gs < 2 ^ 32)
    (hg : g < 2 ^ n) : accumulate n 0 gs + g < 2 ^ 32 := by
  obtain ⟨a, ha⟩ := dvd_accumulate (n := n) gs
  obtain ⟨b, hb⟩ := Nat.pow_dvd_pow 2 hn
  have hab : a < b := Nat.lt_of_mul_lt_mul_left (a := 2 ^ n) (by rwa [← ha, ← hb])
  calc accumulate n 0 gs + g < 2 ^ n * a + 2 ^ n := by omega
    _ = 2 ^ n * (a + 1) := by ring
    _ ≤ 2 ^ n * b := Nat.mul_le_mul_left _ hab
    _ = 2 ^ 32 := hb.symm

/-! ### The range of a code -/

theorem codeStart_step (n k : Nat) :
    codeStart n (k + 2) = codeStart n (k + 1) + 2 ^ ((k + 1) * n) := rfl

/-- The ranges grow by a factor: `S_(k+2) = 2^n·S_(k+1) + 2^n` (R82). -/
theorem codeStart_geometric (n k : Nat) :
    codeStart n (k + 2) = codeStart n (k + 1) * 2 ^ n + 2 ^ n := by
  induction k with
  | zero => simp [codeStart]
  | succ k ih =>
    calc codeStart n (k + 3)
        = codeStart n (k + 2) + 2 ^ ((k + 2) * n) := codeStart_step n (k + 1)
      _ = codeStart n (k + 1) * 2 ^ n + 2 ^ n + 2 ^ ((k + 1) * n) * 2 ^ n := by rw [ih]; ring
      _ = codeStart n (k + 2) * 2 ^ n + 2 ^ n := by rw [codeStart_step]; ring

/-- The value of a code of k groups lies in `[S_k, S_(k+1) - 1]` (R82). -/
theorem codeValue_bounds {gs : List Nat} {g : Nat} (hgs : ∀ a ∈ gs, a < 2 ^ n) (hg : g < 2 ^ n) :
    codeStart n (gs.length + 1) ≤ accumulate n 0 gs + g ∧
      accumulate n 0 gs + g < codeStart n (gs.length + 2) := by
  induction gs using List.reverseRecOn generalizing g with
  | nil => simpa [accumulate, codeStart] using hg
  | append_singleton init a ih =>
    obtain ⟨hlo, hhi⟩ := ih (fun b hb => hgs b (by simp [hb])) (hgs a (by simp))
    rw [accumulate_concat, List.length_append, List.length_singleton]
    constructor
    · calc codeStart n (init.length + 2)
          = codeStart n (init.length + 1) * 2 ^ n + 2 ^ n := codeStart_geometric n init.length
        _ ≤ (accumulate n 0 init + a) * 2 ^ n + 2 ^ n := by gcongr
        _ ≤ (accumulate n 0 init + a) * 2 ^ n + 2 ^ n + g := Nat.le_add_right _ _
    · calc (accumulate n 0 init + a) * 2 ^ n + 2 ^ n + g
          < (accumulate n 0 init + a) * 2 ^ n + 2 ^ n + 2 ^ n := by omega
        _ = (accumulate n 0 init + a + 1) * 2 ^ n + 2 ^ n := by ring
        _ ≤ codeStart n (init.length + 2) * 2 ^ n + 2 ^ n := by gcongr; exact hhi
        _ = codeStart n (init.length + 3) := (codeStart_geometric n (init.length + 1)).symm

/-- A value has one code: its last group stands in its low n bits, and the rest is a value again. -/
theorem code_unique {gs gs' : List Nat} {g g' : Nat} (hg : g < 2 ^ n) (hg' : g' < 2 ^ n)
    (hgs : ∀ a ∈ gs, a < 2 ^ n) (hgs' : ∀ a ∈ gs', a < 2 ^ n)
    (h : accumulate n 0 gs + g = accumulate n 0 gs' + g') : gs = gs' ∧ g = g' := by
  induction gs using List.reverseRecOn generalizing gs' g g' with
  | nil =>
    induction gs' using List.reverseRecOn with
    | nil => exact ⟨rfl, by simpa [accumulate] using h⟩
    | append_singleton init a =>
      rw [accumulate_concat] at h
      simp only [accumulate] at h
      omega
  | append_singleton init a ih =>
    induction gs' using List.reverseRecOn with
    | nil =>
      rw [accumulate_concat] at h
      simp only [accumulate] at h
      omega
    | append_singleton init' a' =>
      rw [accumulate_concat, accumulate_concat] at h
      have hlow : g = g' := by
        have hmod := congrArg (· % 2 ^ n) h
        simpa [Nat.add_mod, Nat.mod_eq_of_lt hg, Nat.mod_eq_of_lt hg'] using hmod
      have hrest : accumulate n 0 init + a = accumulate n 0 init' + a' :=
        Nat.eq_of_mul_eq_mul_right (show 0 < 2 ^ n by positivity) (by omega)
      obtain ⟨rfl, rfl⟩ := ih (hgs a (by simp)) (hgs' a' (by simp)) (fun b hb => hgs b (by simp [hb]))
        (fun b hb => hgs' b (by simp [hb])) hrest
      exact ⟨rfl, hlow⟩

end

/-! ### The codes of the stream -/

/-- A field of n bits is below 2^n (R71). -/
theorem streamValue_lt (s : State) (p n : Nat) : streamValue s p n < 2 ^ n := by
  induction n with
  | zero => simp [streamValue]
  | succ n ih =>
    have hbit := Bool.toNat_lt (streamBit s (p + n))
    rw [streamValue, pow_succ]
    omega

/-- The continued groups of a stream are fields of n bits (R78). -/
theorem groups_lt {s : State} {n p : Nat} {gs : List Nat} (h : groupsContinue s n p gs) :
    ∀ a ∈ gs, a < 2 ^ n := by
  induction gs generalizing p with
  | nil => simp
  | cons g gs ih =>
    obtain ⟨-, -, rfl, -, hrest⟩ := h
    intro a ha
    obtain rfl | ha := List.mem_cons.mp ha
    · exact streamValue_lt s p n
    · exact ih hrest a ha

/-- From the cursor the stream holds a complete code: the groups `gs`, each continued, and a last one. -/
def holdsCode (n : Nat) (s : State) (gs : List Nat) : Prop :=
  groupsContinue s n (cursor s) gs ∧
  cursor s + gs.length * (n + 1) + n + 1 ≤ endOf s ∧
  streamWritten s (cursor s + gs.length * (n + 1)) (n + 1) ∧
  streamBit s (cursor s + gs.length * (n + 1) + n) = false ∧
  accumulate n 0 gs < 2 ^ 32

/-- The last group of a complete code. -/
def lastGroup (n : Nat) (s : State) (gs : List Nat) : Nat :=
  streamValue s (cursor s + gs.length * (n + 1)) n

/-- VARLEN of a complete code gives its value, and moves the cursor behind it (R78, R79). -/
theorem varlen_of_code {n : Nat} {s : State} {gs : List Nat} (hn : n ≤ 32) (h : holdsCode n s gs) :
    ∃ t, exec (.varlen n) s = .next t ∧
      t.pos = BitVec.ofNat 32 (cursor s + (gs.length + 1) * (n + 1)) ∧
      t.res.toNat = accumulate n 0 gs + lastGroup n s gs := by
  obtain ⟨hg, he, hw, hb, hv⟩ := h
  obtain ⟨-, hrule⟩ := varlenRule
  obtain ⟨-, hgroups⟩ := hrule n s
  obtain ⟨-, hends, -⟩ := hgroups gs hn hg hv
  have hfits := accumulate_add_lt hn hv (streamValue_lt s (cursor s + gs.length * (n + 1)) n)
  refine ⟨_, hends he hw hb, ?_, ?_⟩
  · simp only [withResult]
    congr 1
    ring
  · simp only [withResult, BitVec.toNat_ofNat]
    exact Nat.mod_eq_of_lt hfits

/-- Settles O22: the value of a code lies in the range of its length and is read back to its groups. -/
theorem varlenCodesAreUnique : Obligations.VarlenCodesAreUnique := by
  intro n s gs _ hn hg he hw hb hv
  obtain ⟨t, ht, hpos, hres⟩ := varlen_of_code hn (gs := gs) ⟨hg, he, hw, hb, hv⟩
  obtain ⟨hlo, hhi⟩ := codeValue_bounds (groups_lt hg) (streamValue_lt s _ n)
  refine ⟨t, ht, hpos, hres ▸ hlo, hres ▸ hhi, ?_⟩
  intro s' gs' hg' he' hw' hb' hv' t' ht' heq
  obtain ⟨u, hu, -, hres'⟩ := varlen_of_code hn (gs := gs') ⟨hg', he', hw', hb', hv'⟩
  obtain rfl : u = t' := Host.Outcome.next.inj (hu.symm.trans ht')
  refine code_unique (streamValue_lt s' _ n) (streamValue_lt s _ n) (groups_lt hg') (groups_lt hg) ?_
  exact hres'.symm.trans ((congrArg BitVec.toNat heq).trans hres)

end Sys2Proof.Proofs
end

section
/-! BUF as one part of the state: a command reads of it the bits before END only, and writes none of it, so
two states that agree on those bits have the same outcome but for BUF (R83). -/

namespace Sys2Proof.Proofs

open Sys2Proof.Machine Sys2Proof.Claims

/-- `s` with the contents of BUF replaced. -/
def withBuf (m : List Host.Cell) (s : State) : State := { s with buf := m }

/-- With BUF replaced by `m`, every bit of `s` before END reads as it did. -/
def sameBits (m : List Host.Cell) (s : State) : Prop :=
  ∀ a, a < endOf s → bitAt (withBuf m s) a = bitAt s a

/-- A bit is the stream's when its byte has been written, and a stop when not (R32, R46). -/
theorem bitAt_eq (s : State) (a : Nat) :
    bitAt s a = if (storeGet s.buf (a / 8)).isSome then .ok (streamBit s a).toNat
      else .stop (.bufUnwritten (a / 8)) := by
  cases h : storeGet s.buf (a / 8) with
  | some v => exact bitAt_of_written (streamWritten_one.mpr (by simp [h]))
  | none => simp [bitAt, bufByte, h]

/-- States with the same stream before END differ in BUF only, and in no bit before END. -/
theorem sameBits_of_sameStream {s t : State} (h : sameStream s t) :
    t = withBuf t.buf s ∧ sameBits t.buf s := by
  obtain ⟨hrest, hbits⟩ := h
  have ht : t = withBuf t.buf s := by rw [← hrest]; rfl
  refine ⟨ht, fun a ha => ?_⟩
  obtain ⟨hbit, hwritten⟩ := hbits a ha
  rw [← ht, bitAt_eq, bitAt_eq, hbit, hwritten]

section
variable {m : List Host.Cell} {s : State}

/-! ### What a body reads -/

@[simp] theorem withBuf_pos : (withBuf m s).pos = s.pos := rfl
@[simp] theorem withBuf_bitEnd : (withBuf m s).bitEnd = s.bitEnd := rfl
@[simp] theorem withBuf_build : (withBuf m s).build = s.build := rfl

@[simp] theorem underrunInfo_withBuf (p : Nat) : underrunInfo (withBuf m s) p = underrunInfo s p := rfl

@[simp] theorem checkInstance_withBuf (x : Nat) : checkInstance (withBuf m s) x = checkInstance s x := rfl

@[simp] theorem instanceAt_withBuf (x : Nat) : instanceAt (withBuf m s) x = instanceAt s x := rfl

@[simp] theorem readPorts_withBuf (f : PortFile) : readPorts (withBuf m s) f = readPorts s f := by
  cases f <;> rfl

section
variable (h : sameBits m s)
include h

theorem bitsFrom_withBuf {n p : Nat} (v : Nat) (he : p + n ≤ endOf s) :
    bitsFrom (withBuf m s) n p v = bitsFrom s n p v := by
  induction n generalizing p v with
  | zero => rfl
  | succ n ih =>
    simp only [bitsFrom, h p (by omega)]
    congr 1
    funext b
    exact ih _ (by omega)

/-- `ReadBits` raises before it reads a bit at or beyond END (R71). -/
theorem readBits_withBuf (p n : Nat) : readBits (withBuf m s) p n = readBits s p n := by
  by_cases hend : endOf s < p + n
  · simp [readBits, hend]
  · simp [readBits, hend, bitsFrom_withBuf h 0 (Nat.le_of_not_lt hend)]

theorem varBitsFrom_withBuf (n fuel p v : Nat) :
    varBitsFrom (withBuf m s) n fuel p v = varBitsFrom s n fuel p v := by
  induction fuel generalizing p v with
  | zero => rfl
  | succ fuel ih => simp [varBitsFrom, readBits_withBuf h, ih]

theorem varBits_withBuf (p n : Nat) : varBits (withBuf m s) p n = varBits s p n := by
  simp [varBits, varBitsFrom_withBuf h]

theorem bytesFrom_withBuf (c p : Nat) : bytesFrom (withBuf m s) c p = bytesFrom s c p := by
  induction c generalizing p with
  | zero => rfl
  | succ c ih => simp [bytesFrom, readBits_withBuf h, ih]

theorem huffDecode_withBuf (t : Tree) (p : Nat) : huffDecode (withBuf m s) t p = huffDecode s t p := by
  have walk : ∀ left node p, huffFrom (withBuf m s) t left node p = huffFrom s t left node p := by
    intro left
    induction left with
    | zero => exact fun _ _ => rfl
    | succ left ih => intro node p; simp [huffFrom, readBits_withBuf h, ih]
  exact walk t.len 0 p

end

/-! ### What a body writes -/

@[simp] theorem setPos_withBuf (p : Nat) : setPos (withBuf m s) p = withBuf m (setPos s p) := rfl

@[simp] theorem setRes_withBuf (v : Nat) : setRes (withBuf m s) v = withBuf m (setRes s v) := rfl

@[simp] theorem setObuf_withBuf (vs : List Byte) :
    setObuf (withBuf m s) vs = withBuf m (setObuf s vs) := rfl

@[simp] theorem setInstance_withBuf (x : Nat) (q : Instance) :
    setInstance (withBuf m s) x q = withBuf m (setInstance s x q) := rfl

@[simp] theorem writePorts_withBuf (f : PortFile) (vs : List Word) :
    writePorts (withBuf m s) f vs = withBuf m (writePorts s f vs) := by
  cases f <;> rfl

@[simp] theorem escapeSum_withBuf (v : Nat) (e : Nat × Nat) :
    escapeSum (withBuf m s) v e = (escapeSum s v e).bind fun t => .ok (withBuf m t) := by
  simp [escapeSum, ite_bind]

theorem record_withBuf (c : FaultCode) (w info : Word) :
    record c w info (withBuf m s) = withBuf m (record c w info s) := by
  cases hf : s.fault with
  | true => rw [record_of_fault s c w info hf, record_of_fault (withBuf m s) c w info hf]
  | false =>
    rw [record_of_clear s c w info hf, record_of_clear (withBuf m s) c w info hf]
    rfl

/-! ### The bodies -/

/-- A body run on BUF with the same bits before END ends as before, with that BUF in its result. -/
def BeyondEndBlind (body : State → Run State) : Prop :=
  ∀ m s, sameBits m s → body (withBuf m s) = (body s).bind fun t => .ok (withBuf m t)

theorem huffCommand_withBuf (t : Tree) (h : sameBits m s) :
    huffCommand (withBuf m s) t = (huffCommand s t).bind fun u => .ok (withBuf m u) := by
  simp [huffCommand, huffDecode_withBuf h, bind_bind]

end

/-- Every command commits one body, whatever the state, and that body is blind to the bits at and beyond
END. -/
theorem exec_beyondEndBlind (i : Instr) :
    ∃ body : State → Run State, (∀ s, Commits i s (body s)) ∧ BeyondEndBlind body := by
  cases i with
  | nop => exact ⟨.ok, fun _ => rfl, fun _ _ _ => rfl⟩
  | skip c =>
    refine ⟨_, fun _ => rfl, fun m s h => ?_⟩
    by_cases hend : s.bitEnd.toNat < s.pos.toNat + c <;> simp [hend]
  | readbytes c =>
    refine ⟨_, fun _ => rfl, fun m s h => ?_⟩
    by_cases hc : c ≤ s.build.obufBytes
    · by_cases hend : s.bitEnd.toNat < s.pos.toNat + 8 * c <;>
        simp [checkOperand, hc, hend, bytesFrom_withBuf h, bind_bind]
    · simp [checkOperand, hc]
  | read | peek | readbit | varlen | escf | escv =>
    exact ⟨_, fun _ => rfl, fun m s h => by
      simp [readBits_withBuf h, varBits_withBuf h, bind_bind, ite_bind]⟩
  | hmat | hvec | hidx =>
    exact ⟨_, fun _ => rfl, fun m s h => by simp [huffCommand_withBuf _ h, bind_bind]⟩
  | lutbands | lutchan | qfwd | qinv | qclr =>
    exact ⟨_, fun _ => rfl, fun m s h => by simp [bind_bind, ite_bind]⟩

/-- Settles O25: the body ends in `t` as in `s` but for BUF, and no command writes BUF. -/
theorem bitsBeyondEndAreIrrelevant : Obligations.BitsBeyondEndAreIrrelevant := by
  intro i s t h
  obtain ⟨ht, hbits⟩ := sameBits_of_sameStream h
  obtain ⟨body, hrun, hblind⟩ := exec_beyondEndBlind i
  rw [ht, hrun (withBuf t.buf s), hrun s, hblind t.buf s hbits]
  cases hb : body s with
  | ok u =>
    have hbuf : u.buf = s.buf := exec_buf ((hrun s).trans (by rw [hb, commitCommand_ok]))
    simp only [bind_ok, commitCommand_ok, withBufOf, ← hbuf]
    rfl
  | raise c info =>
    have hbuf : s.buf = (record c (encode i) info s).buf := (record_buf s c _ info).symm
    simp only [bind_raise, commitCommand_raise, withBufOf, record_withBuf]
    rw [hbuf]
    rfl
  | stop f => rfl

end Sys2Proof.Proofs
end

section
/-! Well-formed trees (R93): a walk follows a path that revisits no entry, so it never leaves the tree, never
meets the step limit, and reads at most depth(T) bits. -/

namespace Sys2Proof.Proofs

open Sys2Proof.Machine Sys2Proof.Claims

section
variable {t : Tree} {fuel node : Nat}

/-! ### The depth of a tree -/

/-- The depth seen with `fuel` entries to go is at most `fuel`. -/
theorem depthFrom_le (t : Tree) (fuel e : Nat) : depthFrom t fuel e ≤ fuel := by
  induction fuel generalizing e with
  | zero => exact le_refl 0
  | succ fuel ih =>
    rw [depthFrom, Nat.add_comm 1]
    refine Nat.succ_le_succ (List.max_le_of_forall_le _ _ fun d hd => ?_)
    obtain ⟨c, -, rfl⟩ := List.mem_map.mp hd
    split
    · exact Nat.zero_le fuel
    · exact ih _

/-- An entry is one deeper than each of its internal children. -/
theorem depthFrom_child {c : Int} (hc : c ∈ t.children node) (h0 : ¬c < 0) :
    1 + depthFrom t fuel c.toNat ≤ depthFrom t (fuel + 1) node := by
  rw [depthFrom]
  refine Nat.add_le_add_left (List.le_max_of_le (List.mem_map.mpr ⟨c, hc, rfl⟩) ?_) 1
  rw [if_neg h0]

/-! ### Paths of a walk -/

/-- A walk stands at entry `node` with `left` of the HT_LEN steps to go: it has seen the entries `seen`, all
different, and finds none of them again. -/
structure WalkPath (t : Tree) (seen : List Nat) (left node : Nat) : Prop where
  nodup : seen.Nodup
  inside : ∀ e ∈ node :: seen, e < t.len
  steps : seen.length + left = t.len
  fresh : t.noRevisit left seen node = true

theorem walkPath_root (h : t.wellFormed = true) : WalkPath t [] t.len 0 := by
  obtain ⟨-, hfresh⟩ := (Bool.and_eq_true _ _).mp h
  exact ⟨List.nodup_nil, by simp [Tree.len], Nat.zero_add _, hfresh⟩

variable {seen : List Nat} {left : Nat} {e : Entry} {b : Nat}

/-- The entry a walk stands at is not among those it has seen. -/
theorem WalkPath.not_mem (h : WalkPath t seen left node) : node ∉ seen := by
  have hfresh := h.fresh
  cases left with
  | zero => exact of_decide_eq_true hfresh
  | succ left => exact of_decide_eq_true ((Bool.and_eq_true _ _).mp hfresh).1

/-- A walk never meets the step limit: it would have seen more entries than there are. -/
theorem WalkPath.left_ne_zero (h : WalkPath t seen left node) : left ≠ 0 := by
  rintro rfl
  have hnodup : (node :: seen).Nodup := List.nodup_cons.mpr ⟨h.not_mem, h.nodup⟩
  have hsub : node :: seen ⊆ List.range t.len := fun e he => List.mem_range.mpr (h.inside e he)
  have hle := (List.subperm_of_subset hnodup hsub).length_le
  have hsteps := h.steps
  rw [List.length_cons, List.length_range] at hle
  omega

theorem entryChild_cases (e : Entry) (b : Nat) : entryChild e b = e.left ∨ entryChild e b = e.right := by
  rw [entryChild]
  split <;> simp

theorem children_of_entry (he : t.entries[node]? = some e) :
    t.children node = [e.left.toInt, e.right.toInt] := by
  rw [Tree.children, he]

theorem entryChild_mem (he : t.entries[node]? = some e) (b : Nat) :
    (entryChild e b).toInt ∈ t.children node := by
  rw [children_of_entry he]
  obtain hb | hb := entryChild_cases e b <;> simp [hb]

/-- A child that is no leaf is an entry of a well-formed tree. -/
theorem entryChild_lt (hr : t.childrenInRange = true) (he : t.entries[node]? = some e)
    (h0 : ¬(entryChild e b).toInt < 0) : (entryChild e b).toInt.toNat < t.len := by
  have hrange := List.all_eq_true.mp hr e (List.mem_of_getElem? he)
  simp only [Bool.and_eq_true, Bool.or_eq_true, decide_eq_true_eq] at hrange
  obtain hb | hb := entryChild_cases e b <;> rw [hb] at h0 ⊢ <;> omega

/-- A walk goes on along its path at a child that is no leaf. -/
theorem WalkPath.step (h : WalkPath t seen (left + 1) node) (hr : t.childrenInRange = true)
    (he : t.entries[node]? = some e) (h0 : ¬(entryChild e b).toInt < 0) :
    WalkPath t (node :: seen) left (entryChild e b).toInt.toNat where
  nodup := List.nodup_cons.mpr ⟨h.not_mem, h.nodup⟩
  inside := List.forall_mem_cons.mpr ⟨entryChild_lt hr he h0, h.inside⟩
  steps := by
    have hsteps := h.steps
    rw [List.length_cons]
    omega
  fresh := by
    obtain ⟨-, hall⟩ := (Bool.and_eq_true _ _).mp h.fresh
    simpa [h0] using List.all_eq_true.mp hall _ (entryChild_mem he b)

end

/-! ### The walk -/

/-- A decoding ends with the cursor at most `bound`, or raises BIT_UNDERRUN, or stops. -/
def endsWithin (bound : Nat) : Run (Nat × Nat) → Prop
  | .ok r => r.2 ≤ bound
  | .raise c _ => c = .bitUnderrun
  | .stop _ => True

/-- A walk along a path reads at most as many bits as the tree is deep from there. -/
theorem huffFrom_endsWithin (s : State) {t : Tree} {seen : List Nat} {left node p : Nat}
    (hr : t.childrenInRange = true) (h : WalkPath t seen left node) :
    endsWithin (p + depthFrom t left node) (huffFrom s t left node p) := by
  induction left generalizing seen node p with
  | zero => exact absurd rfl h.left_ne_zero
  | succ left ih =>
    have hnode : node < t.len := h.inside node List.mem_cons_self
    have hentry : t.entries[node]? = some t.entries[node] := List.getElem?_eq_getElem hnode
    rw [huffFrom, hentry]
    cases hbit : readBits s p 1 with
    | raise c info => exact (readBits_raise.mp hbit).2.1
    | stop f => trivial
    | ok b =>
      simp only [bind_ok, isLeaf, decide_eq_true_eq]
      split
      · simp only [endsWithin, depthFrom]
        omega
      · next h0 =>
        have hdepth := depthFrom_child (fuel := left) (entryChild_mem hentry b) h0
        have hrest := ih (p := p + 1) (h.step hr hentry h0)
        rw [toInt_toNat_of_internal h0] at hrest hdepth
        revert hrest
        generalize huffFrom s t left _ (p + 1) = r
        intro hrest
        cases r with
        | ok r => exact hrest.trans (by omega)
        | raise | stop => exact hrest

/-- `HuffDecode(T)` of a well-formed tree reads at most depth(T) bits (R93). -/
theorem huffDecode_endsWithin (s : State) {t : Tree} (h : t.wellFormed = true) (p : Nat) :
    endsWithin (p + treeDepth t) (huffDecode s t p) :=
  huffFrom_endsWithin s ((Bool.and_eq_true _ _).mp h).1 (walkPath_root h)

/-- A decoding command on a well-formed tree records BIT_UNDERRUN or moves the cursor by at most depth(T)
(R93). -/
theorem wellFormed_command_next {i : Instr} {s u : State} {t : Tree} (ht : treeOf s.build i = some t)
    (hwf : t.wellFormed = true) (h : exec i s = .next u) :
    (∃ info, u = record .bitUnderrun (encode i) info s) ∨
      (∃ v p, u = withResult s v p ∧ p ≤ cursor s + treeDepth t) := by
  have hrun : Commits i s ((huffDecode s t (cursor s)).bind fun r => .ok (withResult s r.1 r.2)) :=
    commits_huffCommand ht
  have hends := huffDecode_endsWithin s hwf (cursor s)
  rw [hrun] at h
  revert h hends
  generalize huffDecode s t (cursor s) = r
  intro h hends
  cases r with
  | ok r => exact .inr ⟨r.1, r.2, (Host.Outcome.next.inj h).symm, hends⟩
  | raise c info =>
    obtain rfl : c = .bitUnderrun := hends
    exact .inl ⟨info, (Host.Outcome.next.inj h).symm⟩
  | stop f => cases h

/-- A tree fault recorded on a clear state shows in FCODE, where neither BIT_UNDERRUN nor a symbol puts it. -/
theorem wellFormed_no_fault {i : Instr} {s : State} {t : Tree} {c : FaultCode}
    (ht : treeOf s.build i = some t) (hwf : t.wellFormed = true) (hf : s.fault = false)
    (hc : faultCodeBits c ≠ faultCodeBits .bitUnderrun) (info : Word) :
    exec i s ≠ .next (record c (encode i) info s) := by
  intro h
  obtain ⟨info', hu⟩ | ⟨v, p, hu, -⟩ := wellFormed_command_next ht hwf h
  · rw [record_of_clear s _ _ _ hf, record_of_clear s _ _ _ hf] at hu
    exact hc (congrArg State.fcode hu)
  · rw [record_of_clear s _ _ _ hf] at hu
    have hset : true = s.fault := congrArg State.fault hu
    simp [hf] at hset

/-- Settles O29: the walk on a well-formed tree, and the depth bounded by the entries it is searched with. -/
theorem wellFormedTreesDecode : Obligations.WellFormedTreesDecode := by
  intro i s t ht hwf
  refine ⟨depthFrom_le t t.len 0, fun u h => ?_,
    fun info hf => wellFormed_no_fault ht hwf hf (by decide) info,
    fun info hf => wellFormed_no_fault ht hwf hf (by decide) info⟩
  obtain ⟨info, rfl⟩ | ⟨v, p, rfl, hp⟩ := wellFormed_command_next ht hwf h
  · cases hf : s.fault with
    | true => exact .inr (.inl ⟨rfl, record_of_fault s _ _ _ hf⟩)
    | false =>
      have hfinfo : (record .bitUnderrun (encode i) info s).finfo = info := by
        rw [record_of_clear s _ _ info hf]
      exact .inl (by rw [hfinfo])
  · refine .inr (.inr (le_trans ?_ hp))
    simp only [cursor, withResult, BitVec.toNat_ofNat]
    exact Nat.mod_le _ _

end Sys2Proof.Proofs
end

section
/-! The filter-bank commands QFWD and QINV (R105, R106): the next state of each by what it computes, and the
elements of what it computes by the sums of the spec. -/

namespace Sys2Proof.Proofs

open Sys2Proof.Machine Sys2Proof.Claims

/-! ### Sums in order (R104) -/

/-- The sum of a list made from its index, term by term. -/
theorem floatSum_range (f : Nat → Word) (n : Nat) : floatSum ((List.range n).map f) = sumTo f n := by
  induction n with
  | zero => rfl
  | succ n ih => rw [floatSum_range_succ, ih, sumTo]

theorem sumTo_congr {f g : Nat → Word} {n : Nat} (h : ∀ k, k < n → f k = g k) :
    sumTo f n = sumTo g n := by
  induction n with
  | zero => rfl
  | succ n ih => rw [sumTo, sumTo, ih fun k hk => h k (by omega), h n (by omega)]

/-- A sum of pairs takes both terms of the last pair last. -/
theorem floatSum_pairs_succ (f g : Nat → Word) (n : Nat) :
    floatSum ((List.range (n + 1)).flatMap fun j => [f j, g j]) =
      fadd (fadd (floatSum ((List.range n).flatMap fun j => [f j, g j])) (f n)) (g n) := by
  simp [floatSum, List.range_succ]

section
variable {s : State} {x : Nat}

/-! ### The next states -/

theorem qfwd_illegal (hx : s.build.qmfInst ≤ x) :
    faults (.qfwd x) s .badOperand (fieldValue 0x04 x) := by
  have hrun : Commits (.qfwd x) s ((checkInstance s x).bind _) := rfl
  exact hrun.bind_raise (checkInstance_raise hx)

theorem qinv_illegal (hx : s.build.qmfInst ≤ x) :
    faults (.qinv x) s .badOperand (fieldValue 0x04 x) := by
  have hrun : Commits (.qinv x) s ((checkInstance s x).bind _) := rfl
  exact hrun.bind_raise (checkInstance_raise hx)

/-- The analysis window that QFWD x slides the samples of TS into (R105 step 1). -/
def forwardWindow (s : State) (x : Nat) : List Word :=
  slideWindow s.build (readPorts s .ts) (instanceAt s x).aw

/-- The synthesis history that QINV x slides its new block into (R106 steps 1 and 2). -/
def inverseHistory (s : State) (x : Nat) : List Word :=
  slideHistory s.build (readPorts s .xr) (readPorts s .xi) (instanceAt s x).sh

/-- The instance a state holds after one was put in the place of x. -/
theorem instanceAt_set_same {t : State} {q : Instance} (h : hasInstance s x)
    (ht : t.inst = s.inst.set x q) : instanceAt t x = q := by
  obtain ⟨hx, hlen⟩ := h
  rw [instanceAt_of_set ht (hlen ▸ hx), if_pos rfl]

/-- QFWD x writes the window of x, and to XR and XI its correlation with the two rotation tables. -/
theorem qfwd_next (hx : x < s.build.qmfInst) :
    ∃ t, exec (.qfwd x) s = .next t ∧ t = { s with inst := t.inst, xr := t.xr, xi := t.xi } ∧
      t.inst = s.inst.set x ⟨forwardWindow s x, (instanceAt s x).sh⟩ ∧
      ∀ k, k < 64 →
        readPort t .xr k = correlate s.build.rfRe (groupingAll s.build (forwardWindow s x)) k ∧
        readPort t .xi k = correlate s.build.rfIm (groupingAll s.build (forwardWindow s x)) k := by
  obtain ⟨t, aw, rfl, ht, hframe, hinst, hxr, hxi⟩ := execQfwd_next hx
  have band : ∀ (f : PortFile) (m : List (Nat × Word)) (rotation : List (List Word)) (k : Nat),
      portStore t f = storePutAll m 0 (forwardBands s.build rotation (forwardWindow s x)) → k < 64 →
      readPort t f k = correlate rotation (groupingAll s.build (forwardWindow s x)) k :=
    fun f m rotation k hf hk =>
      (readPort_of_put hf (by simpa using hk)).trans (elementAt_map_range _ 64 k hk)
  exact ⟨t, ht, hframe, hinst, fun k hk => ⟨band .xr s.xr _ k hxr hk, band .xi s.xi _ k hxi hk⟩⟩

/-- QINV x writes the history of x, and to TS the samples of that history. -/
theorem qinv_next (hx : x < s.build.qmfInst) :
    ∃ t, exec (.qinv x) s = .next t ∧ t = { s with inst := t.inst, ts := t.ts } ∧
      t.inst = s.inst.set x ⟨(instanceAt s x).aw, inverseHistory s x⟩ ∧
      ∀ m, m < 64 → readPort t .ts m = outputSample s.build (inverseHistory s x) m := by
  obtain ⟨t, sh, rfl, ht, hframe, hinst, hts⟩ := execQinv_next hx
  exact ⟨t, ht, hframe, hinst, fun m hm =>
    (readPort_of_put (f := .ts) hts (by simpa using hm)).trans (elementAt_map_range _ 64 m hm)⟩

/-! ### The sums of the spec -/

/-- The window QFWD computes with, element by element (R105 step 1). -/
theorem elementAt_forwardWindow {n : Nat} (hn : n < s.build.qmfL) :
    elementAt (forwardWindow s x) n = windowAfter s x n := by
  rw [forwardWindow, slideWindow, elementAt_slideIn _ _ _ _ hn, windowAfter, List.length_reverse,
    readPorts_length]
  split
  · next h => exact elementAt_reverse_readPorts s .ts n h
  · rfl

/-- The grouping of the window (R105 step 2): its indexes stay inside QMF_L. -/
theorem grouping_forwardWindow {n : Nat} (hn : n < 128) :
    grouping s.build (forwardWindow s x) n = groupingAfter s x n := by
  rw [grouping, floatSum_range]
  refine sumTo_congr fun j hj => ?_
  rw [elementAt_forwardWindow (by rw [Build.qmfL]; omega)]

/-- The correlation of the grouping (R105 step 3). -/
theorem correlate_forwardWindow (rotation : List (List Word)) (k : Nat) :
    correlate rotation (groupingAll s.build (forwardWindow s x)) k = bandAfter s x rotation k := by
  rw [correlate, floatSum_range]
  refine sumTo_congr fun n hn => ?_
  rw [groupingAll, elementAt_map_range _ 128 n hn, grouping_forwardWindow hn]

/-- The history QINV computes with, element by element (R106 steps 1 and 2). -/
theorem elementAt_inverseHistory {n : Nat} (hn : n < s.build.qmfH) :
    elementAt (inverseHistory s x) n = historyAfter s x n := by
  rw [inverseHistory, slideHistory, elementAt_slideIn _ _ _ _ hn, historyAfter, List.length_map,
    List.length_range]
  split
  · next h =>
    rw [elementAt_map_range _ 128 n h, historyEntry, floatSum_range]
    refine sumTo_congr fun k hk => ?_
    rw [elementAt_readPorts s .xr k hk, elementAt_readPorts s .xi k hk]
  · rfl

/-- The samples of the history (R106 step 3): their indexes stay inside QMF_H. -/
theorem outputSample_inverseHistory {m : Nat} (hm : m < 64) :
    outputSample s.build (inverseHistory s x) m = sampleAfter s x m s.build.qmfJ := by
  have upTo : ∀ j, j ≤ s.build.qmfJ →
      floatSum ((List.range j).flatMap fun j =>
        [fmul (elementAt (inverseHistory s x) (256 * j + m)) (elementAt s.build.proto (128 * j + m)),
          fmul (elementAt (inverseHistory s x) (256 * j + 192 + m))
            (elementAt s.build.proto (128 * j + 64 + m))]) = sampleAfter s x m j := by
    intro j
    induction j with
    | zero => exact fun _ => rfl
    | succ j ih =>
      intro hj
      have hlen : 256 * j + 192 + m < s.build.qmfH := by
        rw [Build.qmfH, Build.qmfL]
        omega
      rw [floatSum_pairs_succ, ih (by omega), sampleAfter, elementAt_inverseHistory (by omega),
        elementAt_inverseHistory hlen]
  exact upTo _ (le_refl _)

end

/-! ### The statements -/

/-- Settles O32: QFWD's next state, with the window and the bands it computes read element by element. -/
theorem qfwdRule : Obligations.QfwdRule := by
  refine ⟨fun x hx => spelled_of_wellFormed (decide_eq_true hx),
    fun x s => ⟨qfwd_illegal, fun h => ?_⟩⟩
  obtain ⟨t, ht, hframe, hinst, hports⟩ := qfwd_next h.1
  have hread := instanceAt_set_same h hinst
  refine ⟨t, ht, hframe, ?_, fun n hn => ?_, fun k hk => ?_⟩
  · rw [hread]
    exact hinst
  · rw [hread]
    exact elementAt_forwardWindow hn
  · simpa only [correlate_forwardWindow] using hports k hk

/-- Settles O33: QINV's next state, with the history and the samples it computes read element by element. -/
theorem qinvRule : Obligations.QinvRule := by
  refine ⟨fun x hx => spelled_of_wellFormed (decide_eq_true hx),
    fun x s => ⟨qinv_illegal, fun h => ?_⟩⟩
  obtain ⟨t, ht, hframe, hinst, hports⟩ := qinv_next h.1
  have hread := instanceAt_set_same h hinst
  refine ⟨t, ht, hframe, ?_, fun n hn => ?_, fun m hm => ?_⟩
  · rw [hread]
    exact hinst
  · rw [hread]
    exact elementAt_inverseHistory hn
  · rw [hports m hm, outputSample_inverseHistory hm]

/-- Settles O35: the window (history) a command computes and the outputs are functions of the instance's
array, the ports and the build. -/
theorem instancesAreIsolated : Obligations.InstancesAreIsolated := by
  intro x s s' h h' hbuild hports
  have hfile : ∀ f, readPorts s' f = readPorts s f := fun f => by simp [readPorts, hports]
  refine ⟨fun haw => ?_, fun hsh => ?_⟩
  · obtain ⟨t, ht, -, hinst, hout⟩ := qfwd_next h.1
    obtain ⟨t', ht', -, hinst', hout'⟩ := qfwd_next h'.1
    have hsame : forwardWindow s' x = forwardWindow s x := by
      rw [forwardWindow, hbuild, hfile, haw, forwardWindow]
    refine ⟨t, t', ht, ht', ?_, fun k hk => ?_⟩
    · rw [instanceAt_set_same h hinst, instanceAt_set_same h' hinst', hsame]
    · obtain ⟨hr, hi⟩ := hout k hk
      obtain ⟨hr', hi'⟩ := hout' k hk
      exact ⟨by rw [hr', hr, hsame, hbuild], by rw [hi', hi, hsame, hbuild]⟩
  · obtain ⟨t, ht, -, hinst, hout⟩ := qinv_next h.1
    obtain ⟨t', ht', -, hinst', hout'⟩ := qinv_next h'.1
    have hsame : inverseHistory s' x = inverseHistory s x := by
      rw [inverseHistory, hbuild, hfile, hfile, hsh, inverseHistory]
    refine ⟨t, t', ht, ht', ?_, fun k hk => ?_⟩
    · rw [instanceAt_set_same h hinst, instanceAt_set_same h' hinst', hsame]
    · rw [hout' k hk, hout k hk, hsame, hbuild]

end Sys2Proof.Proofs
end

section
/-! Filter-bank commands run one after the other: each, fed its own inputs, leaves an array and results that
are functions of the build, the inputs and the array it found (R108, R114), and slides as long as the array
leave nothing of what it held. -/

namespace Sys2Proof.Proofs

open Sys2Proof.Machine Sys2Proof.Claims

/-! ### One command on its own inputs -/

/-- The instance a filter-bank command leaves, by the inputs loaded for it and the instance it found. -/
def instanceAfter (b : Build) (i : Instr) (p q : List Word) (old : Instance) : Instance :=
  match i with
  | .qfwd _ => ⟨slideWindow b p old.aw, old.sh⟩
  | .qinv _ => ⟨old.aw, slideHistory b p q old.sh⟩
  | .qclr _ => Instance.fresh
  | .nop | .read _ | .peek _ | .readbit | .skip _ | .readbytes _ | .varlen _ | .escf _ _
  | .escv _ _ | .hmat _ | .hvec _ | .hidx _ | .lutbands _ | .lutchan _ => old

/-- The ports hold the results of a filter-bank command that has left the instance `new`. -/
def holdsResults (b : Build) (i : Instr) (new : Instance) (t : State) : Prop :=
  match i with
  | .qfwd _ => ∀ k, k < 64 →
      readPort t .xr k = correlate b.rfRe (groupingAll b new.aw) k ∧
      readPort t .xi k = correlate b.rfIm (groupingAll b new.aw) k
  | .qinv _ => ∀ m, m < 64 → readPort t .ts m = outputSample b new.sh m
  | .nop | .read _ | .peek _ | .readbit | .skip _ | .readbytes _ | .varlen _ | .escf _ _
  | .escv _ _ | .hmat _ | .hvec _ | .hidx _ | .lutbands _ | .lutchan _ | .qclr _ => True

section
variable {i : Instr} {x : Nat} {s t u : State} {p q : List Word}

/-- States that hold the results of one instance hold the same results. -/
theorem sameResults_of_holdsResults {b : Build} {new : Instance} (ht : holdsResults b i new t)
    (hu : holdsResults b i new u) : sameResults i t u := by
  cases i with
  | qfwd x =>
    intro k hk
    obtain ⟨htr, hti⟩ := ht k hk
    obtain ⟨hur, hui⟩ := hu k hk
    exact ⟨htr.trans hur.symm, hti.trans hui.symm⟩
  | qinv x => exact fun m hm => (ht m hm).trans (hu m hm).symm
  | nop | read | peek | readbit | skip | readbytes | varlen | escf | escv | hmat | hvec | hidx
  | lutbands | lutchan | qclr => trivial

/-- A port file written with 64 values reads as those values (R26). -/
theorem readPorts_writePorts_same {f : PortFile} (hp : p.length = 64) :
    readPorts (writePorts s f p) f = p := by
  refine List.ext_getElem (by simp [hp]) fun k hk hk' => ?_
  simp [readPorts, readPort_writePorts, hk', elementAt]

/-- A port file reads as before a write of another one (R26). -/
theorem readPorts_writePorts_other {f g : PortFile} (hg : g ≠ f) :
    readPorts (writePorts s f p) g = readPorts s g := by
  simp [readPorts, readPort_writePorts, hg]

theorem writePorts_hasInstance (f : PortFile) (h : hasInstance s x) :
    hasInstance (writePorts s f p) x := by
  simpa [hasInstance] using h

/-- A filter-bank command fed its own inputs: the instance it leaves, its results, and the build. -/
theorem exec_loaded_next (hi : filterInstance i = some x) (h : hasInstance s x) (hp : p.length = 64)
    (hq : q.length = 64) :
    ∃ t, exec i (loadInputs i p q s) = .next t ∧ t.build = s.build ∧
      t.inst = s.inst.set x (instanceAfter s.build i p q (instanceAt s x)) ∧
      holdsResults s.build i (instanceAfter s.build i p q (instanceAt s x)) t := by
  cases i with
  | qfwd y =>
    obtain rfl := Option.some.inj hi
    obtain ⟨t, ht, hframe, hinst, hout⟩ := qfwd_next (writePorts_hasInstance (p := p) .ts h).1
    simp only [forwardWindow, instanceAt_writePorts, writePorts_build, writePorts_inst,
      readPorts_writePorts_same hp] at hinst hout
    exact ⟨t, ht, by rw [hframe]; exact writePorts_build s .ts p, hinst, hout⟩
  | qinv y =>
    obtain rfl := Option.some.inj hi
    obtain ⟨t, ht, hframe, hinst, hout⟩ :=
      qinv_next (writePorts_hasInstance (p := q) .xi (writePorts_hasInstance (p := p) .xr h)).1
    simp only [inverseHistory, instanceAt_writePorts, writePorts_build, writePorts_inst,
      readPorts_writePorts_same hq, readPorts_writePorts_other (show PortFile.xr ≠ .xi by decide),
      readPorts_writePorts_same hp] at hinst hout
    refine ⟨t, ht, ?_, hinst, hout⟩
    rw [hframe]
    exact (writePorts_build _ .xi q).trans (writePorts_build s .xr p)
  | qclr y =>
    obtain rfl := Option.some.inj hi
    exact ⟨_, execQclr_next h.1, rfl, rfl, trivial⟩
  | nop | read | peek | readbit | skip | readbytes | varlen | escf | escv | hmat | hvec | hidx
  | lutbands | lutchan => cases hi

/-- A state with as many instances and the same build has the same instances. -/
theorem hasInstance_of_set {y : Nat} {new : Instance} (h : hasInstance s x) (hb : t.build = s.build)
    (ht : t.inst = s.inst.set y new) : hasInstance t x := by
  simpa [hasInstance, hb, ht] using h

/-- The other instances stay where one was replaced. -/
theorem instanceAt_set_other {y : Nat} {new : Instance} (h : hasInstance s x) (hy : y ≠ x)
    (ht : t.inst = s.inst.set x new) : instanceAt t y = instanceAt s y := by
  obtain ⟨hx, hlen⟩ := h
  rw [instanceAt_of_set ht (hlen ▸ hx), if_neg hy]

/-- Settles O38: each command finds its own instance as it was in `s`, whichever comes first. -/
theorem instancesCommute : Obligations.InstancesCommute := by
  intro i j x y s p q p' q' hi hj hxy hx hy hp hq hp' hq'
  obtain ⟨t1, ht1, hb1, hinst1, hres1⟩ := exec_loaded_next hi hx hp hq
  obtain ⟨u1, hu1, hbu, hinstu, hresu⟩ := exec_loaded_next hj hy hp' hq'
  obtain ⟨t2, ht2, -, hinst2, hres2⟩ :=
    exec_loaded_next hj (hasInstance_of_set hy hb1 hinst1) hp' hq'
  obtain ⟨u2, hu2, -, hinstu2, hresu2⟩ :=
    exec_loaded_next hi (hasInstance_of_set hx hbu hinstu) hp hq
  rw [hb1, instanceAt_set_other hx hxy.symm hinst1] at hinst2 hres2
  rw [hbu, instanceAt_set_other hy hxy hinstu] at hinstu2 hresu2
  refine ⟨t1, t2, u1, u2, ht1, ht2, hu1, hu2, ?_, sameResults_of_holdsResults hres1 hresu2,
    sameResults_of_holdsResults hres2 hresu⟩
  rw [hinst2, hinstu2, hinst1, hinstu, List.set_comm _ _ hxy]

end

/-! ### A sequence of commands -/

/-- A sequence of one filter-bank command, each fed its own inputs. -/
def feed (i : Instr) : List (List Word × List Word) → State → Option State
  | [], s => some s
  | slot :: rest, s =>
    match exec i (loadInputs i slot.1 slot.2 s) with
    | .next t => feed i rest t
    | .fault _ => none
    | .refused _ => none

theorem feedForward_eq_feed (x : Nat) (blocks : List (List Word)) (s : State) :
    feedForward x blocks s = feed (.qfwd x) (blocks.map fun p => (p, p)) s := by
  induction blocks generalizing s with
  | nil => rfl
  | cons block rest ih =>
    cases h : exec (.qfwd x) (writePorts s .ts block) with
    | next | fault | refused => simp only [feedForward, List.map_cons, feed, loadInputs, h, ih]

theorem feedInverse_eq_feed (x : Nat) (slots : List (List Word × List Word)) (s : State) :
    feedInverse x slots s = feed (.qinv x) slots s := by
  induction slots generalizing s with
  | nil => rfl
  | cons slot rest ih =>
    cases h : exec (.qinv x) (writePorts (writePorts s .xr slot.1) .xi slot.2) with
    | next | fault | refused => simp only [feedInverse, feed, loadInputs, h, ih]

/-- The instance left by a sequence of one filter-bank command. -/
def instanceAfterAll (b : Build) (i : Instr) (slots : List (List Word × List Word)) (old : Instance) :
    Instance :=
  slots.foldl (fun q slot => instanceAfter b i slot.1 slot.2 q) old

/-- A sequence of one filter-bank command leaves its instance after all the inputs, and the results that go
with it. -/
theorem feed_next {i : Instr} {x : Nat} {slots : List (List Word × List Word)} {s : State}
    (hi : filterInstance i = some x) (h : hasInstance s x)
    (hlen : ∀ p ∈ slots, p.1.length = 64 ∧ p.2.length = 64) :
    ∃ t, feed i slots s = some t ∧
      instanceAt t x = instanceAfterAll s.build i slots (instanceAt s x) ∧
      (slots ≠ [] ∨ holdsResults s.build i (instanceAt s x) s →
        holdsResults s.build i (instanceAt t x) t) := by
  induction slots generalizing s with
  | nil => exact ⟨s, rfl, rfl, fun hr => hr.resolve_left (by simp)⟩
  | cons slot rest ih =>
    obtain ⟨hp, hq⟩ := hlen slot List.mem_cons_self
    obtain ⟨u, hu, hb, hinst, hres⟩ := exec_loaded_next hi h hp hq
    have hread := instanceAt_set_same h hinst
    obtain ⟨t, ht, hlast, hresults⟩ :=
      ih (hasInstance_of_set h hb hinst) fun p hp => hlen p (List.mem_cons_of_mem _ hp)
    rw [hb, hread] at hlast hresults
    refine ⟨t, ?_, hlast, fun _ => hresults (.inr hres)⟩
    rw [feed, hu]
    exact ht

/-! ### Slides (R105 step 1, R106 step 1) -/

/-- An array after a sequence of slides. -/
def slides (len : Nat) (news : List (List Word)) (a : List Word) : List Word :=
  news.foldl (fun a new => slideIn len new a) a

section
variable {len width : Nat} {news : List (List Word)}

/-- Arrays that agree on their first `m` elements agree on `width` more after every slide. -/
theorem slides_agree (hw : ∀ new ∈ news, new.length = width) {m : Nat} {a a' : List Word}
    (h : ∀ n, n < m → n < len → elementAt a' n = elementAt a n) :
    ∀ n, n < m + width * news.length → n < len →
      elementAt (slides len news a') n = elementAt (slides len news a) n := by
  induction news generalizing m a a' with
  | nil => simpa [slides] using h
  | cons new rest ih =>
    have hnew : new.length = width := hw new List.mem_cons_self
    have hstep : ∀ n, n < m + width → n < len →
        elementAt (slideIn len new a') n = elementAt (slideIn len new a) n := by
      intro n hn hl
      rw [elementAt_slideIn _ _ _ _ hl, elementAt_slideIn _ _ _ _ hl]
      split
      · rfl
      · exact h _ (by omega) (by omega)
    intro n hn hl
    rw [List.length_cons, Nat.mul_succ] at hn
    exact ih (fun p hp => hw p (List.mem_cons_of_mem _ hp)) hstep n (by omega) hl

/-- Past the end of the array a slide leaves +0.0, and so does a sequence of them. -/
theorem slides_past (hne : news ≠ []) (a : List Word) {n : Nat} (hn : len ≤ n) :
    elementAt (slides len news a) n = 0 := by
  induction news using List.reverseRecOn with
  | nil => exact absurd rfl hne
  | append_singleton init new =>
    rw [slides, List.foldl_append]
    exact elementAt_slideIn_past len new _ n hn

/-- Slides that fill the array leave nothing of what it held. -/
theorem slides_forget (hw : ∀ new ∈ news, new.length = width) (hne : news ≠ [])
    (hfill : len ≤ width * news.length) (a a' : List Word) (n : Nat) :
    elementAt (slides len news a') n = elementAt (slides len news a) n := by
  obtain hn | hn := Nat.lt_or_ge n len
  · exact slides_agree (m := 0) hw (fun n hn => absurd hn (Nat.not_lt_zero n)) n (by omega) hn
  · rw [slides_past hne a' hn, slides_past hne a hn]

end

/-- The window after a sequence of QFWD is slid once for each block. -/
theorem instanceAfterAll_qfwd (b : Build) (x : Nat) (slots : List (List Word × List Word))
    (old : Instance) :
    (instanceAfterAll b (.qfwd x) slots old).aw =
      slides b.qmfL (slots.map fun p => p.1.reverse) old.aw := by
  rw [slides, List.foldl_map]
  exact (List.foldl_hom Instance.aw fun _ _ => rfl).symm

/-- The history after a sequence of QINV is slid once for each slot. -/
theorem instanceAfterAll_qinv (b : Build) (x : Nat) (slots : List (List Word × List Word))
    (old : Instance) :
    (instanceAfterAll b (.qinv x) slots old).sh =
      slides b.qmfH (slots.map fun p => (List.range 128).map (historyEntry b p.1 p.2)) old.sh := by
  rw [slides, List.foldl_map]
  exact (List.foldl_hom Instance.sh fun _ _ => rfl).symm

/-! ### What the outputs depend on -/

theorem groupingAll_congr {b : Build} {a a' : List Word} (h : ∀ n, elementAt a' n = elementAt a n) :
    groupingAll b a' = groupingAll b a := by
  simp [groupingAll, grouping, h]

theorem outputSample_congr {b : Build} {a a' : List Word} (h : ∀ n, elementAt a' n = elementAt a n)
    (m : Nat) : outputSample b a' m = outputSample b a m := by
  simp [outputSample, h]

section
variable {x : Nat} {s s' : State} (hj : 1 ≤ s.build.qmfJ) (hbuild : s'.build = s.build)
  (h : hasInstance s x) (h' : hasInstance s' x)
include hj hbuild h h'

/-- QMF_L / 64 blocks fill the window, so the runs end with the same window and the same bands. -/
theorem feedForward_forgets {blocks : List (List Word)} (hlen : ∀ p ∈ blocks, p.length = 64)
    (hcount : blocks.length = 2 * s.build.qmfJ) :
    ∃ t t', feedForward x blocks s = some t ∧ feedForward x blocks s' = some t' ∧
      (∀ n, elementAt (instanceAt t' x).aw n = elementAt (instanceAt t x).aw n) ∧
      ∀ k, k < 64 → readPort t' .xr k = readPort t .xr k ∧ readPort t' .xi k = readPort t .xi k := by
  have hslots : ∀ p ∈ blocks.map fun p => (p, p), p.1.length = 64 ∧ p.2.length = 64 :=
    List.forall_mem_map.mpr fun p hp => ⟨hlen p hp, hlen p hp⟩
  have hne : (blocks.map fun p => (p, p)) ≠ [] :=
    List.ne_nil_of_length_pos (by rw [List.length_map]; omega)
  obtain ⟨t, ht, haw, hout⟩ := feed_next (i := .qfwd x) rfl h hslots
  obtain ⟨t', ht', haw', hout'⟩ := feed_next (i := .qfwd x) rfl h' hslots
  have hsame : ∀ n, elementAt (instanceAt t' x).aw n = elementAt (instanceAt t x).aw n := by
    intro n
    have hwidth : ∀ new ∈ (blocks.map fun p => (p, p)).map fun p => p.1.reverse, new.length = 64 :=
      List.forall_mem_map.mpr fun p hp => List.length_reverse.trans (hslots p hp).1
    rw [haw, haw', hbuild, instanceAfterAll_qfwd, instanceAfterAll_qfwd]
    refine slides_forget hwidth (by simpa using hne) ?_ _ _ n
    simp only [List.length_map, hcount, Build.qmfL]
    omega
  refine ⟨t, t', (feedForward_eq_feed x blocks s).trans ht,
    (feedForward_eq_feed x blocks s').trans ht', hsame, fun k hk => ?_⟩
  obtain ⟨hr, hi⟩ := hout (.inl hne) k hk
  obtain ⟨hr', hi'⟩ := hout' (.inl hne) k hk
  rw [hr, hr', hi, hi', hbuild, groupingAll_congr hsame]
  exact ⟨rfl, rfl⟩

/-- QMF_L / 64 slots fill the history, so the runs end with the same history and the same samples. -/
theorem feedInverse_forgets {slots : List (List Word × List Word)}
    (hlen : ∀ p ∈ slots, p.1.length = 64 ∧ p.2.length = 64)
    (hcount : slots.length = 2 * s.build.qmfJ) :
    ∃ t t', feedInverse x slots s = some t ∧ feedInverse x slots s' = some t' ∧
      (∀ n, elementAt (instanceAt t' x).sh n = elementAt (instanceAt t x).sh n) ∧
      ∀ m, m < 64 → readPort t' .ts m = readPort t .ts m := by
  have hne : slots ≠ [] := List.ne_nil_of_length_pos (by omega)
  obtain ⟨t, ht, hsh, hout⟩ := feed_next (i := .qinv x) rfl h hlen
  obtain ⟨t', ht', hsh', hout'⟩ := feed_next (i := .qinv x) rfl h' hlen
  have hsame : ∀ n, elementAt (instanceAt t' x).sh n = elementAt (instanceAt t x).sh n := by
    intro n
    have hwidth : ∀ new ∈ slots.map fun p => (List.range 128).map (historyEntry s.build p.1 p.2),
        new.length = 128 := List.forall_mem_map.mpr fun p _ => by simp
    rw [hsh, hsh', hbuild, instanceAfterAll_qinv, instanceAfterAll_qinv]
    refine slides_forget hwidth (by simpa using hne) ?_ _ _ n
    simp only [List.length_map, hcount, Build.qmfH, Build.qmfL]
    omega
  refine ⟨t, t', (feedInverse_eq_feed x slots s).trans ht,
    (feedInverse_eq_feed x slots s').trans ht', hsame, fun m hm => ?_⟩
  rw [hout (.inl hne) m hm, hout' (.inl hne) m hm, hbuild, outputSample_congr hsame]

end

/-- Settles O37: both runs slide the same blocks into windows (histories) they then know in full, and the
outputs are functions of those. -/
theorem instanceMemoryIsFinite : Obligations.InstanceMemoryIsFinite := by
  intro x s s' hlegal hbuild h h'
  obtain ⟨-, ⟨hj, -⟩, -⟩ := hlegal
  exact ⟨fun _ => feedForward_forgets hj hbuild h h', fun _ => feedInverse_forgets hj hbuild h h'⟩

end Sys2Proof.Proofs
end

section
/-! The binary32 patterns and rounding (R9, R104): a finite number is a significand of at most 24 bits shifted
left, its pattern adds the two, and `roundFloat` picks the nearest such number. -/

namespace Sys2Proof.Proofs

open Sys2Proof.Machine Sys2Proof.Claims

/-! ### Patterns -/

/-- A finite pattern is one whose exponent field is below 255. -/
theorem finiteWord_iff {w : Word} : finiteWord w = true ↔ floatExp w < 255 := by
  simp only [finiteWord, floatExp, bne_iff_ne]
  omega

section
variable {neg : Bool} {m : Nat}

theorem floatSigned_toNat (hm : m < 2 ^ 31) :
    (floatSigned neg m).toNat = (if neg then 2 ^ 31 else 0) + m := by
  rw [floatSigned, BitVec.toNat_ofNat]
  split <;> omega

theorem floatNeg_floatSigned (hm : m < 2 ^ 31) : floatNeg (floatSigned neg m) = neg := by
  simp only [floatNeg, BitVec.getLsbD, floatSigned_toNat hm, Nat.testBit_eq_decide_div_mod_eq]
  cases neg with
  | false => exact decide_eq_false (by rw [if_neg Bool.false_ne_true]; omega)
  | true => exact decide_eq_true (by rw [if_pos rfl]; omega)

theorem floatExp_floatSigned (hm : m < 2 ^ 31) : floatExp (floatSigned neg m) = m / 2 ^ 23 := by
  rw [floatExp, floatSigned_toNat hm]
  split <;> omega

theorem floatFrac_floatSigned (hm : m < 2 ^ 31) : floatFrac (floatSigned neg m) = m % 2 ^ 23 := by
  rw [floatFrac, floatSigned_toNat hm]
  split <;> omega

theorem lowBit_floatSigned (hm : m < 2 ^ 31) : (floatSigned neg m).getLsbD 0 = decide (m % 2 = 1) := by
  simp only [BitVec.getLsbD, floatSigned_toNat hm, Nat.testBit_eq_decide_div_mod_eq]
  exact decide_eq_decide.mpr (by split <;> omega)

end

/-- A word is its sign bit and its other 31 bits. -/
theorem floatSigned_self (w : Word) :
    floatSigned (floatNeg w) (floatExp w * 2 ^ 23 + floatFrac w) = w := by
  have hw := w.isLt
  have hm : floatExp w * 2 ^ 23 + floatFrac w < 2 ^ 31 := by
    simp only [floatExp, floatFrac]
    omega
  apply BitVec.eq_of_toNat_eq
  rw [floatSigned_toNat hm, floatNeg, BitVec.getLsbD, Nat.testBit_eq_decide_div_mod_eq]
  simp only [floatExp, floatFrac, decide_eq_true_eq]
  split <;> omega

/-- The magnitude of the pattern made of a shift and a significand of at most 24 bits, or of 2^24 itself. -/
theorem floatMag_floatSigned {neg : Bool} {k q : Nat} (hq : q ≤ 2 ^ 24) (hk : k = 0 ∨ 2 ^ 23 ≤ q)
    (hm : k * 2 ^ 23 + q < 2 ^ 31) : floatMag (floatSigned neg (k * 2 ^ 23 + q)) = q * 2 ^ k := by
  rw [floatMag, floatExp_floatSigned hm, floatFrac_floatSigned hm]
  obtain hsub | hnorm | htop : q < 2 ^ 23 ∨ (2 ^ 23 ≤ q ∧ q < 2 ^ 24) ∨ q = 2 ^ 24 := by omega
  · obtain rfl : k = 0 := by omega
    rw [if_pos (by omega)]
    omega
  · have hexp : (k * 2 ^ 23 + q) / 2 ^ 23 = k + 1 := by omega
    rw [if_neg (by omega), hexp, Nat.add_sub_cancel]
    congr 1
    omega
  · have hexp : (k * 2 ^ 23 + q) / 2 ^ 23 = k + 1 + 1 := by omega
    have hfrac : (k * 2 ^ 23 + q) % 2 ^ 23 = 0 := by omega
    rw [if_neg (by omega), hexp, hfrac, Nat.add_sub_cancel, htop, pow_succ]
    ring

/-- A finite number is a significand below 2^24 shifted by at most 253, and below 2^23 only unshifted. -/
theorem exists_significand {w : Word} (h : finiteWord w = true) :
    ∃ k a, floatMag w = a * 2 ^ k ∧ a < 2 ^ 24 ∧ (k = 0 ∨ 2 ^ 23 ≤ a) ∧ k ≤ 253 ∧
      w = floatSigned (floatNeg w) (k * 2 ^ 23 + a) := by
  have hexp := finiteWord_iff.mp h
  have hfrac : floatFrac w < 2 ^ 23 := Nat.mod_lt _ (by decide)
  have hself := (floatSigned_self w).symm
  by_cases h0 : floatExp w = 0
  · refine ⟨0, floatFrac w, by simp [floatMag, h0], by omega, .inl rfl, by omega, ?_⟩
    rwa [h0] at hself
  · refine ⟨floatExp w - 1, 2 ^ 23 + floatFrac w, by rw [floatMag, if_neg h0], by omega, .inr (by omega),
      by omega, ?_⟩
    convert hself using 2
    omega

/-! ### Rounding to an integer -/

/-- `roundShift` is within half a unit of the quotient, and even where it is exactly half a unit off. -/
theorem roundShift_spec (mag shift : Nat) :
    2 * mag ≤ 2 * (roundShift mag shift * 2 ^ shift) + 2 ^ shift ∧
      2 * (roundShift mag shift * 2 ^ shift) ≤ 2 * mag + 2 ^ shift ∧
      (2 * mag = 2 * (roundShift mag shift * 2 ^ shift) + 2 ^ shift ∨
        2 * (roundShift mag shift * 2 ^ shift) = 2 * mag + 2 ^ shift →
        roundShift mag shift % 2 = 0) := by
  have hdiv := Nat.div_add_mod' mag (2 ^ shift)
  have hmod := Nat.mod_lt mag (show 0 < 2 ^ shift by positivity)
  simp only [roundShift]
  generalize 2 ^ shift = d at *
  generalize mag / d = q at *
  split
  · have hsucc : (q + 1) * d = q * d + d := Nat.succ_mul q d
    omega
  · omega

/-- No multiple of 2^shift is nearer than the rounded one; and where another one is as near, the rounded
one is even. -/
theorem roundShift_nearest (mag shift n : Nat) :
    Nat.dist (roundShift mag shift * 2 ^ shift) mag ≤ Nat.dist (n * 2 ^ shift) mag ∧
      (n ≠ roundShift mag shift →
        Nat.dist (n * 2 ^ shift) mag = Nat.dist (roundShift mag shift * 2 ^ shift) mag →
        roundShift mag shift % 2 = 0) := by
  obtain ⟨hlo, hhi, htie⟩ := roundShift_spec mag shift
  generalize roundShift mag shift = q at *
  generalize 2 ^ shift = d at *
  unfold Nat.dist
  obtain hlt | rfl | hgt := Nat.lt_trichotomy n q
  · have hstep : n * d + d ≤ q * d := by
      rw [← Nat.succ_mul]
      exact Nat.mul_le_mul_right d hlt
    omega
  · exact ⟨le_refl _, fun h => absurd rfl h⟩
  · have hstep : q * d + d ≤ n * d := by
      rw [← Nat.succ_mul]
      exact Nat.mul_le_mul_right d hgt
    omega

end Sys2Proof.Proofs
end

section
/-! `roundFloat` rounds to nearest even (R9, R104): the exact magnitude `mag` stands in units of
2^-(149 + e), so a finite number of magnitude M, in units of 2^-149, stands at `M * 2^e` beside it. -/

namespace Sys2Proof.Proofs

open Sys2Proof.Machine Sys2Proof.Claims

/-- The bits that rounding drops below the last bit of a subnormal number. -/
def droppedBits (mag e : Nat) : Nat := roundingShift mag (149 + e) - e

/-- The significand that rounding keeps. -/
def keptSignificand (mag e : Nat) : Nat := roundShift mag (roundingShift mag (149 + e))

section
variable {mag e : Nat}

/-! ### What rounding keeps -/

theorem roundingShift_eq (mag e : Nat) : roundingShift mag (149 + e) = droppedBits mag e + e := by
  simp only [droppedBits, roundingShift]
  omega

/-- The rounded pattern by the bits dropped and the significand kept. -/
theorem roundFloat_eq (neg : Bool) (mag e : Nat) :
    roundFloat neg mag (149 + e) =
      floatSigned neg (min (droppedBits mag e * 2 ^ 23 + keptSignificand mag e) (255 * 2 ^ 23)) := by
  simp only [roundFloat, droppedBits, keptSignificand, Nat.add_sub_cancel_left]

/-- At most 24 bits of the magnitude are kept. -/
theorem mag_lt_pow (mag e : Nat) : mag < 2 ^ 24 * 2 ^ (droppedBits mag e + e) := by
  rw [← pow_add]
  refine Nat.lt_log2_self.trans_le (Nat.pow_le_pow_right (by decide) ?_)
  simp only [droppedBits, roundingShift]
  omega

/-- Where bits above the last one of a subnormal number are dropped, 24 bits are kept. -/
theorem pow_le_mag (h : droppedBits mag e ≠ 0) : 2 ^ 23 * 2 ^ (droppedBits mag e + e) ≤ mag := by
  simp only [droppedBits, roundingShift] at h ⊢
  have hne : mag ≠ 0 := by
    rintro rfl
    rw [Nat.log2_zero] at h
    omega
  rw [← pow_add]
  refine (Nat.pow_le_pow_right (by decide) ?_).trans (Nat.log2_self_le hne)
  omega

theorem keptSignificand_eq (mag e : Nat) :
    keptSignificand mag e = roundShift mag (droppedBits mag e + e) := by
  rw [keptSignificand, roundingShift_eq]

theorem keptSignificand_le (mag e : Nat) : keptSignificand mag e ≤ 2 ^ 24 := by
  have hlt := mag_lt_pow mag e
  rw [keptSignificand_eq]
  obtain ⟨-, hhi, -⟩ := roundShift_spec mag (droppedBits mag e + e)
  generalize roundShift mag _ = q at *
  by_contra hq
  have hstep := Nat.mul_le_mul_right (2 ^ (droppedBits mag e + e)) (Nat.lt_of_not_le hq)
  rw [Nat.succ_mul] at hstep
  have hpos : 0 < 2 ^ (droppedBits mag e + e) := by positivity
  omega

theorem keptSignificand_ge (h : droppedBits mag e ≠ 0) : 2 ^ 23 ≤ keptSignificand mag e := by
  have hge := pow_le_mag h
  rw [keptSignificand_eq]
  obtain ⟨hlo, -, -⟩ := roundShift_spec mag (droppedBits mag e + e)
  generalize roundShift mag _ = q at *
  by_contra hq
  have hstep := Nat.mul_le_mul_right (2 ^ (droppedBits mag e + e)) (Nat.lt_of_not_le hq)
  have hpos : 0 < 2 ^ (droppedBits mag e + e) := by positivity
  rw [Nat.succ_mul] at hstep
  omega

/-- The bits dropped and the significand kept make a pattern's magnitude. -/
theorem significand_normal (mag e : Nat) : droppedBits mag e = 0 ∨ 2 ^ 23 ≤ keptSignificand mag e := by
  by_cases h : droppedBits mag e = 0
  · exact .inl h
  · exact .inr (keptSignificand_ge h)

/-! ### Overflow -/

/-- The exact magnitudes from half a unit above the largest finite number on round to an infinity: with 253
bits dropped the half unit decides, and with fewer or more the magnitude lies below or above it anyway. -/
theorem overflows_iff (mag e : Nat) :
    255 * 2 ^ 23 ≤ droppedBits mag e * 2 ^ 23 + keptSignificand mag e ↔
      (2 ^ 25 - 1) * 2 ^ 252 * 2 ^ e ≤ mag := by
  have hlt := mag_lt_pow mag e
  have hle := keptSignificand_le mag e
  have hunit : 0 < 2 ^ 252 * 2 ^ e := by positivity
  rw [Nat.mul_assoc]
  obtain hk | hk | hk : droppedBits mag e ≤ 252 ∨ droppedBits mag e = 253 ∨ 254 ≤ droppedBits mag e := by
    omega
  · have hpow : 2 ^ (droppedBits mag e + e) ≤ 2 ^ 252 * 2 ^ e := by
      rw [← pow_add]
      exact Nat.pow_le_pow_right (by decide) (by omega)
    generalize 2 ^ 252 * 2 ^ e = unit at *
    omega
  · obtain ⟨hlo, hhi, htie⟩ := roundShift_spec mag (droppedBits mag e + e)
    have hpow : 2 ^ (253 + e) = 2 * (2 ^ 252 * 2 ^ e) := by rw [← pow_add, ← pow_succ']; congr 1; omega
    rw [← keptSignificand_eq, hk, hpow] at hlo hhi htie
    rw [hk]
    generalize keptSignificand mag e = q at *
    generalize 2 ^ 252 * 2 ^ e = unit at *
    obtain rfl | rfl | hq : q = 2 ^ 24 ∨ q = 2 ^ 24 - 1 ∨ q + 2 ≤ 2 ^ 24 := by omega
    · omega
    · omega
    · have hstep := Nat.mul_le_mul_right (2 * unit) hq
      rw [Nat.add_mul] at hstep
      omega
  · have hge := pow_le_mag (mag := mag) (e := e) (by omega)
    have hnorm := keptSignificand_ge (mag := mag) (e := e) (by omega)
    have hpow : 4 * (2 ^ 252 * 2 ^ e) ≤ 2 ^ (droppedBits mag e + e) := by
      rw [← pow_add, show (4 : Nat) = 2 ^ 2 from rfl, ← pow_add]
      exact Nat.pow_le_pow_right (by decide) (by omega)
    generalize 2 ^ 252 * 2 ^ e = unit at *
    omega

/-! ### The nearest number -/

/-- Beside the exact magnitude a finite number is a multiple of the last place kept, or it lies below every
number with that many bits dropped. -/
theorem floatMag_multiple_or_small {w : Word} (hw : finiteWord w = true) (mag e : Nat) :
    (∃ n, floatMag w * 2 ^ e = n * 2 ^ (droppedBits mag e + e)) ∨
      (droppedBits mag e ≠ 0 ∧ floatMag w * 2 ^ e < 2 ^ 23 * 2 ^ (droppedBits mag e + e)) := by
  obtain ⟨k, a, hM, ha, -⟩ := exists_significand hw
  rw [hM]
  obtain hk | hk := Nat.lt_or_ge k (droppedBits mag e)
  · refine .inr ⟨by omega, ?_⟩
    calc a * 2 ^ k * 2 ^ e < 2 ^ 24 * 2 ^ k * 2 ^ e := by gcongr
      _ = 2 ^ 23 * 2 ^ (k + 1 + e) := by ring
      _ ≤ 2 ^ 23 * 2 ^ (droppedBits mag e + e) := by gcongr <;> omega
  · obtain ⟨d, rfl⟩ := Nat.exists_eq_add_of_le hk
    exact .inl ⟨a * 2 ^ d, by ring⟩

/-- No finite number is nearer to the exact magnitude than the significand kept; and where another one is as
near, that significand is even. -/
theorem keptSignificand_nearest {w : Word} (hw : finiteWord w = true) (mag e : Nat) :
    Nat.dist (keptSignificand mag e * 2 ^ (droppedBits mag e + e)) mag ≤
        Nat.dist (floatMag w * 2 ^ e) mag ∧
      (floatMag w * 2 ^ e ≠ keptSignificand mag e * 2 ^ (droppedBits mag e + e) →
        Nat.dist (floatMag w * 2 ^ e) mag =
          Nat.dist (keptSignificand mag e * 2 ^ (droppedBits mag e + e)) mag →
        keptSignificand mag e % 2 = 0) := by
  rw [keptSignificand_eq]
  obtain ⟨n, hn⟩ | ⟨hk, hsmall⟩ := floatMag_multiple_or_small hw mag e
  · obtain ⟨hnear, heven⟩ := roundShift_nearest mag (droppedBits mag e + e) n
    rw [hn]
    exact ⟨hnear, fun hne => heven fun h => hne (by rw [h])⟩
  · obtain ⟨hnear, -⟩ := roundShift_nearest mag (droppedBits mag e + e) (2 ^ 23)
    have hge := pow_le_mag hk
    unfold Nat.dist at hnear ⊢
    omega

end

/-! ### The rounded number beside the exact one -/

/-- The value of a number is its magnitude with its sign. -/
theorem natAbs_floatInt (w : Word) : (floatInt w).natAbs = floatMag w := by
  rw [floatInt]
  split <;> simp

theorem natAbs_floatInt_mul (w : Word) (e : Nat) :
    (floatInt w * (2 ^ e : Nat)).natAbs = floatMag w * 2 ^ e := by
  rw [Int.natAbs_mul, natAbs_floatInt, Int.natAbs_natCast]

/-- `x` lies on the side of 0 where `y` does, and is 0 when `y` is. -/
def sameSide (x y : Int) : Prop := (0 < y → 0 ≤ x) ∧ (y < 0 → x ≤ 0) ∧ (y = 0 → x = 0)

section
variable {w r : Word} {exact : Int} {e : Nat}

/-- A number on the side of the exact value is nearest when its magnitude is. -/
theorem nearest_of_dist (hside : sameSide (floatInt r * (2 ^ e : Nat)) exact)
    (h : ∀ w, finiteWord w = true →
      Nat.dist (floatMag r * 2 ^ e) exact.natAbs ≤ Nat.dist (floatMag w * 2 ^ e) exact.natAbs) :
    nearest r exact (2 ^ e : Nat) := by
  intro w hw
  have hmag := h w hw
  rw [← natAbs_floatInt_mul, ← natAbs_floatInt_mul] at hmag
  generalize floatInt r * (2 ^ e : Nat) = x at *
  generalize floatInt w * (2 ^ e : Nat) = y at *
  obtain ⟨hpos, hneg, hzero⟩ := hside
  unfold Nat.dist at hmag
  omega

/-- Where another number is as near as a nearest one on the side of the exact value, its magnitude is
another and as near. -/
theorem dist_eq_of_tie (hside : sameSide (floatInt r * (2 ^ e : Nat)) exact)
    (h : Nat.dist (floatMag r * 2 ^ e) exact.natAbs ≤ Nat.dist (floatMag w * 2 ^ e) exact.natAbs)
    (hne : floatInt w ≠ floatInt r)
    (htie : (floatInt w * (2 ^ e : Nat) - exact).natAbs = (floatInt r * (2 ^ e : Nat) - exact).natAbs) :
    floatMag w * 2 ^ e ≠ floatMag r * 2 ^ e ∧
      Nat.dist (floatMag w * 2 ^ e) exact.natAbs = Nat.dist (floatMag r * 2 ^ e) exact.natAbs := by
  have hne' : floatInt w * (2 ^ e : Nat) ≠ floatInt r * (2 ^ e : Nat) := fun heq =>
    hne (Int.eq_of_mul_eq_mul_right (by positivity) heq)
  rw [← natAbs_floatInt_mul, ← natAbs_floatInt_mul] at h ⊢
  generalize floatInt r * (2 ^ e : Nat) = x at *
  generalize floatInt w * (2 ^ e : Nat) = y at *
  obtain ⟨hpos, hneg, hzero⟩ := hside
  unfold Nat.dist at h ⊢
  omega

/-- A pattern with the sign of the exact value lies on its side, when it is 0 for an exact 0. -/
theorem sameSide_floatSigned {neg : Bool} {m : Nat} (hm : m < 2 ^ 31)
    (hneg : exact ≠ 0 → neg = decide (exact < 0))
    (hzero : exact = 0 → floatMag (floatSigned neg m) = 0) :
    sameSide (floatInt (floatSigned neg m) * (2 ^ e : Nat)) exact := by
  rw [floatInt, floatNeg_floatSigned hm]
  refine ⟨fun h => ?_, fun h => ?_, fun h => by simp [hzero h]⟩
  · rw [hneg (by omega), if_neg (by simpa using h.le)]
    positivity
  · rw [hneg (by omega), if_pos (by simpa using h), Int.neg_mul]
    exact Int.neg_nonpos_of_nonneg (by positivity)

end

/-- An exact zero keeps no significand. -/
theorem keptSignificand_zero (e : Nat) : keptSignificand 0 e = 0 := by
  simp [keptSignificand, roundShift]

/-- Rounding an exact value to nearest even, with its sign and the threshold of overflow (R9, R104). -/
theorem roundFloat_roundsTo {neg : Bool} {exact : Int} (hneg : exact ≠ 0 → neg = decide (exact < 0))
    (e : Nat) : roundsTo (roundFloat neg exact.natAbs (149 + e)) exact (2 ^ e) := by
  have hover := overflows_iff exact.natAbs e
  rw [roundFloat_eq]
  refine ⟨fun h => ?_, fun h => ?_, fun h => ?_⟩
  · rw [← hneg h]
    exact floatNeg_floatSigned (by omega)
  · rw [Nat.min_eq_right (hover.mpr h)]
    cases neg
    · exact .inl rfl
    · exact .inr rfl
  · have hfits := Nat.lt_of_not_le fun ho => absurd (hover.mp ho) (Nat.not_le.mpr h)
    have hr := floatMag_floatSigned (neg := neg) (keptSignificand_le exact.natAbs e)
      (significand_normal exact.natAbs e) (by omega)
    rw [Nat.min_eq_left hfits.le]
    generalize hword : floatSigned neg (droppedBits exact.natAbs e * 2 ^ 23 +
      keptSignificand exact.natAbs e) = r at *
    have hplace : floatMag r * 2 ^ e =
        keptSignificand exact.natAbs e * 2 ^ (droppedBits exact.natAbs e + e) := by rw [hr]; ring
    have hside : sameSide (floatInt r * (2 ^ e : Nat)) exact := by
      rw [← hword]
      refine sameSide_floatSigned (by omega) hneg fun h0 => ?_
      rw [hword, hr, h0, Int.natAbs_zero, keptSignificand_zero, Nat.zero_mul]
    refine ⟨?_, nearest_of_dist hside fun w hw => ?_, fun w hw hne htie => ?_⟩
    · rw [finiteWord_iff, ← hword, floatExp_floatSigned (by omega)]
      omega
    · rw [hplace]
      exact (keptSignificand_nearest hw exact.natAbs e).1
    · obtain ⟨hnear, heven⟩ := keptSignificand_nearest hw exact.natAbs e
      rw [← hplace] at hnear heven
      obtain ⟨hdiff, hdist⟩ := dist_eq_of_tie hside hnear hne htie
      have hq := heven hdiff hdist
      rw [← hword, lowBit_floatSigned (by omega)]
      exact decide_eq_false (by omega)

end Sys2Proof.Proofs
end

section
/-! The binary32 operations on finite operands (R9, R104): each is one rounding of its exact result, a sum
with +0.0 rounds to itself, and what is made of zeros is zero. -/

namespace Sys2Proof.Proofs

open Sys2Proof.Machine Sys2Proof.Claims

/-! ### One rounding -/

theorem not_nan_of_finite {w : Word} (h : finiteWord w = true) : floatIsNan w = false :=
  decide_eq_false fun ⟨he, _⟩ => absurd (finiteWord_iff.mp h) (by omega)

theorem not_inf_of_finite {w : Word} (h : finiteWord w = true) : floatIsInf w = false :=
  decide_eq_false fun ⟨he, _⟩ => absurd (finiteWord_iff.mp h) (by omega)

/-- Rounding an exact 0 gives the zero of the sign asked for. -/
theorem roundFloat_zero (neg : Bool) (e : Nat) : roundFloat neg 0 (149 + e) = floatSigned neg 0 := by
  have hdropped : droppedBits 0 e = 0 := by
    simp only [droppedBits, roundingShift, Nat.log2_zero]
    omega
  rw [roundFloat_eq, keptSignificand_zero, hdropped]
  rfl

section
variable {a b : Word} (ha : finiteWord a = true) (hb : finiteWord b = true)
include ha hb

/-- The sum of finite numbers is rounded once, with the sign of a sum that is not 0. -/
theorem addNumbers_eq_round :
    ∃ neg, addNumbers a b = roundFloat neg (floatInt a + floatInt b).natAbs (149 + 0) ∧
      (floatInt a + floatInt b ≠ 0 → neg = decide (floatInt a + floatInt b < 0)) := by
  simp only [addNumbers, not_inf_of_finite ha, not_inf_of_finite hb, Bool.false_eq_true, if_false]
  split
  · next h0 =>
    refine ⟨floatNeg a && floatNeg b, ?_, fun h => absurd h0 h⟩
    rw [h0, Int.natAbs_zero, roundFloat_zero]
  · exact ⟨_, rfl, fun _ => rfl⟩

theorem addNumbers_roundsTo : roundsTo (addNumbers a b) (floatInt a + floatInt b) 1 := by
  obtain ⟨neg, hround, hneg⟩ := addNumbers_eq_round ha hb
  rw [hround]
  exact roundFloat_roundsTo hneg 0

theorem fadd_eq_addNumbers : fadd a b = addNumbers a b := by
  simp [fadd, not_nan_of_finite ha, not_nan_of_finite hb, not_inf_of_finite ha]

theorem fsub_eq_addNumbers : fsub a b = addNumbers a (floatNegate b) := by
  simp [fsub, not_nan_of_finite ha, not_nan_of_finite hb, not_inf_of_finite ha]

/-- The product of finite numbers is rounded once, with the product of the signs. -/
theorem fmul_eq_round :
    fmul a b = roundFloat (floatNeg a != floatNeg b) (floatMag a * floatMag b) (149 + 149) := by
  simp [fmul, not_nan_of_finite ha, not_nan_of_finite hb, not_inf_of_finite ha, not_inf_of_finite hb]

end

/-! ### Negation -/

/-- Negation flips the sign bit and keeps the other 31 bits. -/
theorem floatNegate_bits (w : Word) :
    floatNeg (floatNegate w) = !floatNeg w ∧ (floatNegate w).toNat % 2 ^ 31 = w.toNat % 2 ^ 31 := by
  constructor
  · simp [floatNeg, floatNegate]
  · rw [floatNegate, BitVec.toNat_xor, Nat.xor_mod_two_pow]
    simp

theorem floatExp_floatNegate (w : Word) : floatExp (floatNegate w) = floatExp w := by
  obtain ⟨-, hbits⟩ := floatNegate_bits w
  simp only [floatExp]
  omega

theorem floatFrac_floatNegate (w : Word) : floatFrac (floatNegate w) = floatFrac w := by
  obtain ⟨-, hbits⟩ := floatNegate_bits w
  simp only [floatFrac]
  omega

theorem floatInt_floatNegate (w : Word) : floatInt (floatNegate w) = -floatInt w := by
  obtain ⟨hsign, -⟩ := floatNegate_bits w
  simp only [floatInt, hsign, floatMag, floatExp_floatNegate, floatFrac_floatNegate]
  cases floatNeg w <;> simp

theorem finiteWord_floatNegate {w : Word} (h : finiteWord w = true) :
    finiteWord (floatNegate w) = true := by
  rw [finiteWord_iff, floatExp_floatNegate]
  exact finiteWord_iff.mp h

/-! ### Signs -/

/-- A value that is not 0 has the sign of its pattern. -/
theorem floatNeg_eq_decide {w : Word} (h : floatInt w ≠ 0) : floatNeg w = decide (floatInt w < 0) := by
  cases hn : floatNeg w with
  | false => simp [floatInt, hn]
  | true =>
    have hint : floatInt w = -floatMag w := by simp [floatInt, hn]
    exact (decide_eq_true (by omega)).symm

/-- The sign of a product that is not 0 is the product of the signs. -/
theorem sign_of_product (a b : Word) (h : floatInt a * floatInt b ≠ 0) :
    (floatNeg a != floatNeg b) = decide (floatInt a * floatInt b < 0) := by
  obtain ⟨ha, hb⟩ := mul_ne_zero_iff.mp h
  rw [floatNeg_eq_decide ha, floatNeg_eq_decide hb]
  obtain ha | ha := Int.lt_or_gt_of_ne ha <;> obtain hb | hb := Int.lt_or_gt_of_ne hb
  · simp [ha, hb, not_lt.mpr (mul_pos_of_neg_of_neg ha hb).le]
  · simp [ha, not_lt.mpr hb.le, mul_neg_of_neg_of_pos ha hb]
  · simp [not_lt.mpr ha.le, hb, mul_neg_of_pos_of_neg ha hb]
  · simp [not_lt.mpr ha.le, not_lt.mpr hb.le, not_lt.mpr (mul_pos ha hb).le]

/-- Settles O39: each operation rounds its exact result once, at the scale of sums or of products. -/
theorem arithmeticRoundsToNearest : Obligations.ArithmeticRoundsToNearest := by
  intro a b ha hb
  refine ⟨?_, ?_, ?_⟩
  · rw [fadd_eq_addNumbers ha hb]
    exact addNumbers_roundsTo ha hb
  · rw [fsub_eq_addNumbers ha hb, Int.sub_eq_add_neg, ← floatInt_floatNegate]
    exact addNumbers_roundsTo ha (finiteWord_floatNegate hb)
  · rw [fmul_eq_round ha hb, ← natAbs_floatInt a, ← natAbs_floatInt b, ← Int.natAbs_mul]
    exact roundFloat_roundsTo (sign_of_product a b) 149

/-! ### Sums with zero -/

/-- A number that binary32 holds exactly rounds to its own pattern. -/
theorem roundFloat_exact {neg : Bool} {k a : Nat} (ha : a < 2 ^ 24) (hk : k = 0 ∨ 2 ^ 23 ≤ a)
    (hmax : k ≤ 253) (h0 : a ≠ 0) :
    roundFloat neg (a * 2 ^ k) (149 + 0) = floatSigned neg (k * 2 ^ 23 + a) := by
  have hpos : a * 2 ^ k ≠ 0 := by positivity
  have hdropped : droppedBits (a * 2 ^ k) 0 = k := by
    have hlt : Nat.log2 (a * 2 ^ k) < 24 + k := (Nat.log2_lt hpos).mpr (by rw [pow_add]; gcongr)
    simp only [droppedBits, roundingShift]
    obtain rfl | hnorm := hk
    · omega
    · have hge : 23 + k ≤ Nat.log2 (a * 2 ^ k) := (Nat.le_log2 hpos).mpr (by rw [pow_add]; gcongr)
      omega
  have hkept : keptSignificand (a * 2 ^ k) 0 = a := by
    have hpow : 0 < 2 ^ k := by positivity
    rw [keptSignificand_eq, hdropped]
    simp [roundShift, hpow.ne]
  rw [roundFloat_eq, hdropped, hkept, Nat.min_eq_left (by omega)]

/-- Adding +0.0 to a finite number gives that number, but +0.0 for -0.0. -/
theorem fadd_zero_left {w : Word} (h : finiteWord w = true) (hne : w ≠ 0x80000000#32) :
    fadd 0x00000000#32 w = w := by
  have hz : floatInt 0x00000000#32 = 0 := rfl
  obtain ⟨k, a, hM, ha, hk, hmax, hself⟩ := exists_significand h
  rw [fadd_eq_addNumbers rfl h]
  by_cases h0 : a = 0
  · obtain rfl : k = 0 := by omega
    rw [h0] at hself
    cases hs : floatNeg w with
    | true => exact absurd (hself.trans (by rw [hs]; rfl)) hne
    | false =>
      obtain rfl : w = 0 := hself.trans (by rw [hs]; rfl)
      rfl
  · have hint : floatInt w ≠ 0 := by
      rw [← Int.natAbs_ne_zero, natAbs_floatInt, hM]
      positivity
    obtain ⟨neg, hround, hneg⟩ := addNumbers_eq_round (a := 0x00000000#32) rfl h
    rw [hz, Int.zero_add] at hround hneg
    rw [hround, natAbs_floatInt, hM, roundFloat_exact ha hk hmax h0, hneg hint,
      ← floatNeg_eq_decide hint, ← hself]

/-! ### What is made of zeros -/

/-- Both zeros are finite numbers of magnitude 0. -/
theorem zeroWord_finite {z : Word} (h : zeroWord z) : finiteWord z = true ∧ floatMag z = 0 := by
  obtain rfl | rfl := h <;> exact ⟨rfl, rfl⟩

theorem zeroWord_floatSigned (neg : Bool) : zeroWord (floatSigned neg 0) := by
  cases neg
  · exact .inl rfl
  · exact .inr rfl

/-- A product with a factor of magnitude 0 is a zero. -/
theorem fmul_zero_of_mag {a b : Word} (ha : finiteWord a = true) (hb : finiteWord b = true)
    (h : floatMag a * floatMag b = 0) : zeroWord (fmul a b) := by
  rw [fmul_eq_round ha hb, h, roundFloat_zero]
  exact zeroWord_floatSigned _

section
variable {z w : Word} (hz : zeroWord z) (hw : finiteWord w = true)
include hz hw

/-- The product of a zero and a finite number is a zero. -/
theorem fmul_zero_left : zeroWord (fmul z w) := by
  obtain ⟨hfin, hmag⟩ := zeroWord_finite hz
  exact fmul_zero_of_mag hfin hw (by rw [hmag, Nat.zero_mul])

theorem fmul_zero_right : zeroWord (fmul w z) := by
  obtain ⟨hfin, hmag⟩ := zeroWord_finite hz
  exact fmul_zero_of_mag hw hfin (by rw [hmag, Nat.mul_zero])

end

/-- The sum of +0.0 and a zero is +0.0. -/
theorem fadd_zero_zero {z : Word} (h : zeroWord z) : fadd 0x00000000#32 z = 0x00000000#32 := by
  obtain rfl | rfl := h <;> rfl

/-- The difference of two zeros is a zero. -/
theorem fsub_zero_zero {y z : Word} (hy : zeroWord y) (hz : zeroWord z) : zeroWord (fsub y z) := by
  obtain rfl | rfl := hy <;> obtain rfl | rfl := hz
  · exact .inl rfl
  · exact .inl rfl
  · exact .inr rfl
  · exact .inl rfl

/-- A sum of zeros from +0.0 on is +0.0 (R104). -/
theorem sumTo_zero {f : Nat → Word} {n : Nat} (h : ∀ k, k < n → zeroWord (f k)) : sumTo f n = 0 := by
  induction n with
  | zero => rfl
  | succ n ih =>
    rw [sumTo, ih fun k hk => h k (by omega)]
    exact fadd_zero_zero (h n (by omega))

/-- Settles O40: a finite number is rounded to itself, and what has magnitude 0 to a zero. -/
theorem zerosAndSubnormalsAreKept : Obligations.ZerosAndSubnormalsAreKept := fun _ hw =>
  ⟨fadd_zero_left hw, by rintro rfl; rfl, fun _ hz => ⟨fmul_zero_left hz hw, fmul_zero_right hz hw⟩⟩

/-! ### The silence law -/

/-- An element of a list of finite numbers is finite, also where the list has ended. -/
theorem finite_elementAt {l : List Word} (h : ∀ w ∈ l, finiteWord w = true) (n : Nat) :
    finiteWord (elementAt l n) = true := by
  rw [elementAt, List.getD_eq_getElem?_getD]
  cases hn : l[n]? with
  | none => rfl
  | some w => exact h w (List.mem_of_getElem? hn)

/-- An element of a rotation table is finite, also past its rows (R101). -/
theorem finite_rotation {table : List (List Word)} (h : rotationTable table) (k n : Nat) :
    finiteWord (elementAt (table.getD k []) n) = true := by
  obtain ⟨-, hrows⟩ := h
  refine finite_elementAt ?_ n
  rw [List.getD_eq_getElem?_getD]
  cases hk : table[k]? with
  | none => simp
  | some row => exact (hrows row (List.mem_of_getElem? hk)).2

section
variable {s : State} {x : Nat} (hb : s.build.Legal)
include hb

/-- On a window and samples of zeros every band is +0.0. -/
theorem bandAfter_zero {rotation : List (List Word)} (hrot : rotationTable rotation)
    (haw : ∀ n, zeroWord (elementAt (instanceAt s x).aw n))
    (hts : ∀ k, k < 64 → zeroWord (readPort s .ts k)) (k : Nat) : bandAfter s x rotation k = 0 := by
  obtain ⟨-, -, -, -, ⟨-, hproto⟩, -⟩ := hb
  have window : ∀ n, zeroWord (windowAfter s x n) := by
    intro n
    unfold windowAfter
    split
    · exact hts _ (by omega)
    · exact haw _
  have group : ∀ n, zeroWord (groupingAfter s x n) := fun n =>
    .inl (sumTo_zero fun _ _ => fmul_zero_left (window _) (finite_elementAt hproto _))
  exact sumTo_zero fun n _ => fmul_zero_left (group n) (finite_rotation hrot k n)

/-- On a history and subbands of zeros every sample is +0.0. -/
theorem sampleAfter_zero (hsh : ∀ n, zeroWord (elementAt (instanceAt s x).sh n))
    (hports : ∀ k, k < 64 → zeroWord (readPort s .xr k) ∧ zeroWord (readPort s .xi k)) (m j : Nat) :
    sampleAfter s x m j = 0 := by
  obtain ⟨-, -, -, -, ⟨-, hproto⟩, ⟨-, -, hre, him⟩, -⟩ := hb
  have history : ∀ n, zeroWord (historyAfter s x n) := by
    intro n
    unfold historyAfter
    split
    · refine .inl (sumTo_zero fun k hk => ?_)
      obtain ⟨hxr, hxi⟩ := hports k hk
      exact fsub_zero_zero (fmul_zero_left hxr (finite_rotation hre k n))
        (fmul_zero_left hxi (finite_rotation him k n))
    · exact hsh _
  have term : ∀ n p, fadd 0 (fmul (historyAfter s x n) (elementAt s.build.proto p)) = 0 := fun n p =>
    fadd_zero_zero (fmul_zero_left (history n) (finite_elementAt hproto p))
  induction j with
  | zero => rfl
  | succ j ih => rw [sampleAfter, ih, term, term]

end

/-- Settles O36: the outputs are the sums of the spec, and on zeros each of them is a sum of zeros. -/
theorem silenceGivesSilence : Obligations.SilenceGivesSilence := by
  intro x s h hb
  obtain ⟨-, hfwd⟩ := qfwdRule
  obtain ⟨-, hinv⟩ := qinvRule
  obtain ⟨-, -, -, -, -, ⟨hre, him, -⟩, -⟩ := id hb
  refine ⟨fun haw hts => ?_, fun hsh hports => ?_⟩
  · obtain ⟨t, ht, -, -, -, hout⟩ := (hfwd x s).2 h
    refine ⟨t, ht, fun k hk => ?_⟩
    obtain ⟨hr, hi⟩ := hout k hk
    exact ⟨hr.trans (bandAfter_zero hb hre haw hts k), hi.trans (bandAfter_zero hb him haw hts k)⟩
  · obtain ⟨t, ht, -, -, -, hout⟩ := (hinv x s).2 h
    exact ⟨t, ht, fun m hm => (hout m hm).trans (sampleAfter_zero hb hsh hports m _)⟩

end Sys2Proof.Proofs
end
